-- ==== Sys2Proof/Word.lean ====
section
/-! DEFINITION. The word types of the rv32.js RV32I core (spec/00_scope.md R5, R6): registers, the pc and
addresses are 32-bit vectors, memory holds bytes, a register index is a 5-bit field.
`unsigned(v)` of R6 is `BitVec.toNat v`, `signed(v)` is `BitVec.toInt v`. -/

namespace Sys2Proof

/-- A register, pc or address value: XLEN = 32 bits (R5). -/
abbrev Word := BitVec 32

/-- One byte of memory or of an output event (10_state.md R25). -/
abbrev Byte := BitVec 8

/-- A register index: the 5-bit fields rd, rs1, rs2 can name nothing else (10_state.md R12). -/
abbrev RegIdx := BitVec 5

end Sys2Proof
end

