-- ==== Sys2Proof/Config.lean ====
section
/-! DEFINITION. The configuration CFG of spec/00_scope.md R5: what is fixed before the first step. It does not change
during a run (10_state.md R27). The spec leaves no value open (93_implementation_defined.md part 1), so no
free value stands here. -/

namespace Sys2Proof

/-- NREGS: 16 in the "embedded" configuration, 32 otherwise (00_scope.md R5, 10_state.md R11). -/
inductive RegCount where
  | embedded
  | full
  deriving DecidableEq, Repr

/-- The number NREGS of general registers, x0 among them. -/
def RegCount.count : RegCount → Nat
  | .embedded => 16
  | .full => 32

/-- The parameters of one peripheral: the two kinds of 20_memory.md R30. -/
inductive PeripheralParams where
  | memory (base size : Nat)
  | output (port : Word)
  deriving DecidableEq, Repr

/-- 00_scope.md R5 and decision D25: `size >= 1` and `base + size <= 2^32`; any port is legal. -/
def PeripheralParams.wf : PeripheralParams → Bool
  | .memory base size => decide (1 ≤ size) && decide (base + size ≤ 2 ^ 32)
  | .output _ => true

/-- CFG (00_scope.md R5). `rom` is the position on the bus of the memory device that receives `image`. -/
structure Config where
  nregs         : RegCount
  bus           : List PeripheralParams
  rom           : Nat
  image         : List Byte
  initSp        : Option Word
  haltOnService : Bool
  deriving DecidableEq, Repr

/-- The reference configuration REF (20_memory.md R58) with no image: ROM, RAM, OUT, in that order; NREGS = 32,
HALT_ON_SERVICE false, INIT_SP absent. The spec uses it for its vectors; that reset uses it is a DESIGN CHOICE (log 1). -/
def Config.ref : Config where
  nregs := .full
  bus := [.memory 0x0000 0x1000, .memory 0x4000 0x1000, .output 0x9000#32]
  rom := 0
  image := []
  initSp := none
  haltOnService := false

end Sys2Proof
end

