-- ==== Sys2Proof/Syntax.lean ====
section
/-! DEFINITION. The instructions: one constructor per row of spec/opcode_table.json (30_encoding.md R82, 41 rows), with the
operand fields of its format (R71 to R78). `off` is the signed byte offset as the format's whole value string (13 bits with a
zero low bit for B, 21 for J), `imm` the immediate field before extension. -/

namespace Sys2Proof

inductive Instr where
  -- upper immediate (R100, R101): imm is the 20-bit field w[31:12]
  | lui (rd : RegIdx) (imm : BitVec 20)
  | auipc (rd : RegIdx) (imm : BitVec 20)
  -- unconditional jumps (R110, R111); JALR's funct3 is not examined (R83) but kept
  | jal (rd : RegIdx) (off : BitVec 21)
  | jalr (rd rs1 : RegIdx) (imm : BitVec 12) (funct3 : BitVec 3)
  -- branches (R120 to R126)
  | beq (rs1 rs2 : RegIdx) (off : BitVec 13)
  | bne (rs1 rs2 : RegIdx) (off : BitVec 13)
  | blt (rs1 rs2 : RegIdx) (off : BitVec 13)
  | bge (rs1 rs2 : RegIdx) (off : BitVec 13)
  | bltu (rs1 rs2 : RegIdx) (off : BitVec 13)
  | bgeu (rs1 rs2 : RegIdx) (off : BitVec 13)
  -- loads (R130 to R137)
  | lb (rd rs1 : RegIdx) (imm : BitVec 12)
  | lh (rd rs1 : RegIdx) (imm : BitVec 12)
  | lw (rd rs1 : RegIdx) (imm : BitVec 12)
  | lbu (rd rs1 : RegIdx) (imm : BitVec 12)
  | lhu (rd rs1 : RegIdx) (imm : BitVec 12)
  | lwu (rd rs1 : RegIdx) (imm : BitVec 12)
  -- stores (R140 to R144): rs1 is the base, rs2 the value
  | sb (rs1 rs2 : RegIdx) (imm : BitVec 12)
  | sh (rs1 rs2 : RegIdx) (imm : BitVec 12)
  | sw (rs1 rs2 : RegIdx) (imm : BitVec 12)
  -- register-immediate operations (R150 to R159)
  | addi (rd rs1 : RegIdx) (imm : BitVec 12)
  | slti (rd rs1 : RegIdx) (imm : BitVec 12)
  | sltiu (rd rs1 : RegIdx) (imm : BitVec 12)
  | xori (rd rs1 : RegIdx) (imm : BitVec 12)
  | ori (rd rs1 : RegIdx) (imm : BitVec 12)
  | andi (rd rs1 : RegIdx) (imm : BitVec 12)
  | slli (rd rs1 : RegIdx) (shamt : BitVec 5)
  | srli (rd rs1 : RegIdx) (shamt : BitVec 5)
  | srai (rd rs1 : RegIdx) (shamt : BitVec 5)
  -- register-register operations (R165 to R175)
  | add (rd rs1 rs2 : RegIdx)
  | sub (rd rs1 rs2 : RegIdx)
  | sll (rd rs1 rs2 : RegIdx)
  | slt (rd rs1 rs2 : RegIdx)
  | sltu (rd rs1 rs2 : RegIdx)
  | xor (rd rs1 rs2 : RegIdx)
  | srl (rd rs1 rs2 : RegIdx)
  | sra (rd rs1 rs2 : RegIdx)
  | or (rd rs1 rs2 : RegIdx)
  | and (rd rs1 rs2 : RegIdx)
  -- FENCE (R181): the 25 bits above the opcode, none examined
  | fence (unexamined : BitVec 25)
  -- service (R182, R183)
  | ecall
  | ebreak
  deriving DecidableEq, Repr

/-- The 41 mnemonics of 30_encoding.md R82. -/
inductive Mnemonic where
  | LUI | AUIPC | JAL | JALR
  | BEQ | BNE | BLT | BGE | BLTU | BGEU
  | LB | LH | LW | LBU | LHU | LWU
  | SB | SH | SW
  | ADDI | SLTI | SLTIU | XORI | ORI | ANDI | SLLI | SRLI | SRAI
  | ADD | SUB | SLL | SLT | SLTU | XOR | SRL | SRA | OR | AND
  | FENCE | ECALL | EBREAK
  deriving DecidableEq, Repr

/-- The row of the opcode table an instruction belongs to. -/
def Instr.mnemonic : Instr → Mnemonic
  | .lui .. => .LUI
  | .auipc .. => .AUIPC
  | .jal .. => .JAL
  | .jalr .. => .JALR
  | .beq .. => .BEQ
  | .bne .. => .BNE
  | .blt .. => .BLT
  | .bge .. => .BGE
  | .bltu .. => .BLTU
  | .bgeu .. => .BGEU
  | .lb .. => .LB
  | .lh .. => .LH
  | .lw .. => .LW
  | .lbu .. => .LBU
  | .lhu .. => .LHU
  | .lwu .. => .LWU
  | .sb .. => .SB
  | .sh .. => .SH
  | .sw .. => .SW
  | .addi .. => .ADDI
  | .slti .. => .SLTI
  | .sltiu .. => .SLTIU
  | .xori .. => .XORI
  | .ori .. => .ORI
  | .andi .. => .ANDI
  | .slli .. => .SLLI
  | .srli .. => .SRLI
  | .srai .. => .SRAI
  | .add .. => .ADD
  | .sub .. => .SUB
  | .sll .. => .SLL
  | .slt .. => .SLT
  | .sltu .. => .SLTU
  | .xor .. => .XOR
  | .srl .. => .SRL
  | .sra .. => .SRA
  | .or .. => .OR
  | .and .. => .AND
  | .fence .. => .FENCE
  | .ecall => .ECALL
  | .ebreak => .EBREAK

/-- The register an instruction writes, by its rule: the instructions with an rd field their rule uses (10_state.md R11). -/
def Instr.dest : Instr → Option RegIdx
  | .lui rd _ | .auipc rd _ | .jal rd _ | .jalr rd _ _ _ => some rd
  | .lb rd _ _ | .lh rd _ _ | .lw rd _ _ | .lbu rd _ _ | .lhu rd _ _ | .lwu rd _ _ => some rd
  | .addi rd _ _ | .slti rd _ _ | .sltiu rd _ _ | .xori rd _ _ | .ori rd _ _ | .andi rd _ _ => some rd
  | .slli rd _ _ | .srli rd _ _ | .srai rd _ _ => some rd
  | .add rd _ _ | .sub rd _ _ | .sll rd _ _ | .slt rd _ _ | .sltu rd _ _ => some rd
  | .xor rd _ _ | .srl rd _ _ | .sra rd _ _ | .or rd _ _ | .and rd _ _ => some rd
  | .beq .. | .bne .. | .blt .. | .bge .. | .bltu .. | .bgeu .. => none
  | .sb .. | .sh .. | .sw .. | .fence .. | .ecall | .ebreak => none

/-- The registers an instruction reads, in the order its rule reads them. -/
def Instr.sources : Instr → List RegIdx
  | .lui .. | .auipc .. | .jal .. | .fence .. | .ecall | .ebreak => []
  | .jalr _ rs1 _ _ => [rs1]
  | .beq rs1 rs2 _ | .bne rs1 rs2 _ | .blt rs1 rs2 _ | .bge rs1 rs2 _ | .bltu rs1 rs2 _ | .bgeu rs1 rs2 _ => [rs1, rs2]
  | .lb _ rs1 _ | .lh _ rs1 _ | .lw _ rs1 _ | .lbu _ rs1 _ | .lhu _ rs1 _ | .lwu _ rs1 _ => [rs1]
  | .sb rs1 rs2 _ | .sh rs1 rs2 _ | .sw rs1 rs2 _ => [rs1, rs2]
  | .addi _ rs1 _ | .slti _ rs1 _ | .sltiu _ rs1 _ | .xori _ rs1 _ | .ori _ rs1 _ | .andi _ rs1 _ => [rs1]
  | .slli _ rs1 _ | .srli _ rs1 _ | .srai _ rs1 _ => [rs1]
  | .add _ rs1 rs2 | .sub _ rs1 rs2 | .sll _ rs1 rs2 | .slt _ rs1 rs2 | .sltu _ rs1 rs2 => [rs1, rs2]
  | .xor _ rs1 rs2 | .srl _ rs1 rs2 | .sra _ rs1 rs2 | .or _ rs1 rs2 | .and _ rs1 rs2 => [rs1, rs2]

/-- The conditional branches (R120). -/
def Instr.isBranch : Instr → Bool
  | .beq .. | .bne .. | .blt .. | .bge .. | .bltu .. | .bgeu .. => true
  | .lui .. | .auipc .. | .jal .. | .jalr .. => false
  | .lb .. | .lh .. | .lw .. | .lbu .. | .lhu .. | .lwu .. | .sb .. | .sh .. | .sw .. => false
  | .addi .. | .slti .. | .sltiu .. | .xori .. | .ori .. | .andi .. | .slli .. | .srli .. | .srai .. => false
  | .add .. | .sub .. | .sll .. | .slt .. | .sltu .. | .xor .. | .srl .. | .sra .. | .or .. | .and .. => false
  | .fence .. | .ecall | .ebreak => false

/-- The jumps JAL and JALR. -/
def Instr.isJump : Instr → Bool
  | .jal .. | .jalr .. => true
  | .lui .. | .auipc .. => false
  | .beq .. | .bne .. | .blt .. | .bge .. | .bltu .. | .bgeu .. => false
  | .lb .. | .lh .. | .lw .. | .lbu .. | .lhu .. | .lwu .. | .sb .. | .sh .. | .sw .. => false
  | .addi .. | .slti .. | .sltiu .. | .xori .. | .ori .. | .andi .. | .slli .. | .srli .. | .srai .. => false
  | .add .. | .sub .. | .sll .. | .slt .. | .sltu .. | .xor .. | .srl .. | .sra .. | .or .. | .and .. => false
  | .fence .. | .ecall | .ebreak => false

/-- How many bytes a load moves (R130 to R135), 0 for an instruction that loads nothing. -/
def Instr.loadWidth : Instr → Nat
  | .lb .. | .lbu .. => 1
  | .lh .. | .lhu .. => 2
  | .lw .. | .lwu .. => 4
  | .lui .. | .auipc .. | .jal .. | .jalr .. => 0
  | .beq .. | .bne .. | .blt .. | .bge .. | .bltu .. | .bgeu .. | .sb .. | .sh .. | .sw .. => 0
  | .addi .. | .slti .. | .sltiu .. | .xori .. | .ori .. | .andi .. | .slli .. | .srli .. | .srai .. => 0
  | .add .. | .sub .. | .sll .. | .slt .. | .sltu .. | .xor .. | .srl .. | .sra .. | .or .. | .and .. => 0
  | .fence .. | .ecall | .ebreak => 0

/-- How many bytes a store moves (R140 to R142), 0 for an instruction that stores nothing. -/
def Instr.storeWidth : Instr → Nat
  | .sb .. => 1
  | .sh .. => 2
  | .sw .. => 4
  | .lui .. | .auipc .. | .jal .. | .jalr .. => 0
  | .beq .. | .bne .. | .blt .. | .bge .. | .bltu .. | .bgeu .. => 0
  | .lb .. | .lh .. | .lw .. | .lbu .. | .lhu .. | .lwu .. => 0
  | .addi .. | .slti .. | .sltiu .. | .xori .. | .ori .. | .andi .. | .slli .. | .srli .. | .srai .. => 0
  | .add .. | .sub .. | .sll .. | .slt .. | .sltu .. | .xor .. | .srl .. | .sra .. | .or .. | .and .. => 0
  | .fence .. | .ecall | .ebreak => 0

/-- ECALL and EBREAK, the SERVICE family (47_fence_service.md). -/
def Instr.isService : Instr → Bool
  | .ecall | .ebreak => true
  | .lui .. | .auipc .. | .jal .. | .jalr .. => false
  | .beq .. | .bne .. | .blt .. | .bge .. | .bltu .. | .bgeu .. => false
  | .lb .. | .lh .. | .lw .. | .lbu .. | .lhu .. | .lwu .. | .sb .. | .sh .. | .sw .. => false
  | .addi .. | .slti .. | .sltiu .. | .xori .. | .ori .. | .andi .. | .slli .. | .srli .. | .srai .. => false
  | .add .. | .sub .. | .sll .. | .slt .. | .sltu .. | .xor .. | .srl .. | .sra .. | .or .. | .and .. => false
  | .fence .. => false

end Sys2Proof
end

