-- ==== Sys2Proof/WellFormed.lean ====
section
/-! DEFINITION. What the instruction formats can express (30_encoding.md R72, R76, R78): a branch offset and a JAL offset are
even, since the format has no bit for value bit 0. Every other operand fills its field exactly, so its type is its check. -/

namespace Sys2Proof

/-- R76, R78: "always even", the low bit of the value string is 0. -/
def evenOffset {n : Nat} (off : BitVec n) : Bool := !off.getLsbD 0

/-- A well-formed instruction: one the encoding of its row can express. -/
def Instr.wf : Instr → Bool
  | .jal _ off => evenOffset off
  | .beq _ _ off | .bne _ _ off | .blt _ _ off | .bge _ _ off | .bltu _ _ off | .bgeu _ _ off => evenOffset off
  | .lui .. | .auipc .. | .jalr .. => true
  | .lb .. | .lh .. | .lw .. | .lbu .. | .lhu .. | .lwu .. | .sb .. | .sh .. | .sw .. => true
  | .addi .. | .slti .. | .sltiu .. | .xori .. | .ori .. | .andi .. | .slli .. | .srli .. | .srai .. => true
  | .add .. | .sub .. | .sll .. | .slt .. | .sltu .. | .xor .. | .srl .. | .sra .. | .or .. | .and .. => true
  | .fence .. | .ecall | .ebreak => true

end Sys2Proof
end

