-- ==== Sys2Proof/Decode.lean ====
section
/-! DEFINITION. Fields, immediates, the decoder and the encoder (30_encoding.md), and the byte order of words (20_memory.md R53).
The numeric values are the spec's (R81, R82), which it took from the published RISC-V base ISA (log 11). -/

namespace Sys2Proof

/-! ### Byte order (R53): the byte at the lowest address is the least significant -/

/-- Byte `i` of a word: `v[8i+7 : 8i]`. -/
def byteOf (v : Word) (i : Nat) : Byte := v.extractLsb' (8 * i) 8

/-- The `n` low bytes of a word, least significant first (R46, R52). -/
def leBytes (n : Nat) (v : Word) : List Byte := (List.range n).map (byteOf v)

/-- The number a byte sequence stands for: `b0 + b1 * 2^8 + …` (R45). -/
def leNat : List Byte → Nat
  | [] => 0
  | b :: bs => b.toNat + 256 * leNat bs

/-- The same, as a 32-bit value. -/
def leWord (bs : List Byte) : Word := BitVec.ofNat 32 (leNat bs)

/-! ### Fields (R71) -/

def opcodeOf (w : Word) : BitVec 7 := w.extractLsb' 0 7
def rdOf (w : Word) : RegIdx := w.extractLsb' 7 5
def funct3Of (w : Word) : BitVec 3 := w.extractLsb' 12 3
def rs1Of (w : Word) : RegIdx := w.extractLsb' 15 5
def rs2Of (w : Word) : RegIdx := w.extractLsb' 20 5
def funct7Of (w : Word) : BitVec 7 := w.extractLsb' 25 7
/-- R79: the shift amount `w[24:20]`. -/
def shamtOf (w : Word) : BitVec 5 := w.extractLsb' 20 5

/-! ### Immediate bit strings (R74 to R78) -/

/-- R74: `w[31:20]`. -/
def immIField (w : Word) : BitVec 12 := w.extractLsb' 20 12
/-- R75: `w[31:25] ++ w[11:7]`. -/
def immSField (w : Word) : BitVec 12 := w.extractLsb' 25 7 ++ w.extractLsb' 7 5
/-- R76 with C1: `w[31] ++ w[7] ++ w[30:25] ++ w[11:8] ++ 0`. -/
def immBField (w : Word) : BitVec 13 :=
  w.extractLsb' 31 1 ++ w.extractLsb' 7 1 ++ w.extractLsb' 25 6 ++ w.extractLsb' 8 4 ++ 0#1
/-- R77: the 20-bit field `w[31:12]`. -/
def immUField (w : Word) : BitVec 20 := w.extractLsb' 12 20
/-- R78: `w[31] ++ w[19:12] ++ w[20] ++ w[30:21] ++ 0`. -/
def immJField (w : Word) : BitVec 21 :=
  w.extractLsb' 31 1 ++ w.extractLsb' 12 8 ++ w.extractLsb' 20 1 ++ w.extractLsb' 21 10 ++ 0#1

/-! ### The five signed immediates, and the unsigned variants that no instruction uses (R79) -/

def immI (w : Word) : Word := (immIField w).signExtend 32
def immS (w : Word) : Word := (immSField w).signExtend 32
def immB (w : Word) : Word := (immBField w).signExtend 32
/-- R77: `w[31:12] ++ 0^12`. -/
def immU (w : Word) : Word := immUField w ++ 0#12
def immJ (w : Word) : Word := (immJField w).signExtend 32
def uimmI (w : Word) : Word := (immIField w).setWidth 32
def uimmS (w : Word) : Word := (immSField w).setWidth 32
def uimmB (w : Word) : Word := (immBField w).setWidth 32
def uimmU (w : Word) : Word := immU w
def uimmJ (w : Word) : Word := (immJField w).setWidth 32

/-! ### The opcode families (R81) -/

def opLui : BitVec 7 := 0b0110111#7
def opAuipc : BitVec 7 := 0b0010111#7
def opJal : BitVec 7 := 0b1101111#7
def opJalr : BitVec 7 := 0b1100111#7
def opBranch : BitVec 7 := 0b1100011#7
def opLoad : BitVec 7 := 0b0000011#7
def opStore : BitVec 7 := 0b0100011#7
def opImmediate : BitVec 7 := 0b0010011#7
def opRegister : BitVec 7 := 0b0110011#7
def opFence : BitVec 7 := 0b0001111#7
def opService : BitVec 7 := 0b1110011#7

/-! ### The decoder (R80) -/

/-- The three decode errors (R80, R84, 60_exceptions.md R190 F5 to F7) with the fields each identifies. -/
inductive DecodeError where
  | invalidOpcode (opcode : BitVec 7)
  | invalidFunct (opcode : BitVec 7) (funct3 : BitVec 3) (funct7 : BitVec 7)
  | invalidWidth (funct3 : BitVec 3)
  deriving DecidableEq, Repr

/-- "raise InvalidFunct(opcode, funct3, funct7)" of R80. -/
def badFunct (w : Word) : Except DecodeError Instr :=
  .error (.invalidFunct (opcodeOf w) (funct3Of w) (funct7Of w))

/-- R80, the BRANCH case. -/
def decodeBranch (w : Word) : Except DecodeError Instr :=
  if funct3Of w = 0b000#3 then .ok (.beq (rs1Of w) (rs2Of w) (immBField w))
  else if funct3Of w = 0b001#3 then .ok (.bne (rs1Of w) (rs2Of w) (immBField w))
  else if funct3Of w = 0b100#3 then .ok (.blt (rs1Of w) (rs2Of w) (immBField w))
  else if funct3Of w = 0b101#3 then .ok (.bge (rs1Of w) (rs2Of w) (immBField w))
  else if funct3Of w = 0b110#3 then .ok (.bltu (rs1Of w) (rs2Of w) (immBField w))
  else if funct3Of w = 0b111#3 then .ok (.bgeu (rs1Of w) (rs2Of w) (immBField w))
  else badFunct w

/-- R80, the LOAD case; an unrecognised funct3 is an invalid width (43_loads.md R136). -/
def decodeLoad (w : Word) : Except DecodeError Instr :=
  if funct3Of w = 0b000#3 then .ok (.lb (rdOf w) (rs1Of w) (immIField w))
  else if funct3Of w = 0b001#3 then .ok (.lh (rdOf w) (rs1Of w) (immIField w))
  else if funct3Of w = 0b010#3 then .ok (.lw (rdOf w) (rs1Of w) (immIField w))
  else if funct3Of w = 0b100#3 then .ok (.lbu (rdOf w) (rs1Of w) (immIField w))
  else if funct3Of w = 0b101#3 then .ok (.lhu (rdOf w) (rs1Of w) (immIField w))
  else if funct3Of w = 0b110#3 then .ok (.lwu (rdOf w) (rs1Of w) (immIField w))
  else .error (.invalidWidth (funct3Of w))

/-- R80, the STORE case (44_stores.md R143). -/
def decodeStore (w : Word) : Except DecodeError Instr :=
  if funct3Of w = 0b000#3 then .ok (.sb (rs1Of w) (rs2Of w) (immSField w))
  else if funct3Of w = 0b001#3 then .ok (.sh (rs1Of w) (rs2Of w) (immSField w))
  else if funct3Of w = 0b010#3 then .ok (.sw (rs1Of w) (rs2Of w) (immSField w))
  else .error (.invalidWidth (funct3Of w))

/-- R80, the IMMEDIATE case; the shifts compare all seven bits of funct7 (R83). -/
def decodeImmediate (w : Word) : Except DecodeError Instr :=
  if funct3Of w = 0b000#3 then .ok (.addi (rdOf w) (rs1Of w) (immIField w))
  else if funct3Of w = 0b010#3 then .ok (.slti (rdOf w) (rs1Of w) (immIField w))
  else if funct3Of w = 0b011#3 then .ok (.sltiu (rdOf w) (rs1Of w) (immIField w))
  else if funct3Of w = 0b100#3 then .ok (.xori (rdOf w) (rs1Of w) (immIField w))
  else if funct3Of w = 0b110#3 then .ok (.ori (rdOf w) (rs1Of w) (immIField w))
  else if funct3Of w = 0b111#3 then .ok (.andi (rdOf w) (rs1Of w) (immIField w))
  else if funct3Of w = 0b001#3 then
    if funct7Of w = 0b0000000#7 then .ok (.slli (rdOf w) (rs1Of w) (shamtOf w)) else badFunct w
  else
    if funct7Of w = 0b0000000#7 then .ok (.srli (rdOf w) (rs1Of w) (shamtOf w))
    else if funct7Of w = 0b0100000#7 then .ok (.srai (rdOf w) (rs1Of w) (shamtOf w))
    else badFunct w

/-- R80, the REGISTER case: ten pairs (funct3, funct7). -/
def decodeRegister (w : Word) : Except DecodeError Instr :=
  if funct7Of w = 0b0000000#7 then
    if funct3Of w = 0b000#3 then .ok (.add (rdOf w) (rs1Of w) (rs2Of w))
    else if funct3Of w = 0b001#3 then .ok (.sll (rdOf w) (rs1Of w) (rs2Of w))
    else if funct3Of w = 0b010#3 then .ok (.slt (rdOf w) (rs1Of w) (rs2Of w))
    else if funct3Of w = 0b011#3 then .ok (.sltu (rdOf w) (rs1Of w) (rs2Of w))
    else if funct3Of w = 0b100#3 then .ok (.xor (rdOf w) (rs1Of w) (rs2Of w))
    else if funct3Of w = 0b101#3 then .ok (.srl (rdOf w) (rs1Of w) (rs2Of w))
    else if funct3Of w = 0b110#3 then .ok (.or (rdOf w) (rs1Of w) (rs2Of w))
    else .ok (.and (rdOf w) (rs1Of w) (rs2Of w))
  else if funct7Of w = 0b0100000#7 then
    if funct3Of w = 0b000#3 then .ok (.sub (rdOf w) (rs1Of w) (rs2Of w))
    else if funct3Of w = 0b101#3 then .ok (.sra (rdOf w) (rs1Of w) (rs2Of w))
    else badFunct w
  else badFunct w

/-- R80, the SERVICE case: ECALL and EBREAK are whole words (R83). -/
def decodeService (w : Word) : Except DecodeError Instr :=
  if w = 0x00000073#32 then .ok .ecall
  else if w = 0x00100073#32 then .ok .ebreak
  else badFunct w

/-- The decoder: `execute`'s dispatch (R80). It reads no state. -/
def decode (w : Word) : Except DecodeError Instr :=
  if opcodeOf w = opLui then .ok (.lui (rdOf w) (immUField w))
  else if opcodeOf w = opAuipc then .ok (.auipc (rdOf w) (immUField w))
  else if opcodeOf w = opJal then .ok (.jal (rdOf w) (immJField w))
  else if opcodeOf w = opJalr then .ok (.jalr (rdOf w) (rs1Of w) (immIField w) (funct3Of w))
  else if opcodeOf w = opBranch then decodeBranch w
  else if opcodeOf w = opLoad then decodeLoad w
  else if opcodeOf w = opStore then decodeStore w
  else if opcodeOf w = opImmediate then decodeImmediate w
  else if opcodeOf w = opRegister then decodeRegister w
  else if opcodeOf w = opFence then .ok (.fence (w.extractLsb' 7 25))
  else if opcodeOf w = opService then decodeService w
  else .error (.invalidOpcode (opcodeOf w))

/-- Why a byte sequence gives no instruction: it is shorter than a word, or its first word does not decode. -/
inductive ByteReject where
  | tooShort
  | illegal (e : DecodeError)
  deriving DecidableEq, Repr

/-- The decoder on bytes as memory holds them (R53, R70): the first four bytes, little-endian, and the rest. -/
def decodeBytes : List Byte → Except ByteReject (Instr × List Byte)
  | b0 :: b1 :: b2 :: b3 :: rest =>
    match decode (leWord [b0, b1, b2, b3]) with
    | .ok i => .ok (i, rest)
    | .error e => .error (.illegal e)
  | _ => .error .tooShort

/-- The word of an opcode-table row: the low `nbits` bits of `w`, the rest 0. -/
def tableWord (nbits w : Nat) : Word := BitVec.ofNat 32 (w % 2 ^ nbits)

/-- What the decoder reads from the bytes of an opcode-table word. -/
def decodeTableWord (nbits w : Nat) : Option Instr :=
  match decodeBytes (leBytes 4 (tableWord nbits w)) with
  | .ok (i, _) => some i
  | .error _ => none

/-! ### The encoder: the formats of R72 -/

def encodeR (funct7 : BitVec 7) (rs2 rs1 : RegIdx) (funct3 : BitVec 3) (rd : RegIdx) (op : BitVec 7) : Word :=
  funct7 ++ rs2 ++ rs1 ++ funct3 ++ rd ++ op

def encodeI (imm : BitVec 12) (rs1 : RegIdx) (funct3 : BitVec 3) (rd : RegIdx) (op : BitVec 7) : Word :=
  imm ++ rs1 ++ funct3 ++ rd ++ op

def encodeS (imm : BitVec 12) (rs2 rs1 : RegIdx) (funct3 : BitVec 3) (op : BitVec 7) : Word :=
  imm.extractLsb' 5 7 ++ rs2 ++ rs1 ++ funct3 ++ imm.extractLsb' 0 5 ++ op

def encodeB (off : BitVec 13) (rs2 rs1 : RegIdx) (funct3 : BitVec 3) (op : BitVec 7) : Word :=
  off.extractLsb' 12 1 ++ off.extractLsb' 5 6 ++ rs2 ++ rs1 ++ funct3 ++ off.extractLsb' 1 4 ++ off.extractLsb' 11 1 ++ op

def encodeU (imm : BitVec 20) (rd : RegIdx) (op : BitVec 7) : Word :=
  imm ++ rd ++ op

def encodeJ (off : BitVec 21) (rd : RegIdx) (op : BitVec 7) : Word :=
  off.extractLsb' 20 1 ++ off.extractLsb' 1 10 ++ off.extractLsb' 11 1 ++ off.extractLsb' 12 8 ++ rd ++ op

/-- The word of an instruction (R72, R73, R82). -/
def encode : Instr → Word
  | .lui rd imm => encodeU imm rd opLui
  | .auipc rd imm => encodeU imm rd opAuipc
  | .jal rd off => encodeJ off rd opJal
  | .jalr rd rs1 imm funct3 => encodeI imm rs1 funct3 rd opJalr
  | .beq rs1 rs2 off => encodeB off rs2 rs1 0b000#3 opBranch
  | .bne rs1 rs2 off => encodeB off rs2 rs1 0b001#3 opBranch
  | .blt rs1 rs2 off => encodeB off rs2 rs1 0b100#3 opBranch
  | .bge rs1 rs2 off => encodeB off rs2 rs1 0b101#3 opBranch
  | .bltu rs1 rs2 off => encodeB off rs2 rs1 0b110#3 opBranch
  | .bgeu rs1 rs2 off => encodeB off rs2 rs1 0b111#3 opBranch
  | .lb rd rs1 imm => encodeI imm rs1 0b000#3 rd opLoad
  | .lh rd rs1 imm => encodeI imm rs1 0b001#3 rd opLoad
  | .lw rd rs1 imm => encodeI imm rs1 0b010#3 rd opLoad
  | .lbu rd rs1 imm => encodeI imm rs1 0b100#3 rd opLoad
  | .lhu rd rs1 imm => encodeI imm rs1 0b101#3 rd opLoad
  | .lwu rd rs1 imm => encodeI imm rs1 0b110#3 rd opLoad
  | .sb rs1 rs2 imm => encodeS imm rs2 rs1 0b000#3 opStore
  | .sh rs1 rs2 imm => encodeS imm rs2 rs1 0b001#3 opStore
  | .sw rs1 rs2 imm => encodeS imm rs2 rs1 0b010#3 opStore
  | .addi rd rs1 imm => encodeI imm rs1 0b000#3 rd opImmediate
  | .slti rd rs1 imm => encodeI imm rs1 0b010#3 rd opImmediate
  | .sltiu rd rs1 imm => encodeI imm rs1 0b011#3 rd opImmediate
  | .xori rd rs1 imm => encodeI imm rs1 0b100#3 rd opImmediate
  | .ori rd rs1 imm => encodeI imm rs1 0b110#3 rd opImmediate
  | .andi rd rs1 imm => encodeI imm rs1 0b111#3 rd opImmediate
  | .slli rd rs1 shamt => encodeR 0b0000000#7 shamt rs1 0b001#3 rd opImmediate
  | .srli rd rs1 shamt => encodeR 0b0000000#7 shamt rs1 0b101#3 rd opImmediate
  | .srai rd rs1 shamt => encodeR 0b0100000#7 shamt rs1 0b101#3 rd opImmediate
  | .add rd rs1 rs2 => encodeR 0b0000000#7 rs2 rs1 0b000#3 rd opRegister
  | .sub rd rs1 rs2 => encodeR 0b0100000#7 rs2 rs1 0b000#3 rd opRegister
  | .sll rd rs1 rs2 => encodeR 0b0000000#7 rs2 rs1 0b001#3 rd opRegister
  | .slt rd rs1 rs2 => encodeR 0b0000000#7 rs2 rs1 0b010#3 rd opRegister
  | .sltu rd rs1 rs2 => encodeR 0b0000000#7 rs2 rs1 0b011#3 rd opRegister
  | .xor rd rs1 rs2 => encodeR 0b0000000#7 rs2 rs1 0b100#3 rd opRegister
  | .srl rd rs1 rs2 => encodeR 0b0000000#7 rs2 rs1 0b101#3 rd opRegister
  | .sra rd rs1 rs2 => encodeR 0b0100000#7 rs2 rs1 0b101#3 rd opRegister
  | .or rd rs1 rs2 => encodeR 0b0000000#7 rs2 rs1 0b110#3 rd opRegister
  | .and rd rs1 rs2 => encodeR 0b0000000#7 rs2 rs1 0b111#3 rd opRegister
  | .fence unexamined => unexamined ++ opFence
  | .ecall => 0x00000073#32
  | .ebreak => 0x00100073#32

/-- The bytes of an instruction in memory order (R53). -/
def encodeBytes (i : Instr) : List Byte := leBytes 4 (encode i)

/-- The `match` column of 30_encoding.md R82. -/
def Mnemonic.pattern : Mnemonic → Word
  | .LUI => 0x00000037#32
  | .AUIPC => 0x00000017#32
  | .JAL => 0x0000006F#32
  | .JALR => 0x00000067#32
  | .BEQ => 0x00000063#32
  | .BNE => 0x00001063#32
  | .BLT => 0x00004063#32
  | .BGE => 0x00005063#32
  | .BLTU => 0x00006063#32
  | .BGEU => 0x00007063#32
  | .LB => 0x00000003#32
  | .LH => 0x00001003#32
  | .LW => 0x00002003#32
  | .LBU => 0x00004003#32
  | .LHU => 0x00005003#32
  | .LWU => 0x00006003#32
  | .SB => 0x00000023#32
  | .SH => 0x00001023#32
  | .SW => 0x00002023#32
  | .ADDI => 0x00000013#32
  | .SLTI => 0x00002013#32
  | .SLTIU => 0x00003013#32
  | .XORI => 0x00004013#32
  | .ORI => 0x00006013#32
  | .ANDI => 0x00007013#32
  | .SLLI => 0x00001013#32
  | .SRLI => 0x00005013#32
  | .SRAI => 0x40005013#32
  | .ADD => 0x00000033#32
  | .SUB => 0x40000033#32
  | .SLL => 0x00001033#32
  | .SLT => 0x00002033#32
  | .SLTU => 0x00003033#32
  | .XOR => 0x00004033#32
  | .SRL => 0x00005033#32
  | .SRA => 0x40005033#32
  | .OR => 0x00006033#32
  | .AND => 0x00007033#32
  | .FENCE => 0x0000000F#32
  | .ECALL => 0x00000073#32
  | .EBREAK => 0x00100073#32

/-- The `mask` column of 30_encoding.md R82. -/
def Mnemonic.mask : Mnemonic → Word
  | .LUI | .AUIPC | .JAL | .JALR | .FENCE => 0x0000007F#32
  | .BEQ | .BNE | .BLT | .BGE | .BLTU | .BGEU | .LB | .LH | .LW | .LBU => 0x0000707F#32
  | .LHU | .LWU | .SB | .SH | .SW | .ADDI | .SLTI | .SLTIU | .XORI | .ORI => 0x0000707F#32
  | .ANDI => 0x0000707F#32
  | .SLLI | .SRLI | .SRAI | .ADD | .SUB | .SLL | .SLT | .SLTU | .XOR | .SRL => 0xFE00707F#32
  | .SRA | .OR | .AND => 0xFE00707F#32
  | .ECALL | .EBREAK => 0xFFFFFFFF#32

end Sys2Proof
end

