-- ==== Sys2Proof/Machine/State.lean ====
section
/-! DEFINITION. The state of the machine (10_state.md R10) as plain data, the ways it stops, and reset (R28).
The configuration parameters NREGS, HALT_ON_SERVICE and the bus's peripherals are fields that no step changes
(R27, log 1), so that one model covers every configuration of the spec. -/

namespace Sys2Proof.Machine

/-- The bytes of a memory device: (address, byte) pairs, addresses strictly rising, no entry holding `unlistedByte`. The cell of
buffer offset `off` stands under the address `base + off` that it represents (20_memory.md R44). -/
abbrev Memory := List Host.Cell

/-- A memory device: its two parameters and its one piece of state (20_memory.md R44). -/
structure MemoryDevice where
  base : Nat
  size : Nat
  buf  : Memory
  deriving DecidableEq, Repr

/-- A peripheral on the bus: the two kinds of 20_memory.md R30. -/
inductive Peripheral where
  | memory (d : MemoryDevice)
  | output (port : Word)
  deriving DecidableEq, Repr

/-- One output event `(port, n, bytes)` (10_state.md R21, 20_memory.md R52). -/
structure OutEvent where
  port  : Word
  n     : Nat
  bytes : List Byte
  deriving DecidableEq, Repr

/-- ECALL or EBREAK, the kind of a service event (10_state.md R21). -/
inductive SvcKind where
  | ecall
  | ebreak
  deriving DecidableEq, Repr

/-- One service event `(kind, A)` (10_state.md R21). -/
structure SvcEvent where
  kind : SvcKind
  addr : Word
  deriving DecidableEq, Repr

/-- Why a run ended normally (10_state.md R20, 60_exceptions.md R205). -/
inductive HaltReason where
  | zeroWord
  | pcZero
  | service
  deriving DecidableEq, Repr

/-- The fatal errors F1 to F7 with the value each records (60_exceptions.md R190). -/
inductive FatalError where
  /-- F1: no peripheral covers the address. -/
  | unmappedAddress (addr : Word)
  /-- F2: the access runs past the end of the memory device it starts in. -/
  | outOfRange (addr : Word)
  /-- F3: a register index at or beyond NREGS. -/
  | invalidRegister (i : RegIdx)
  /-- F4: a control-transfer target that is not a multiple of 4. -/
  | misalignedTarget (target : Word)
  /-- F5: `w[6:0]` is none of the eleven opcodes. -/
  | invalidOpcode (opcode : BitVec 7)
  /-- F6: funct fields that select nothing. -/
  | invalidFunct (opcode : BitVec 7) (funct3 : BitVec 3) (funct7 : BitVec 7)
  /-- F7: the funct3 of a LOAD or STORE that names no width, or the width in bits a peripheral was asked for. -/
  | invalidWidth (value : Nat)
  deriving DecidableEq, Repr

/-- The `status` component (10_state.md R20). -/
inductive Status where
  | running
  | halted (reason : HaltReason)
  | faulted (error : FatalError)
  deriving DecidableEq, Repr

/-- The state tuple of 10_state.md R10, with the fixed parameters of R27 that the step reads. -/
structure State where
  /-- NREGS (R11), fixed at launch. -/
  nregs         : RegCount
  /-- HALT_ON_SERVICE (00_scope.md R5), fixed at launch. -/
  haltOnService : Bool
  /-- The bus's ordered list of peripherals (20_memory.md R33), fixed at launch but for the `buf` of each memory device. -/
  bus           : List Peripheral
  /-- `x[1] .. x[31]`, x[i] at position i - 1; x[0] has no storage, and an index at or beyond NREGS is never accessed. -/
  regs          : Vector Word 31
  /-- The program counter (R16). -/
  pc            : Word
  /-- The output events (R21), oldest first. -/
  out           : List OutEvent
  /-- The service events (R21), oldest first. -/
  svc           : List SvcEvent
  /-- RUNNING, HALTED or FAULTED (R20). -/
  status        : Status
  deriving DecidableEq, Repr

/-- What a step asked of a stopped machine answers. The raise of a fatal error is itself a NEXT state with status
`faulted` (60_exceptions.md R192); R19: "A step is defined only when status = RUNNING". Only `step` raises these, never a meaning. -/
inductive Fault where
  /-- The machine is HALTED: the run is complete (R205), there is no further step. Raised by `step`; safe. -/
  | machineHalted (reason : HaltReason)
  /-- The machine is FAULTED: a fatal error was raised (R192), there is no further step. Raised by `step`; safe. -/
  | machineFaulted (error : FatalError)
  deriving DecidableEq, Repr

/-- Why an instruction has no meaning. -/
inductive Refusal where
  /-- The instruction's arm of `exec` has no meaning yet. No arm raises it: all 41 instructions are modelled. Safe. -/
  | notModelled (mnemonic : String)
  deriving DecidableEq, Repr

/-- What a step or a meaning answers. -/
abbrev Result := Host.Outcome State Fault Refusal

/-- A peripheral as built by the host: a fresh memory device has every byte 0x00 (R28 with decision D4, log 2). -/
def Peripheral.ofParams : PeripheralParams → Peripheral
  | .memory base size => .memory { base := base, size := size, buf := [] }
  | .output port => .output port

/-- The machine as constructed for a configuration (70_reset_and_hazards.md R220, R222 steps 1 to 3): R28's reset values. -/
def State.construct (cfg : Config) : State where
  nregs := cfg.nregs
  haltOnService := cfg.haltOnService
  bus := cfg.bus.map Peripheral.ofParams
  regs := Vector.replicate 31 0#32
  pc := 0#32
  out := []
  svc := []
  status := .running

/-- The machine right after reset (R28), in the reference configuration REF (20_memory.md R58, log 1), no program installed. -/
def State.reset : State := State.construct Config.ref

end Sys2Proof.Machine
end

