-- ==== Sys2Proof/Machine/Memory.lean ====
section
/-! DEFINITION. The cells of a memory device's buffer (20_memory.md R44): reading and writing one byte and runs of bytes, in one
canonical form, so that equal buffers are equal lists. -/

namespace Sys2Proof.Machine

/-- What an address with no entry reads as: "every byte 0x00" at reset (10_state.md R28, decision D4, log 2). -/
def unlistedByte : Byte := 0x00#8

/-- The byte under an address. -/
def Memory.read : Memory → Nat → Byte
  | [], _ => unlistedByte
  | (k, b) :: m, a => if k = a then b else Memory.read m a

/-- Put a byte under an address; the value an unlisted address reads as removes the entry. -/
def Memory.write : Memory → Nat → Byte → Memory
  | [], a, b => if b = unlistedByte then [] else [(a, b)]
  | (k, c) :: m, a, b =>
    if a < k then (if b = unlistedByte then (k, c) :: m else (a, b) :: (k, c) :: m)
    else if a = k then (if b = unlistedByte then m else (a, b) :: m)
    else (k, c) :: Memory.write m a b

/-- Every address of the list is above `lo`, they rise strictly, and no entry holds `unlistedByte`. -/
def Memory.wfAbove : Nat → Memory → Bool
  | _, [] => true
  | lo, (k, b) :: m => decide (lo ≤ k) && decide (b ≠ unlistedByte) && Memory.wfAbove (k + 1) m

/-- The canonical form. -/
def Memory.wf (m : Memory) : Bool := Memory.wfAbove 0 m

/-- `n` bytes from an address up. -/
def Memory.readBytes (m : Memory) (a : Nat) : Nat → List Byte
  | 0 => []
  | n + 1 => m.read a :: Memory.readBytes m (a + 1) n

/-- A run of bytes from an address up, the first byte at the lowest address. -/
def Memory.writeBytes : Memory → Nat → List Byte → Memory
  | m, _, [] => m
  | m, a, b :: bs => Memory.writeBytes (m.write a b) (a + 1) bs

end Sys2Proof.Machine
end

