-- ==== Sys2Proof/Machine/Bus.lean ====
section
/-! DEFINITION. The peripherals and the bus (20_memory.md): coverage, load and store of the two devices, first-match routing,
and `MemRead` and `MemWrite`, through which every fetch, load and store goes (R30). -/

namespace Sys2Proof.Machine

/-- R32: the widths a peripheral accepts, in bytes. -/
def validWidth (n : Nat) : Bool := decide (n = 1) || decide (n = 2) || decide (n = 4)

/-! ### The memory device -/

/-- R44: `base <= unsigned(a) < base + size`, on unbounded integers. -/
def MemoryDevice.covers (d : MemoryDevice) (a : Word) : Bool :=
  decide (d.base ≤ a.toNat) && decide (a.toNat < d.base + d.size)

/-- R45, R46: the bounds check `off < 0 or off + n > size`, with `off = unsigned(a) - base` (D7, log 8). -/
def MemoryDevice.outside (d : MemoryDevice) (a : Word) (n : Nat) : Bool :=
  decide ((a.toNat : Int) - d.base < 0) || decide ((a.toNat : Int) - d.base + n > d.size)

/-- R45: memory load, the unsigned little-endian value; R32 for another width (log 21). -/
def MemoryDevice.load (d : MemoryDevice) (a : Word) (n : Nat) : Except FatalError Word :=
  if validWidth n = false then .error (.invalidWidth (8 * n))
  else if d.outside a n then .error (.outOfRange a)
  else .ok (leWord (d.buf.readBytes a.toNat n))

/-- R46: memory store of the `n` low bytes of `v`; the check precedes the writes. -/
def MemoryDevice.store (d : MemoryDevice) (a : Word) (n : Nat) (v : Word) : Except FatalError MemoryDevice :=
  if validWidth n = false then .error (.invalidWidth (8 * n))
  else if d.outside a n then .error (.outOfRange a)
  else .ok { d with buf := d.buf.writeBytes a.toNat (leBytes n v) }

/-- R48: bulk initialisation, the buffer's prefix is overwritten; a host action before the first step. -/
def MemoryDevice.install (d : MemoryDevice) (image : List Byte) : MemoryDevice :=
  { d with buf := d.buf.writeBytes d.base image }

/-! ### The output device -/

/-- R51: a load from the port gives 0 whatever the width, and does nothing else. -/
def outputLoad (n : Nat) : Except FatalError Word :=
  if validWidth n = false then .error (.invalidWidth (8 * n)) else .ok 0#32

/-- R52: a store to the port is one event, bytes least significant first. -/
def outputStore (port : Word) (n : Nat) (v : Word) : Except FatalError (List OutEvent) :=
  if validWidth n = false then .error (.invalidWidth (8 * n))
  else .ok [{ port := port, n := n, bytes := leBytes n v }]

/-! ### The peripheral contract (R31) -/

/-- R44, R50: an output device covers exactly its port (C3, D9, log 10). -/
def Peripheral.covers : Peripheral → Word → Bool
  | .memory d, a => d.covers a
  | .output port, a => decide (a = port)

def Peripheral.load : Peripheral → Word → Nat → Except FatalError Word
  | .memory d, a, n => d.load a n
  | .output _, _, n => outputLoad n

/-- A store gives the peripheral after it and the events it emits. -/
def Peripheral.store : Peripheral → Word → Nat → Word → Except FatalError (Peripheral × List OutEvent)
  | .memory d, a, n, v =>
    match d.store a n v with
    | .error e => .error e
    | .ok d' => .ok (.memory d', [])
  | .output port, _, n, v =>
    match outputStore port n v with
    | .error e => .error e
    | .ok evs => .ok (.output port, evs)

/-! ### The bus -/

/-- R33: `add` appends; used only while the machine is built. -/
def busAdd (bus : List Peripheral) (p : Peripheral) : List Peripheral := bus ++ [p]

/-- R33: the first peripheral whose `covers` is true, or none. -/
def locate (bus : List Peripheral) (a : Word) : Option Peripheral := bus.find? (fun p => p.covers a)

/-- The bus with `p'` in the place of the first peripheral that covers `a`. -/
def replaceFirst : List Peripheral → Word → Peripheral → List Peripheral
  | [], _, _ => []
  | p :: ps, a, p' => if p.covers a then p' :: ps else p :: replaceFirst ps a p'

/-- R40: `MemRead(addr, n)`, routed by the access's first address only (R35). -/
def memRead (s : State) (a : Word) (n : Nat) : Except FatalError Word :=
  match locate s.bus a with
  | none => .error (.unmappedAddress a)
  | some p => p.load a n

/-- R41: `MemWrite(addr, n, v)`; the events of an output device go to `out` (R52). -/
def memWrite (s : State) (a : Word) (n : Nat) (v : Word) : Except FatalError State :=
  match locate s.bus a with
  | none => .error (.unmappedAddress a)
  | some p =>
    match p.store a n v with
    | .error e => .error e
    | .ok (p', evs) => .ok { s with bus := replaceFirst s.bus a p', out := s.out ++ evs }

end Sys2Proof.Machine
end

