-- ==== Sys2Proof/Machine/Ops.lean ====
section
/-! DEFINITION. The named operations every meaning is built from: the register file (10_state.md R12 to R14), the pc (R16, R17),
raising a fatal error (60_exceptions.md R192), halting (R205), and the sequencing of an instruction's actions, in which the first
action that fails raises and the later ones are not attempted (R195).
There is no trap entry beyond the raise and no return from it: FAULTED is terminal (R202, R203). -/

namespace Sys2Proof.Machine

/-! ### Registers -/

/-- The stored word of a register, 0 for x0, with no check of NREGS. -/
def State.reg (s : State) (i : RegIdx) : Word :=
  if i = 0#5 then 0#32 else s.regs.getD (i.toNat - 1) 0#32

/-- The stored word of a register becomes `v`; x0 has none. -/
def State.setReg (s : State) (i : RegIdx) (v : Word) : State :=
  if i = 0#5 then s else { s with regs := s.regs.setIfInBounds (i.toNat - 1) v }

/-- The register file has this index: 0 is "always valid", else it is below NREGS (R12). -/
def State.hasReg (s : State) (i : RegIdx) : Bool :=
  decide (i = 0#5) || decide (i.toNat < s.nregs.count)

/-- R12: register read `x[i]`. -/
def State.readReg (s : State) (i : RegIdx) : Except FatalError Word :=
  if i = 0#5 then .ok 0#32
  else if i.toNat ≥ s.nregs.count then .error (.invalidRegister i)
  else .ok (s.reg i)

/-- R13: register write `x[i] <- v`. -/
def State.writeReg (s : State) (i : RegIdx) (v : Word) : Except FatalError State :=
  if i = 0#5 then .ok s
  else if i.toNat ≥ s.nregs.count then .error (.invalidRegister i)
  else .ok (s.setReg i v)

/-- R14: `get(index, signed)`, the stored bits as an integer. -/
def State.regGet (s : State) (i : RegIdx) (signed : Bool) : Except FatalError Int :=
  match s.readReg i with
  | .error e => .error e
  | .ok v => .ok (if signed then v.toInt else v.toNat)

/-- R14: `set(index, signed, value)`, a write of an integer stores it modulo 2^32. -/
def State.regSet (s : State) (i : RegIdx) (k : Int) : Except FatalError State :=
  s.writeReg i (BitVec.ofInt 32 k)

/-! ### The pc, the status, the event sequences -/

/-- R16: `pc <- t`. -/
def State.setPc (s : State) (t : Word) : State := { s with pc := t }

/-- R17: the address `A` of the instruction being executed, `pc - 4`. -/
def State.instrAddr (s : State) : Word := s.pc - 4#32

/-- R192: `raise K(info)`, `status <- FAULTED(K, info)`; what was written before stays (R193). -/
def State.raise (s : State) (e : FatalError) : State := { s with status := .faulted e }

/-- R205: `status <- HALTED(reason)`. -/
def State.halt (s : State) (r : HaltReason) : State := { s with status := .halted r }

/-- R182, R183: `svc <- svc ++ [ (kind, A) ]`. -/
def State.pushSvc (s : State) (k : SvcKind) : State :=
  { s with svc := s.svc ++ [{ kind := k, addr := s.instrAddr }] }

/-- The fatal error of a decode error (60_exceptions.md R190 F5 to F7). -/
def fatalOf : DecodeError → FatalError
  | .invalidOpcode op => .invalidOpcode op
  | .invalidFunct op f3 f7 => .invalidFunct op f3 f7
  | .invalidWidth f3 => .invalidWidth f3.toNat

/-! ### Sequencing (R195) -/

/-- The instruction ends here with a fatal error. -/
def fail (s : State) (e : FatalError) : Result := .next (s.raise e)

/-- `x[i]`, then the rest. -/
def withReg (s : State) (i : RegIdx) (k : Word → Result) : Result :=
  match s.readReg i with
  | .error e => fail s e
  | .ok v => k v

/-- `x[i] <- v`, then the rest. -/
def thenWrite (s : State) (i : RegIdx) (v : Word) (k : State → Result) : Result :=
  match s.writeReg i v with
  | .error e => fail s e
  | .ok s' => k s'

/-- `x[i] <- v`, the last action. -/
def writeBack (s : State) (i : RegIdx) (v : Word) : Result := thenWrite s i v .next

/-- `MemRead(a, n)`, then the rest. -/
def withLoad (s : State) (a : Word) (n : Nat) (k : Word → Result) : Result :=
  match memRead s a n with
  | .error e => fail s e
  | .ok v => k v

/-- `MemWrite(a, n, v)`, the last action. -/
def storeLast (s : State) (a : Word) (n : Nat) (v : Word) : Result :=
  match memWrite s a n v with
  | .error e => fail s e
  | .ok s' => .next s'

/-- 41_jumps.md R112: check the final target, then `pc <- t`. -/
def jumpTo (s : State) (t : Word) : Result :=
  if t.extractLsb' 0 2 ≠ 0b00#2 then fail s (.misalignedTarget t) else .next (s.setPc t)

end Sys2Proof.Machine
end

