-- ==== Sys2Proof/Machine/Operands.lean ====
section
/-! DEFINITION. The operand forms: immediates as 32-bit values (30_encoding.md R74 to R79), the one addressing mode, pc-relative
values, and shift amounts. All sums are modulo 2^32 (00_scope.md R6, D8, log 6). -/

namespace Sys2Proof.Machine

/-- R74, R75: the sign-extended 12-bit immediate. -/
def sext12 (imm : BitVec 12) : Word := imm.signExtend 32

/-- R76: the sign-extended branch offset. -/
def sext13 (off : BitVec 13) : Word := off.signExtend 32

/-- R78: the sign-extended JAL offset. -/
def sext21 (off : BitVec 21) : Word := off.signExtend 32

/-- R77: `w[31:12] ++ 0^12`. -/
def upper20 (imm : BitVec 20) : Word := imm ++ 0#12

/-- R137, R144: base register plus sign-extended displacement. -/
def effAddr (base : Word) (imm : BitVec 12) : Word := base + sext12 imm

/-- R110: the target `A + immJ`. -/
def jalTarget (s : State) (off : BitVec 21) : Word := s.instrAddr + sext21 off

/-- R111: `(base + immI) & 0xFFFFFFFE`. -/
def jalrTarget (base : Word) (imm : BitVec 12) : Word := (base + sext12 imm) &&& 0xFFFFFFFE#32

/-- R120: the target `A + immB`. -/
def branchTarget (s : State) (off : BitVec 13) : Word := s.instrAddr + sext13 off

/-- R110, R111: the link `A + 4` (C2). -/
def linkAddr (s : State) : Word := s.instrAddr + 4#32

/-- R175: the shift amount `b[4:0]` of a register shift (D24, log 12). -/
def shiftAmount (b : Word) : BitVec 5 := b.extractLsb' 0 5

/-- 00_scope.md R7: `sext_8`, `sext_16` of a loaded value. -/
def sextLow (n : Nat) (v : Word) : Word := (v.setWidth n).signExtend 32

/-- 00_scope.md R7: `zext_8`, `zext_16`, `zext_32` of a loaded value. -/
def zextLow (n : Nat) (v : Word) : Word := (v.setWidth n).setWidth 32

end Sys2Proof.Machine
end

