-- ==== Sys2Proof/Machine/Flags.lean ====
section
/-! DEFINITION. The machine has no flags (10_state.md R22): "comparisons write 0 or 1 to a general register (SLT family) or decide
a branch directly". What stands here is every condition the spec computes (00_scope.md R7, 42_branches.md R121 to R126) and the
0-or-1 word of the set instructions (45_immediate_alu.md R160). -/

namespace Sys2Proof.Machine

/-- `a <s b`. -/
def ltSigned (a b : Word) : Bool := decide (a.toInt < b.toInt)

/-- `a <u b`. -/
def ltUnsigned (a b : Word) : Bool := decide (a.toNat < b.toNat)

def condEq (a b : Word) : Bool := decide (a = b)
def condNe (a b : Word) : Bool := !decide (a = b)
def condLt (a b : Word) : Bool := ltSigned a b
def condGe (a b : Word) : Bool := !ltSigned a b
def condLtu (a b : Word) : Bool := ltUnsigned a b
def condGeu (a b : Word) : Bool := !ltUnsigned a b

/-- R160: comparisons produce exactly 0x00000000 or 0x00000001. -/
def setWord (c : Bool) : Word := if c then 0x00000001#32 else 0x00000000#32

end Sys2Proof.Machine
end

