-- ==== Sys2Proof/Machine/Branch.lean ====
section
/-! DEFINITION. The six conditional branches (42_branches.md): register values are compared, never indices. -/

namespace Sys2Proof.Machine

/-- R120: both sources are read whether or not the branch is taken; the target is checked only when it is (D16, log 16). -/
def branchOp (cond : Word → Word → Bool) (rs1 rs2 : RegIdx) (off : BitVec 13) (s : State) : Result :=
  withReg s rs1 fun a => withReg s rs2 fun b => if cond a b then jumpTo s (branchTarget s off) else .next s

/-- R121: `a = b`. -/
def execBeq (rs1 rs2 : RegIdx) (off : BitVec 13) (s : State) : Result := branchOp condEq rs1 rs2 off s

/-- R122: `a != b`. -/
def execBne (rs1 rs2 : RegIdx) (off : BitVec 13) (s : State) : Result := branchOp condNe rs1 rs2 off s

/-- R123: `signed(a) < signed(b)`. -/
def execBlt (rs1 rs2 : RegIdx) (off : BitVec 13) (s : State) : Result := branchOp condLt rs1 rs2 off s

/-- R124: `signed(a) >= signed(b)`. -/
def execBge (rs1 rs2 : RegIdx) (off : BitVec 13) (s : State) : Result := branchOp condGe rs1 rs2 off s

/-- R125: `unsigned(a) < unsigned(b)`. -/
def execBltu (rs1 rs2 : RegIdx) (off : BitVec 13) (s : State) : Result := branchOp condLtu rs1 rs2 off s

/-- R126: `unsigned(a) >= unsigned(b)`. -/
def execBgeu (rs1 rs2 : RegIdx) (off : BitVec 13) (s : State) : Result := branchOp condGeu rs1 rs2 off s

end Sys2Proof.Machine
end

