-- ==== Sys2Proof/Machine/ImmAlu.lean ====
section
/-! DEFINITION. The nine register-immediate operations (45_immediate_alu.md). No arithmetic condition raises an error (R160). -/

namespace Sys2Proof.Machine

/-- R159: `x[rd] <- f(x[rs1])`, the source read first. -/
def immOp (f : Word → Word) (rd rs1 : RegIdx) (s : State) : Result :=
  withReg s rs1 fun a => writeBack s rd (f a)

/-- R150: `a + immI` modulo 2^32. -/
def execAddi (rd rs1 : RegIdx) (imm : BitVec 12) (s : State) : Result := immOp (fun a => a + sext12 imm) rd rs1 s

/-- R151. -/
def execSlti (rd rs1 : RegIdx) (imm : BitVec 12) (s : State) : Result := immOp (fun a => setWord (ltSigned a (sext12 imm))) rd rs1 s

/-- R152: the sign-extended immediate taken as unsigned (D23). -/
def execSltiu (rd rs1 : RegIdx) (imm : BitVec 12) (s : State) : Result := immOp (fun a => setWord (ltUnsigned a (sext12 imm))) rd rs1 s

/-- R153. -/
def execXori (rd rs1 : RegIdx) (imm : BitVec 12) (s : State) : Result := immOp (fun a => a ^^^ sext12 imm) rd rs1 s

/-- R154. -/
def execOri (rd rs1 : RegIdx) (imm : BitVec 12) (s : State) : Result := immOp (fun a => a ||| sext12 imm) rd rs1 s

/-- R155. -/
def execAndi (rd rs1 : RegIdx) (imm : BitVec 12) (s : State) : Result := immOp (fun a => a &&& sext12 imm) rd rs1 s

/-- R156. -/
def execSlli (rd rs1 : RegIdx) (shamt : BitVec 5) (s : State) : Result := immOp (fun a => a <<< shamt.toNat) rd rs1 s

/-- R157. -/
def execSrli (rd rs1 : RegIdx) (shamt : BitVec 5) (s : State) : Result := immOp (fun a => a >>> shamt.toNat) rd rs1 s

/-- R158. -/
def execSrai (rd rs1 : RegIdx) (shamt : BitVec 5) (s : State) : Result := immOp (fun a => a.sshiftRight shamt.toNat) rd rs1 s

end Sys2Proof.Machine
end

