-- ==== Sys2Proof/Machine/Jump.lean ====
section
/-! DEFINITION. JAL and JALR (41_jumps.md). The link is written before the target is checked (D11, log 5). -/

namespace Sys2Proof.Machine

/-- R110. -/
def execJal (rd : RegIdx) (off : BitVec 21) (s : State) : Result :=
  thenWrite s rd (linkAddr s) fun s' => jumpTo s' (jalTarget s off)

/-- R111: the base is read before rd is written (D29). -/
def execJalr (rd rs1 : RegIdx) (imm : BitVec 12) (s : State) : Result :=
  withReg s rs1 fun base => thenWrite s rd (linkAddr s) fun s' => jumpTo s' (jalrTarget base imm)

end Sys2Proof.Machine
end

