-- ==== Sys2Proof/Machine/Load.lean ====
section
/-! DEFINITION. The six loads (43_loads.md). No alignment is required (D6, log 7); the access comes before the write of rd (R195). -/

namespace Sys2Proof.Machine

/-- R137: read the base, load `n` bytes, extend, write rd. -/
def loadOp (n : Nat) (ext : Word → Word) (rd rs1 : RegIdx) (imm : BitVec 12) (s : State) : Result :=
  withReg s rs1 fun base => withLoad s (effAddr base imm) n fun v => writeBack s rd (ext v)

/-- R130: one byte, sign-extended. -/
def execLb (rd rs1 : RegIdx) (imm : BitVec 12) (s : State) : Result := loadOp 1 (sextLow 8) rd rs1 imm s

/-- R131: two bytes, sign-extended. -/
def execLh (rd rs1 : RegIdx) (imm : BitVec 12) (s : State) : Result := loadOp 2 (sextLow 16) rd rs1 imm s

/-- R132: four bytes. -/
def execLw (rd rs1 : RegIdx) (imm : BitVec 12) (s : State) : Result := loadOp 4 (zextLow 32) rd rs1 imm s

/-- R133: one byte, zero-extended. -/
def execLbu (rd rs1 : RegIdx) (imm : BitVec 12) (s : State) : Result := loadOp 1 (zextLow 8) rd rs1 imm s

/-- R134: two bytes, zero-extended. -/
def execLhu (rd rs1 : RegIdx) (imm : BitVec 12) (s : State) : Result := loadOp 2 (zextLow 16) rd rs1 imm s

/-- R135: four bytes; does exactly what LW does (C9). -/
def execLwu (rd rs1 : RegIdx) (imm : BitVec 12) (s : State) : Result := loadOp 4 (zextLow 32) rd rs1 imm s

end Sys2Proof.Machine
end

