-- ==== Sys2Proof/Machine/RegAlu.lean ====
section
/-! DEFINITION. The ten register-register operations (46_register_alu.md); shifts use `b[4:0]` (D24). -/

namespace Sys2Proof.Machine

/-- R175: `x[rd] <- f(x[rs1], x[rs2])`, both sources read before the destination is written. -/
def regOp (f : Word → Word → Word) (rd rs1 rs2 : RegIdx) (s : State) : Result :=
  withReg s rs1 fun a => withReg s rs2 fun b => writeBack s rd (f a b)

/-- R165. -/
def execAdd (rd rs1 rs2 : RegIdx) (s : State) : Result := regOp (fun a b => a + b) rd rs1 rs2 s

/-- R166. -/
def execSub (rd rs1 rs2 : RegIdx) (s : State) : Result := regOp (fun a b => a - b) rd rs1 rs2 s

/-- R167. -/
def execSll (rd rs1 rs2 : RegIdx) (s : State) : Result := regOp (fun a b => a <<< (shiftAmount b).toNat) rd rs1 rs2 s

/-- R168. -/
def execSlt (rd rs1 rs2 : RegIdx) (s : State) : Result := regOp (fun a b => setWord (ltSigned a b)) rd rs1 rs2 s

/-- R169. -/
def execSltu (rd rs1 rs2 : RegIdx) (s : State) : Result := regOp (fun a b => setWord (ltUnsigned a b)) rd rs1 rs2 s

/-- R170. -/
def execXor (rd rs1 rs2 : RegIdx) (s : State) : Result := regOp (fun a b => a ^^^ b) rd rs1 rs2 s

/-- R171. -/
def execSrl (rd rs1 rs2 : RegIdx) (s : State) : Result := regOp (fun a b => a >>> (shiftAmount b).toNat) rd rs1 rs2 s

/-- R172. -/
def execSra (rd rs1 rs2 : RegIdx) (s : State) : Result := regOp (fun a b => a.sshiftRight (shiftAmount b).toNat) rd rs1 rs2 s

/-- R173. -/
def execOr (rd rs1 rs2 : RegIdx) (s : State) : Result := regOp (fun a b => a ||| b) rd rs1 rs2 s

/-- R174. -/
def execAnd (rd rs1 rs2 : RegIdx) (s : State) : Result := regOp (fun a b => a &&& b) rd rs1 rs2 s

end Sys2Proof.Machine
end

