-- ==== Sys2Proof/Machine/Service.lean ====
section
/-! DEFINITION. FENCE, ECALL and EBREAK (47_fence_service.md). -/

namespace Sys2Proof.Machine

/-- R181: nothing. No field is examined (D12, log 13). -/
def execFence (s : State) : Result := .next s

/-- R182: one event in svc; no register is consulted, nothing traps (D18, log 18). -/
def execEcall (s : State) : Result := .next (s.pushSvc .ecall)

/-- R183: as ECALL. -/
def execEbreak (s : State) : Result := .next (s.pushSvc .ebreak)

end Sys2Proof.Machine
end

