-- ==== Sys2Proof/Machine/Store.lean ====
section
/-! DEFINITION. The three stores (44_stores.md). No alignment is required (D6, log 7). -/

namespace Sys2Proof.Machine

/-- R144: read the base, read the value, store its `n` low bytes. -/
def storeOp (n : Nat) (rs1 rs2 : RegIdx) (imm : BitVec 12) (s : State) : Result :=
  withReg s rs1 fun base => withReg s rs2 fun val => storeLast s (effAddr base imm) n val

/-- R140. -/
def execSb (rs1 rs2 : RegIdx) (imm : BitVec 12) (s : State) : Result := storeOp 1 rs1 rs2 imm s

/-- R141. -/
def execSh (rs1 rs2 : RegIdx) (imm : BitVec 12) (s : State) : Result := storeOp 2 rs1 rs2 imm s

/-- R142. -/
def execSw (rs1 rs2 : RegIdx) (imm : BitVec 12) (s : State) : Result := storeOp 4 rs1 rs2 imm s

end Sys2Proof.Machine
end

