-- ==== Sys2Proof/Machine/Upper.lean ====
section
/-! DEFINITION. LUI and AUIPC (40_upper_immediate.md). The pc is `A + 4` on entry (10_state.md R17). -/

namespace Sys2Proof.Machine

/-- R100: `x[rd] <- immU`. -/
def execLui (rd : RegIdx) (imm : BitVec 20) (s : State) : Result :=
  writeBack s rd (upper20 imm)

/-- R101: `x[rd] <- A + immU`. -/
def execAuipc (rd : RegIdx) (imm : BitVec 20) (s : State) : Result :=
  writeBack s rd (s.instrAddr + upper20 imm)

end Sys2Proof.Machine
end

