-- ==== Sys2Proof/Machine/Cycle.lean ====
section
/-! DEFINITION. One step of a RUNNING machine (10_state.md R19): fetch, the zero-word test, the advance, decode, execute, the halt
tests; and how a program word is placed where the next fetch is (for `withFetchWord`). -/

namespace Sys2Proof.Machine

/-- R18: the instruction word, `MemRead(A, 4)`. -/
def fetch (s : State) : Except FatalError Word := memRead s s.pc 4

/-- R19, R205: `HALT_ON_SERVICE and w is ECALL or EBREAK`. -/
def serviceHalts (i : Instr) (s : State) : Bool :=
  s.haltOnService && (decide (i = .ecall) || decide (i = .ebreak))

/-- R19: the halt tests, made only when the instruction completed without error (R192). -/
def haltTests (i : Instr) (s : State) : State :=
  match s.status with
  | .running =>
    if serviceHalts i s then s.halt .service
    else if s.pc = 0#32 then s.halt .pcZero
    else s
  | .halted _ => s
  | .faulted _ => s

/-- The halt tests after an executed instruction. -/
def finish (i : Instr) : Result → Result
  | .next s => .next (haltTests i s)
  | .fault f => .fault f
  | .refused r => .refused r

/-- R19 after the zero-word test: `pc <- A + 4`, decode, execute, halt tests. -/
def runWord (w : Word) (s : State) : Result :=
  let s' := s.setPc (s.pc + 4#32)
  match decode w with
  | .error e => fail s' (fatalOf e)
  | .ok i => finish i (exec i s')

/-- R19: the step of a RUNNING machine. A fetch error leaves the pc at A (R197); so does the zero word (D17, log 17). -/
def cycle (s : State) : Result :=
  match fetch s with
  | .error e => fail s e
  | .ok w => if w = 0x00000000#32 then .next (s.halt .zeroWord) else runWord w s

/-- A memory device with a word's bytes placed at an address, where all four lie inside it, as by an image install
(20_memory.md R48); any other peripheral as it is. -/
def Peripheral.placeWord : Peripheral → Word → Word → Peripheral
  | .memory d, a, w =>
    match d.store a 4 w with
    | .error _ => .memory d
    | .ok d' => .memory d'
  | .output port, _, _ => .output port

/-- The word placed where the next fetch reads: in the peripheral that the bus routes the pc to. A pc that no peripheral covers has
nowhere to hold a word, and the state stays as it is. -/
def placeAtPc (s : State) (w : Word) : State :=
  match locate s.bus s.pc with
  | none => s
  | some p => { s with bus := replaceFirst s.bus s.pc (p.placeWord s.pc w) }

end Sys2Proof.Machine
end

