-- ==== Sys2Proof/Machine/Step.lean ====
section
/-! DEFINITION. The machine's step (10_state.md R19) and the placing of an instruction for the next fetch. -/

namespace Sys2Proof.Machine

/-- R19: "A step is defined only when status = RUNNING"; HALTED and FAULTED are terminal (60_exceptions.md R192, R205, log 4). -/
def step (s : State) : Host.Outcome State Fault Refusal :=
  match s.status with
  | .running => cycle s
  | .halted r => .fault (.machineHalted r)
  | .faulted e => .fault (.machineFaulted e)

/-- `s` with the instruction word `w` (bits above `nbits` zero) in the memory device that the next fetch reads, at the pc: what the
host's installation of a program does for one word (log 19). Where the pc is not in a memory device nothing can be placed. -/
def State.withFetchWord (s : State) (nbits w : Nat) : State := placeAtPc s (tableWord nbits w)

end Sys2Proof.Machine
end

