-- ==== Sys2Proof/Machine/Launch.lean ====
section
/-! DEFINITION. The host's launch (70_reset_and_hazards.md R222): construct, add the peripherals, install the image in the ROM
device, preset the stack pointer. It happens before the first step and never after. -/

namespace Sys2Proof.Machine

/-- Install the image in the memory device at position `k` of the bus, when there is one and the image fits: "A launch with
`len(img) > size` is not admitted" (20_memory.md R48, D21, log 19). -/
def installImage : List Peripheral → Nat → List Byte → Option (List Peripheral)
  | .memory d :: ps, 0, img => if img.length ≤ d.size then some (.memory (d.install img) :: ps) else none
  | .output _ :: _, 0, _ => none
  | [], _, _ => none
  | p :: ps, k + 1, img => (installImage ps k img).map (p :: ·)

/-- R222 step 5: `INIT_SP`, when present, is written to x[2] (D20). -/
def presetSp (s : State) : Option Word → State
  | none => s
  | some v => s.setReg 2#5 v

/-- R222: the launch state of a configuration, or none where the launch is refused (D21, D25, log 19). -/
def State.launch (cfg : Config) : Option State :=
  if cfg.bus.all PeripheralParams.wf then
    match installImage (State.construct cfg).bus cfg.rom cfg.image with
    | none => none
    | some bus => some (presetSp { State.construct cfg with bus := bus } cfg.initSp)
  else none

end Sys2Proof.Machine
end

