-- ==== Sys2Proof/Safety.lean ====
section
/-! DEFINITION. What counts as a well-formed state and as a safe run, in the terms claims use. "A model must treat FAULTED as never
final: a claim about a program's result must have 'no fault' among its conclusions or premises" (60_exceptions.md R192). -/

namespace Sys2Proof.Machine

/-! ### Well-formed pieces of the state -/

/-- 00_scope.md R5, D25: legal parameters; the buffer in canonical form, with no byte outside the device's range (20_memory.md R44). -/
def MemoryDevice.wf (d : MemoryDevice) : Bool :=
  decide (1 ≤ d.size) && decide (d.base + d.size ≤ 2 ^ 32) && d.buf.wf &&
    d.buf.all (fun c => decide (d.base ≤ c.1) && decide (c.1 < d.base + d.size))

def Peripheral.wf : Peripheral → Bool
  | .memory d => d.wf
  | .output _ => true

/-- 20_memory.md R52: an event has 1, 2 or 4 bytes and says so. -/
def OutEvent.wf (e : OutEvent) : Bool := validWidth e.n && decide (e.bytes.length = e.n)

/-- "a multiple of 4". -/
def aligned4 (a : Word) : Bool := decide (a.toNat % 4 = 0)

/-- 10_state.md R11: with NREGS = 16 there is no x16 to x31; their slots stay as they were built. -/
def State.absentRegsZero (s : State) : Bool :=
  (List.range 31).all (fun k => decide (k + 1 < s.nregs.count) || decide (s.regs.getD k 0#32 = 0#32))

/-- 60_exceptions.md R205, R190: what a stopped machine's status says of the rest of the state. -/
def State.statusOk (s : State) : Bool :=
  match s.status with
  | .running => true
  | .halted .zeroWord => true
  | .halted .pcZero => decide (s.pc = 0#32)
  | .halted .service => s.haltOnService && !s.svc.isEmpty
  | .faulted (.invalidRegister i) => decide (s.nregs.count ≤ i.toNat) && decide (i ≠ 0#5)
  | .faulted (.misalignedTarget t) => !aligned4 t
  | .faulted (.invalidWidth v) => decide (v < 8)
  | .faulted (.unmappedAddress _) => true
  | .faulted (.outOfRange _) => true
  | .faulted (.invalidOpcode _) => true
  | .faulted (.invalidFunct ..) => true

/-- The bus is as a launch can build it and the stores can leave it. -/
def State.busWf (s : State) : Bool := s.bus.all Peripheral.wf

/-- The invariant: the pc is a multiple of 4 (10_state.md R29), every device is legal and its buffer canonical, absent registers are
untouched, every recorded event is well formed and every service event stands at an instruction's address, and a stopped
machine's status agrees with the rest. -/
def State.inv (s : State) : Bool :=
  aligned4 s.pc && s.busWf && s.absentRegsZero && s.out.all OutEvent.wf && s.svc.all (fun e => aligned4 e.addr) && s.statusOk

/-! ### Runs -/

/-- `t` is reached from `s` by steps. -/
inductive Reachable (s : State) : State → Prop where
  | refl : Reachable s s
  | step {t u : State} : Reachable s t → Machine.step t = .next u → Reachable s u

/-- No fatal error has been raised. -/
def State.faultFree (s : State) : Bool :=
  match s.status with
  | .running => true
  | .halted _ => true
  | .faulted _ => false

/-- A safe run: no reachable state is FAULTED. -/
def SafeRun (s : State) : Prop := ∀ t, Reachable s t → t.faultFree = true

/-! ### What does not change during a run (10_state.md R27) -/

/-- A peripheral's parameters. -/
def Peripheral.params : Peripheral → PeripheralParams
  | .memory d => .memory d.base d.size
  | .output port => .output port

/-- The parameters of the step, fixed at launch. -/
def State.fixedParams (s : State) : RegCount × Bool × List PeripheralParams :=
  (s.nregs, s.haltOnService, s.bus.map Peripheral.params)

/-! ### Reading one byte -/

/-- The byte a one-byte bus load gives at an address; none where no peripheral covers it. -/
def State.byteAt (s : State) (a : Word) : Option Byte :=
  match memRead s a 1 with
  | .ok v => some (v.setWidth 8)
  | .error _ => none

/-- The byte that the `k`-th peripheral of the bus holds under an address, when it is a memory device. -/
def State.deviceByte (s : State) (k : Nat) (x : Nat) : Option Byte :=
  match s.bus[k]? with
  | some (.memory d) => some (d.buf.read x)
  | _ => none

end Sys2Proof.Machine
end

