-- ==== Sys2Proof/Certificates/Slice0/Obligations.lean ====
section
/-! DEFINITION. The statements for the provers, each `def Obligations.<Name> : Prop`, listed in OBLIGATIONS.json. Values are written
as integers or as fields and bytes of words where the meanings use vector operations. -/

namespace Sys2Proof

open Sys2Proof.Machine

/-- `A`, the instruction's own address: the pc is `A + 4` while it executes (10_state.md R17). -/
def ownAddr (s : State) : Word := s.pc - 4#32

/-- One row of the REGISTER family (46_register_alu.md R175): its words, its result, its errors in order. -/
def RegRegRule (ctor : RegIdx → RegIdx → RegIdx → Instr) (pattern : Word) (f : Word → Word → Word) : Prop :=
  (∀ w : Word, w &&& 0xFE00707F#32 = pattern → decode w = .ok (ctor (w.extractLsb' 7 5) (w.extractLsb' 15 5) (w.extractLsb' 20 5))) ∧
  (∀ (s : State) (rd rs1 rs2 : RegIdx),
    (s.hasReg rs1 = true → s.hasReg rs2 = true → s.hasReg rd = true →
      exec (ctor rd rs1 rs2) s = .next (s.setReg rd (f (s.reg rs1) (s.reg rs2)))) ∧
    (s.hasReg rs1 = false → exec (ctor rd rs1 rs2) s = .next (s.raise (.invalidRegister rs1))) ∧
    (s.hasReg rs1 = true → s.hasReg rs2 = false → exec (ctor rd rs1 rs2) s = .next (s.raise (.invalidRegister rs2))) ∧
    (s.hasReg rs1 = true → s.hasReg rs2 = true → s.hasReg rd = false →
      exec (ctor rd rs1 rs2) s = .next (s.raise (.invalidRegister rd))))

/-- What R159 says of an IMMEDIATE instruction with operand value `x`: its result, its errors in order. -/
def ImmOutcome (i : Instr) (rd rs1 : RegIdx) (f : Word → Word) : Prop :=
  ∀ s : State,
    (s.hasReg rs1 = true → s.hasReg rd = true → exec i s = .next (s.setReg rd (f (s.reg rs1)))) ∧
    (s.hasReg rs1 = false → exec i s = .next (s.raise (.invalidRegister rs1))) ∧
    (s.hasReg rs1 = true → s.hasReg rd = false → exec i s = .next (s.raise (.invalidRegister rd)))

/-- One row of the IMMEDIATE family with a 12-bit immediate; `f` takes the source and the sign-extended immediate. -/
def RegImmRule (ctor : RegIdx → RegIdx → BitVec 12 → Instr) (pattern : Word) (f : Word → Word → Word) : Prop :=
  (∀ w : Word, w &&& 0x0000707F#32 = pattern → decode w = .ok (ctor (w.extractLsb' 7 5) (w.extractLsb' 15 5) (w.extractLsb' 20 12))) ∧
  (∀ (rd rs1 : RegIdx) (imm : BitVec 12), ImmOutcome (ctor rd rs1 imm) rd rs1 (fun a => f a (BitVec.ofInt 32 imm.toInt)))

/-- One row of the IMMEDIATE family with a shift amount; `f` takes the source and the amount. -/
def RegShamtRule (ctor : RegIdx → RegIdx → BitVec 5 → Instr) (pattern : Word) (f : Word → Nat → Word) : Prop :=
  (∀ w : Word, w &&& 0xFE00707F#32 = pattern → decode w = .ok (ctor (w.extractLsb' 7 5) (w.extractLsb' 15 5) (w.extractLsb' 20 5))) ∧
  (∀ (rd rs1 : RegIdx) (shamt : BitVec 5), ImmOutcome (ctor rd rs1 shamt) rd rs1 (fun a => f a shamt.toNat))

/-- The B-format offset of a word as the document's scattered bits (30_encoding.md R76). -/
def branchOffsetOf (w : Word) : BitVec 13 :=
  w.extractLsb' 31 1 ++ w.extractLsb' 7 1 ++ w.extractLsb' 25 6 ++ w.extractLsb' 8 4 ++ 0#1

/-- A branch's target `A + immB`. -/
def branchGoal (s : State) (off : BitVec 13) : Word := ownAddr s + BitVec.ofInt 32 off.toInt

/-- One branch of 42_branches.md R121 to R126: its words; taken to an aligned target it sets the pc and changes nothing else; not taken,
with a target that would be aligned, it changes nothing. -/
def BranchRule (ctor : RegIdx → RegIdx → BitVec 13 → Instr) (pattern : Word) (cond : Word → Word → Prop) : Prop :=
  (∀ w : Word, w &&& 0x0000707F#32 = pattern → decode w = .ok (ctor (w.extractLsb' 15 5) (w.extractLsb' 20 5) (branchOffsetOf w))) ∧
  (∀ (s : State) (rs1 rs2 : RegIdx) (off : BitVec 13), s.hasReg rs1 = true → s.hasReg rs2 = true →
    (branchGoal s off).toNat % 4 = 0 →
    (cond (s.reg rs1) (s.reg rs2) → exec (ctor rs1 rs2 off) s = .next (s.setPc (branchGoal s off))) ∧
    (¬ cond (s.reg rs1) (s.reg rs2) → exec (ctor rs1 rs2 off) s = .next s))

/-- The rest of R120 for one branch: a target that is not a multiple of 4 is an error when the branch is taken and is not looked at when
it is not (D16); the register errors come first, in order, taken or not. -/
def BranchErrorRule (ctor : RegIdx → RegIdx → BitVec 13 → Instr) (cond : Word → Word → Prop) : Prop :=
  ∀ (s : State) (rs1 rs2 : RegIdx) (off : BitVec 13),
    (s.hasReg rs1 = true → s.hasReg rs2 = true → (branchGoal s off).toNat % 4 ≠ 0 →
      (cond (s.reg rs1) (s.reg rs2) → exec (ctor rs1 rs2 off) s = .next (s.raise (.misalignedTarget (branchGoal s off)))) ∧
      (¬ cond (s.reg rs1) (s.reg rs2) → exec (ctor rs1 rs2 off) s = .next s)) ∧
    (s.hasReg rs1 = false → exec (ctor rs1 rs2 off) s = .next (s.raise (.invalidRegister rs1))) ∧
    (s.hasReg rs1 = true → s.hasReg rs2 = false → exec (ctor rs1 rs2 off) s = .next (s.raise (.invalidRegister rs2)))

/-- What R112 says of one control transfer to `target` from a state where it is made: an aligned target becomes the pc, mapped or not;
any other raises and the pc stays. -/
def TransfersTo (i : Instr) (s : State) (target : Word) : Prop :=
  (target.toNat % 4 = 0 → ∃ t, exec i s = .next t ∧ t.pc = target ∧ t.status = s.status) ∧
  (target.toNat % 4 ≠ 0 → ∃ t, exec i s = .next t ∧ t.pc = s.pc ∧ t.status = .faulted (.misalignedTarget target))

/-- The six branches with their conditions (R121 to R126). -/
def branchTable : List ((RegIdx → RegIdx → BitVec 13 → Instr) × (Word → Word → Prop)) :=
  [(.beq, fun a b => a = b), (.bne, fun a b => a ≠ b), (.blt, fun a b => a.toInt < b.toInt), (.bge, fun a b => b.toInt ≤ a.toInt),
    (.bltu, fun a b => a.toNat < b.toNat), (.bgeu, fun a b => b.toNat ≤ a.toNat)]

/-- The effective address `x[rs1] + imm`, modulo 2^32 (R137, R144). -/
def dataAddr (s : State) (rs1 : RegIdx) (imm : BitVec 12) : Word := s.reg rs1 + BitVec.ofInt 32 imm.toInt

/-- The first peripheral that covers `a` is `p`, after `pre` and before `post`. -/
def FirstCovering (s : State) (a : Word) (pre : List Peripheral) (p : Peripheral) (post : List Peripheral) : Prop :=
  s.bus = pre ++ p :: post ∧ (∀ q ∈ pre, q.covers a = false) ∧ p.covers a = true

/-- A memory device `d` is the first to cover `a`, and all `n` bytes of the access are inside it. -/
def InDevice (s : State) (a : Word) (n : Nat) (pre : List Peripheral) (d : MemoryDevice) (post : List Peripheral) : Prop :=
  FirstCovering s a pre (.memory d) post ∧ a.toNat + n ≤ d.base + d.size

/-- One load (43_loads.md): its words; from a memory device it puts `value` of the device's bytes in rd; from an output device 0. -/
def LoadRule (ctor : RegIdx → RegIdx → BitVec 12 → Instr) (pattern : Word) (n : Nat) (value : (Nat → Byte) → Word) : Prop :=
  (∀ w : Word, w &&& 0x0000707F#32 = pattern → decode w = .ok (ctor (w.extractLsb' 7 5) (w.extractLsb' 15 5) (w.extractLsb' 20 12))) ∧
  (∀ (s : State) (rd rs1 : RegIdx) (imm : BitVec 12) (pre post : List Peripheral) (d : MemoryDevice),
    s.hasReg rs1 = true → s.hasReg rd = true → InDevice s (dataAddr s rs1 imm) n pre d post →
    exec (ctor rd rs1 imm) s = .next (s.setReg rd (value (fun k => d.buf.read ((dataAddr s rs1 imm).toNat + k))))) ∧
  (∀ (s : State) (rd rs1 : RegIdx) (imm : BitVec 12) (pre post : List Peripheral) (port : Word),
    s.hasReg rs1 = true → s.hasReg rd = true → FirstCovering s (dataAddr s rs1 imm) pre (.output port) post →
    exec (ctor rd rs1 imm) s = .next (s.setReg rd 0#32))

/-- A load of `n ≥ 2` bytes whose first byte is in a memory device and whose last is not (R45, D7). A one-byte access is inside the device
that covers it. -/
def LoadRangeRule (ctor : RegIdx → RegIdx → BitVec 12 → Instr) (n : Nat) : Prop :=
  ∀ (s : State) (rd rs1 : RegIdx) (imm : BitVec 12) (pre post : List Peripheral) (d : MemoryDevice), s.hasReg rs1 = true →
    FirstCovering s (dataAddr s rs1 imm) pre (.memory d) post → d.base + d.size < (dataAddr s rs1 imm).toNat + n →
    exec (ctor rd rs1 imm) s = .next (s.raise (.outOfRange (dataAddr s rs1 imm)))

/-- The errors of one load, in order (R137, R195): rs1, the access (here no covering peripheral), rd. -/
def LoadErrorRule (ctor : RegIdx → RegIdx → BitVec 12 → Instr) (n : Nat) : Prop :=
  ∀ (s : State) (rd rs1 : RegIdx) (imm : BitVec 12),
    (s.hasReg rs1 = false → exec (ctor rd rs1 imm) s = .next (s.raise (.invalidRegister rs1))) ∧
    (s.hasReg rs1 = true → (∀ p ∈ s.bus, p.covers (dataAddr s rs1 imm) = false) →
      exec (ctor rd rs1 imm) s = .next (s.raise (.unmappedAddress (dataAddr s rs1 imm)))) ∧
    (∀ v, s.hasReg rs1 = true → memRead s (dataAddr s rs1 imm) n = .ok v → s.hasReg rd = false →
      exec (ctor rd rs1 imm) s = .next (s.raise (.invalidRegister rd)))

/-- One store (44_stores.md): its words; to a memory device its `n` bytes become the low bytes of `x[rs2]`, least significant first, every
other byte of the device and all the rest of the state stay; to an output device it appends one event and nothing else changes. -/
def StoreRule (ctor : RegIdx → RegIdx → BitVec 12 → Instr) (pattern : Word) (n : Nat) : Prop :=
  (∀ w : Word, w &&& 0x0000707F#32 = pattern →
    decode w = .ok (ctor (w.extractLsb' 15 5) (w.extractLsb' 20 5) (w.extractLsb' 25 7 ++ w.extractLsb' 7 5))) ∧
  (∀ (s : State) (rs1 rs2 : RegIdx) (imm : BitVec 12) (pre post : List Peripheral) (d : MemoryDevice),
    s.hasReg rs1 = true → s.hasReg rs2 = true → d.buf.wf = true → InDevice s (dataAddr s rs1 imm) n pre d post →
    ∃ buf, exec (ctor rs1 rs2 imm) s = .next { s with bus := pre ++ .memory { d with buf := buf } :: post } ∧ buf.wf = true ∧
      (∀ k < n, buf.read ((dataAddr s rs1 imm).toNat + k) = (s.reg rs2).extractLsb' (8 * k) 8) ∧
      (∀ x, x < (dataAddr s rs1 imm).toNat ∨ (dataAddr s rs1 imm).toNat + n ≤ x → buf.read x = d.buf.read x)) ∧
  (∀ (s : State) (rs1 rs2 : RegIdx) (imm : BitVec 12) (pre post : List Peripheral) (port : Word),
    s.hasReg rs1 = true → s.hasReg rs2 = true → FirstCovering s (dataAddr s rs1 imm) pre (.output port) post →
    exec (ctor rs1 rs2 imm) s = .next { s with out := s.out ++
      [{ port := port, n := n, bytes := (List.range n).map (fun k => (s.reg rs2).extractLsb' (8 * k) 8) }] })

/-- The errors of one store, in order (R144): rs1, rs2, the access (here no covering peripheral); no byte is written, no event appended. -/
def StoreErrorRule (ctor : RegIdx → RegIdx → BitVec 12 → Instr) : Prop :=
  ∀ (s : State) (rs1 rs2 : RegIdx) (imm : BitVec 12),
    (s.hasReg rs1 = false → exec (ctor rs1 rs2 imm) s = .next (s.raise (.invalidRegister rs1))) ∧
    (s.hasReg rs1 = true → s.hasReg rs2 = false → exec (ctor rs1 rs2 imm) s = .next (s.raise (.invalidRegister rs2))) ∧
    (s.hasReg rs1 = true → s.hasReg rs2 = true → (∀ p ∈ s.bus, p.covers (dataAddr s rs1 imm) = false) →
      exec (ctor rs1 rs2 imm) s = .next (s.raise (.unmappedAddress (dataAddr s rs1 imm))))

/-- A store of `n ≥ 2` bytes whose first byte is in a memory device and whose last is not (R46, D7): no byte is written. -/
def StoreRangeRule (ctor : RegIdx → RegIdx → BitVec 12 → Instr) (n : Nat) : Prop :=
  ∀ (s : State) (rs1 rs2 : RegIdx) (imm : BitVec 12) (pre post : List Peripheral) (d : MemoryDevice), s.hasReg rs1 = true →
    s.hasReg rs2 = true → FirstCovering s (dataAddr s rs1 imm) pre (.memory d) post →
    d.base + d.size < (dataAddr s rs1 imm).toNat + n →
    exec (ctor rs1 rs2 imm) s = .next (s.raise (.outOfRange (dataAddr s rs1 imm)))

/-- What a store leaves alone whenever it gives a next state: all but the bus, `out` and the status, and every byte outside the stored ones,
both as the bus reads it and as each memory device holds it. The address is `effAddr` of the base, the function the meaning uses. -/
def StoreFrameRule (ctor : RegIdx → RegIdx → BitVec 12 → Instr) (n : Nat) : Prop :=
  ∀ (s t : State) (rs1 rs2 : RegIdx) (imm : BitVec 12), exec (ctor rs1 rs2 imm) s = .next t →
    t = { s with bus := t.bus, out := t.out, status := t.status } ∧
    (∀ x : Word, x.toNat < (effAddr (s.reg rs1) imm).toNat ∨ (effAddr (s.reg rs1) imm).toNat + n ≤ x.toNat →
      t.byteAt x = s.byteAt x) ∧
    (∀ k x : Nat, x < (effAddr (s.reg rs1) imm).toNat ∨ (effAddr (s.reg rs1) imm).toNat + n ≤ x →
      t.deviceByte k x = s.deviceByte k x)

/-- 60_exceptions.md R191: the errors an instruction's execution can raise, with the value each records. -/
def CanRaise (i : Instr) (s : State) : FatalError → Prop
  | .unmappedAddress a => i.loadWidth + i.storeWidth ≠ 0 ∧ ∀ p ∈ s.bus, p.covers a = false
  | .outOfRange a => (2 ≤ i.loadWidth ∨ 2 ≤ i.storeWidth) ∧ ∃ p ∈ s.bus, p.covers a = true
  | .invalidRegister r => (r ∈ i.sources ∨ i.dest = some r) ∧ s.nregs = .embedded ∧ 16 ≤ r.toNat
  | .misalignedTarget t => (i.isJump = true ∨ i.isBranch = true) ∧ t.toNat % 4 ≠ 0
  | .invalidOpcode _ => False
  | .invalidFunct _ _ _ => False
  | .invalidWidth _ => False

/-- The operand value an instruction's rule computes with: the sign-extended or shifted immediate. -/
def operandValue : Instr → Option Word
  | .lui _ imm | .auipc _ imm => some (upper20 imm)
  | .jal _ off => some (sext21 off)
  | .jalr _ _ imm _ => some (sext12 imm)
  | .beq _ _ off | .bne _ _ off | .blt _ _ off | .bge _ _ off | .bltu _ _ off | .bgeu _ _ off => some (sext13 off)
  | .lb _ _ imm | .lh _ _ imm | .lw _ _ imm | .lbu _ _ imm | .lhu _ _ imm | .lwu _ _ imm => some (sext12 imm)
  | .sb _ _ imm | .sh _ _ imm | .sw _ _ imm => some (sext12 imm)
  | .addi _ _ imm | .slti _ _ imm | .sltiu _ _ imm | .xori _ _ imm | .ori _ _ imm | .andi _ _ imm => some (sext12 imm)
  | .slli _ _ shamt | .srli _ _ shamt | .srai _ _ shamt => some (shamt.setWidth 32)
  | .add .. | .sub .. | .sll .. | .slt .. | .sltu .. | .xor .. | .srl .. | .sra .. | .or .. | .and .. => none
  | .fence .. | .ecall | .ebreak => none

/-- The immediate of a word under the format of each row (30_encoding.md R73). -/
def formatValue (w : Word) : Mnemonic → Option Word
  | .LUI | .AUIPC => some (immU w)
  | .JAL => some (immJ w)
  | .JALR => some (immI w)
  | .BEQ | .BNE | .BLT | .BGE | .BLTU | .BGEU => some (immB w)
  | .LB | .LH | .LW | .LBU | .LHU | .LWU => some (immI w)
  | .SB | .SH | .SW => some (immS w)
  | .ADDI | .SLTI | .SLTIU | .XORI | .ORI | .ANDI => some (immI w)
  | .SLLI | .SRLI | .SRAI => some ((shamtOf w).setWidth 32)
  | .ADD | .SUB | .SLL | .SLT | .SLTU | .XOR | .SRL | .SRA | .OR | .AND => none
  | .FENCE | .ECALL | .EBREAK => none

/-- R79: the signed and unsigned outputs of one immediate decoder over a bit string of `n` bits: each is determined by the other. -/
def SignedUnsigned {n : Nat} (field : BitVec n) (signed unsigned : Word) : Prop :=
  unsigned.toNat = field.toNat ∧ signed.toInt = field.toInt ∧ signed.toNat % 2 ^ n = unsigned.toNat ∧
    signed = (unsigned.setWidth n).signExtend 32

end Sys2Proof

open Sys2Proof Sys2Proof.Machine

/-! ### Registers -/

/-- R12. -/
def Obligations.RegisterReadRule : Prop :=
  ∀ (s : State) (i : RegIdx),
    (i = 0#5 → s.readReg i = .ok 0x00000000#32) ∧
    (i ≠ 0#5 → s.nregs.count ≤ i.toNat → s.readReg i = .error (.invalidRegister i)) ∧
    (i ≠ 0#5 → i.toNat < s.nregs.count → s.readReg i = .ok (s.regs.getD (i.toNat - 1) 0#32)) ∧
    (s.nregs = .full → ∃ v, s.readReg i = .ok v)

/-- R13. -/
def Obligations.RegisterWriteRule : Prop :=
  ∀ (s : State) (i : RegIdx) (v : Word),
    (i = 0#5 → s.writeReg i v = .ok s) ∧
    (i ≠ 0#5 → s.nregs.count ≤ i.toNat → s.writeReg i v = .error (.invalidRegister i)) ∧
    (i ≠ 0#5 → i.toNat < s.nregs.count → ∃ t, s.writeReg i v = .ok t ∧ t.readReg i = .ok v ∧
      (∀ j, j ≠ i → t.readReg j = s.readReg j) ∧ t = { s with regs := t.regs })

/-- R14. -/
def Obligations.SignedViewOfRegisters : Prop :=
  ∀ (s : State) (i : RegIdx) (k : Int), i ≠ 0#5 → i.toNat < s.nregs.count → -2 ^ 31 ≤ k → k < 2 ^ 32 →
    ∃ t, s.regSet i k = .ok t ∧ t.regGet i false = .ok (k % 2 ^ 32) ∧
      t.regGet i true = .ok (if k % 2 ^ 32 < 2 ^ 31 then k % 2 ^ 32 else k % 2 ^ 32 - 2 ^ 32)

/-! ### The bus and the devices -/

/-- R34, R36, R40. -/
def Obligations.AccessGoesToFirstCoveringPeripheral : Prop :=
  (∀ (s : State) (a v : Word) (n : Nat), (∀ p ∈ s.bus, p.covers a = false) →
    memRead s a n = .error (.unmappedAddress a) ∧ memWrite s a n v = .error (.unmappedAddress a)) ∧
  (∀ (s : State) (a v : Word) (n : Nat) (pre post : List Peripheral) (p : Peripheral), FirstCovering s a pre p post →
    memRead s a n = p.load a n ∧
    (∀ e, p.store a n v = .error e → memWrite s a n v = .error e) ∧
    (∀ p' evs, p.store a n v = .ok (p', evs) →
      memWrite s a n v = .ok { s with bus := pre ++ p' :: post, out := s.out ++ evs }))

/-- The memory device's bytes, byte order and bounds (20_memory.md section 3). The bounds check on the last byte is the spec's decision D7
(log 8), and that no access needs alignment its decision D6 (log 7). -/
def Obligations.MemoryDeviceBytesAndBounds : Prop :=
  ∀ (d : MemoryDevice) (a v : Word) (n : Nat), n = 1 ∨ n = 2 ∨ n = 4 →
    (d.base ≤ a.toNat → a.toNat + n ≤ d.base + d.size →
      (∃ x, d.load a n = .ok x ∧ x.toNat = ∑ k ∈ Finset.range n, (d.buf.read (a.toNat + k)).toNat * 2 ^ (8 * k)) ∧
      (∃ buf, d.store a n v = .ok { d with buf := buf } ∧
        (d.buf.wf = true → buf.wf = true ∧ ∀ k < n, buf.read (a.toNat + k) = v.extractLsb' (8 * k) 8) ∧
        (∀ x, x < a.toNat ∨ a.toNat + n ≤ x → buf.read x = d.buf.read x))) ∧
    (¬ (d.base ≤ a.toNat ∧ a.toNat + n ≤ d.base + d.size) →
      d.load a n = .error (.outOfRange a) ∧ d.store a n v = .error (.outOfRange a))

/-- After a word is stored in a memory device, the loads of its bytes, halfwords and of itself give its little-endian slices
(20_memory.md section 5, 95_test_vectors.md E6). -/
def Obligations.StoredWordReadsBackInSlices : Prop :=
  ∀ (d d' : MemoryDevice) (a v : Word), d.wf = true → d.store a 4 v = .ok d' →
    d'.load a 4 = .ok v ∧
    (∀ k < 4, d'.load (a + BitVec.ofNat 32 k) 1 = .ok ((v.extractLsb' (8 * k) 8).setWidth 32)) ∧
    (∀ k < 3, d'.load (a + BitVec.ofNat 32 k) 2 = .ok ((v.extractLsb' (8 * k) 16).setWidth 32)) ∧
    (a.toNat + 5 ≤ d.base + d.size →
      d'.load (a + 1#32) 4 = .ok (d.buf.read (a.toNat + 4) ++ v.extractLsb' 8 24))

/-- The output device (20_memory.md section 4): one address, loads of 0 with no effect, one event a store. The single address is the
decision D9, the event form D10 (log 10). -/
def Obligations.OutputDeviceRule : Prop :=
  ∀ (port a v : Word) (n : Nat),
    ((Peripheral.output port).covers a = true ↔ a = port) ∧
    (n = 1 ∨ n = 2 ∨ n = 4 →
      (Peripheral.output port).load a n = .ok 0#32 ∧
      (Peripheral.output port).store a n v = .ok (.output port,
        [{ port := port, n := n, bytes := (List.range n).map (fun k => v.extractLsb' (8 * k) 8) }]))

/-- R32: any other width is an error of the peripheral, and no instruction asks for one (derived in the rule). -/
def Obligations.UnsupportedWidthIsUnreachable : Prop :=
  (∀ (p : Peripheral) (a v : Word) (n : Nat), n ≠ 1 → n ≠ 2 → n ≠ 4 →
    p.load a n = .error (.invalidWidth (8 * n)) ∧ p.store a n v = .error (.invalidWidth (8 * n))) ∧
  (∀ (i : Instr) (s t : State) (k : Nat), s.status = .running → exec i s = .next t → t.status ≠ .faulted (.invalidWidth k))

/-! ### Encoding -/

/-- Every well-formed instruction, with every operand at every value: the decoder gives back what the encoder wrote. -/
def Obligations.DecodeGivesBackEncode : Prop :=
  ∀ i : Instr, i.wf = true → decode (encode i) = .ok i ∧ decodeBytes (encodeBytes i) = .ok (i, [])

/-- Every word that decodes is the encoding of a well-formed instruction: no bit of a word is lost. -/
def Obligations.EncodeGivesBackDecode : Prop :=
  ∀ (w : Word) (i : Instr), decode w = .ok i → i.wf = true ∧ encode i = w

/-- R82: a word is the row's instruction iff its masked bits are the row's; the values are the rule's own (log 11). -/
def Obligations.DecodingFollowsMatchAndMask : Prop :=
  ∀ (w : Word) (m : Mnemonic), (∃ i, decode w = .ok i ∧ i.mnemonic = m) ↔ w &&& m.mask = m.pattern

/-- The operands of a decoded word are the fields of its format (30_encoding.md section 1, R71 and R73). -/
def Obligations.DecodedOperandsAreTheFields : Prop :=
  ∀ (w : Word) (i : Instr), decode w = .ok i →
    (∀ r, i.dest = some r → r = w.extractLsb' 7 5) ∧
    (i.sources = [] ∨ i.sources = [w.extractLsb' 15 5] ∨ i.sources = [w.extractLsb' 15 5, w.extractLsb' 20 5]) ∧
    operandValue i = formatValue w i.mnemonic

/-- R74 to R78: the bits of the five signed immediates, and their ranges as signed integers. -/
def Obligations.ImmediateBitsAndRanges : Prop :=
  ∀ w : Word,
    ((∀ k < 12, (immI w).getLsbD k = w.getLsbD (20 + k)) ∧ (∀ k, 12 ≤ k → k < 32 → (immI w).getLsbD k = w.getLsbD 31) ∧
      -2048 ≤ (immI w).toInt ∧ (immI w).toInt ≤ 2047) ∧
    ((∀ k < 5, (immS w).getLsbD k = w.getLsbD (7 + k)) ∧ (∀ k < 7, (immS w).getLsbD (5 + k) = w.getLsbD (25 + k)) ∧
      (∀ k, 12 ≤ k → k < 32 → (immS w).getLsbD k = w.getLsbD 31) ∧ -2048 ≤ (immS w).toInt ∧ (immS w).toInt ≤ 2047) ∧
    ((immB w).getLsbD 0 = false ∧ (∀ k < 4, (immB w).getLsbD (1 + k) = w.getLsbD (8 + k)) ∧
      (∀ k < 6, (immB w).getLsbD (5 + k) = w.getLsbD (25 + k)) ∧ (immB w).getLsbD 11 = w.getLsbD 7 ∧
      (∀ k, 12 ≤ k → k < 32 → (immB w).getLsbD k = w.getLsbD 31) ∧
      -4096 ≤ (immB w).toInt ∧ (immB w).toInt ≤ 4094 ∧ (immB w).toInt % 2 = 0) ∧
    ((∀ k < 12, (immU w).getLsbD k = false) ∧ (∀ k, 12 ≤ k → k < 32 → (immU w).getLsbD k = w.getLsbD k) ∧
      -2 ^ 31 ≤ (immU w).toInt ∧ (immU w).toInt ≤ 2 ^ 31 - 4096 ∧ (immU w).toInt % 4096 = 0) ∧
    ((immJ w).getLsbD 0 = false ∧ (∀ k < 10, (immJ w).getLsbD (1 + k) = w.getLsbD (21 + k)) ∧
      (immJ w).getLsbD 11 = w.getLsbD 20 ∧ (∀ k < 8, (immJ w).getLsbD (12 + k) = w.getLsbD (12 + k)) ∧
      (∀ k, 20 ≤ k → k < 32 → (immJ w).getLsbD k = w.getLsbD 31) ∧
      -1048576 ≤ (immJ w).toInt ∧ (immJ w).toInt ≤ 1048574 ∧ (immJ w).toInt % 2 = 0)

/-- R79. -/
def Obligations.SignedAndUnsignedImmediatesAgree : Prop :=
  ∀ w : Word,
    ((shamtOf w).toNat = w.toNat / 2 ^ 20 % 32 ∧ (shamtOf w).toNat = (uimmI w).toNat % 32) ∧
    SignedUnsigned (w.extractLsb' 20 12) (immI w) (uimmI w) ∧
    SignedUnsigned (w.extractLsb' 25 7 ++ w.extractLsb' 7 5) (immS w) (uimmS w) ∧
    SignedUnsigned (branchOffsetOf w) (immB w) (uimmB w) ∧
    SignedUnsigned (w.extractLsb' 12 20 ++ 0#12) (immU w) (uimmU w) ∧
    SignedUnsigned (w.extractLsb' 31 1 ++ w.extractLsb' 12 8 ++ w.extractLsb' 20 1 ++ w.extractLsb' 21 10 ++ 0#1) (immJ w) (uimmJ w)

/-- The table of illegal words (30_encoding.md R84, with the spec's decisions D13 to D15, logs 14 and 15): each class raises its error with the offending
fields, and every other word is an instruction. -/
def Obligations.IllegalWordsAndTheirErrors : Prop :=
  ∀ w : Word,
    let op := w.extractLsb' 0 7
    let f3 := w.extractLsb' 12 3
    let f7 := w.extractLsb' 25 7
    let known := op ∈ [0x37#7, 0x17#7, 0x6F#7, 0x67#7, 0x63#7, 0x03#7, 0x23#7, 0x13#7, 0x33#7, 0x0F#7, 0x73#7]
    let badFunct := (op = 0x63#7 ∧ (f3 = 2#3 ∨ f3 = 3#3)) ∨
      (op = 0x13#7 ∧ ((f3 = 1#3 ∧ f7 ≠ 0x00#7) ∨ (f3 = 5#3 ∧ f7 ≠ 0x00#7 ∧ f7 ≠ 0x20#7))) ∨
      (op = 0x33#7 ∧ f7 ≠ 0x00#7 ∧ ¬ (f7 = 0x20#7 ∧ (f3 = 0#3 ∨ f3 = 5#3))) ∨
      (op = 0x73#7 ∧ w ≠ 0x00000073#32 ∧ w ≠ 0x00100073#32)
    let badWidth := (op = 0x03#7 ∧ (f3 = 3#3 ∨ f3 = 7#3)) ∨ (op = 0x23#7 ∧ f3 ≠ 0#3 ∧ f3 ≠ 1#3 ∧ f3 ≠ 2#3)
    (¬ known → decode w = .error (.invalidOpcode op)) ∧
    (badFunct → decode w = .error (.invalidFunct op f3 f7)) ∧
    (badWidth → decode w = .error (.invalidWidth f3)) ∧
    (known → ¬ badFunct → ¬ badWidth → ∃ i, decode w = .ok i)

/-- Words of the spec's examples, one or more a family, and the instructions they stand for (files 40 to 47). -/
def Obligations.ExampleWordsDecode : Prop :=
  decode 0x123452B7#32 = .ok (.lui 5 0x12345) ∧ decode 0x00001317#32 = .ok (.auipc 6 1) ∧
  decode 0x010000EF#32 = .ok (.jal 1 16) ∧ decode 0xFFC080E7#32 = .ok (.jalr 1 1 (-4) 0) ∧
  decode 0xFE629EE3#32 = .ok (.bne 5 6 (-4)) ∧ decode 0x000000E3#32 = .ok (.beq 0 0 2048) ∧
  decode 0x00231283#32 = .ok (.lh 5 6 2) ∧ decode 0x00036283#32 = .ok (.lwu 5 6 0) ∧
  decode 0xFE532E23#32 = .ok (.sw 6 5 (-4)) ∧ decode 0x00700293#32 = .ok (.addi 5 0 7) ∧
  decode 0x40435293#32 = .ok (.srai 5 6 4) ∧ decode 0x407302B3#32 = .ok (.sub 5 6 7) ∧
  decode 0x0FF0000F#32 = .ok (.fence 0x1FE000) ∧ decode 0x00000073#32 = .ok .ecall ∧ decode 0x00100073#32 = .ok .ebreak ∧
  decode 0x00033283#32 = .error (.invalidWidth 3) ∧ decode 0x027302B3#32 = .error (.invalidFunct 0x33 0 1) ∧
  decode 0x00000000#32 = .error (.invalidOpcode 0)

/-! ### The step -/

/-- A step of a RUNNING machine whose fetched word decodes to `i` is `exec i` with the pc advanced by 4, then the halt tests (10_state.md section 4,
R19; the tests are the spec's decision D17, log 17). -/
def Obligations.StepRunsTheDecodedInstruction : Prop :=
  ∀ (s : State) (w : Word) (i : Instr), s.status = .running → fetch s = .ok w → w ≠ 0#32 → decode w = .ok i →
    ∃ t, exec i { s with pc := s.pc + 4#32 } = .next t ∧
      step s = .next (if t.status ≠ .running then t
        else if s.haltOnService = true ∧ (i = .ecall ∨ i = .ebreak) then { t with status := .halted .service }
        else if t.pc = 0#32 then { t with status := .halted .pcZero }
        else t)

/-- The zero word halts, before the advance (10_state.md section 4, decision D17, log 17). -/
def Obligations.ZeroWordHaltsBeforeTheAdvance : Prop :=
  ∀ s : State, s.status = .running → fetch s = .ok 0x00000000#32 → step s = .next { s with status := .halted .zeroWord }

/-- The pc at a fault (60_exceptions.md section 2, R197): a fetch error leaves the pc at the address that could not be fetched, a decode error at
the advanced value, and nothing but the status and that pc changes. -/
def Obligations.FetchAndDecodeErrors : Prop :=
  ∀ s : State, s.status = .running →
    ((∀ p ∈ s.bus, p.covers s.pc = false) → step s = .next { s with status := .faulted (.unmappedAddress s.pc) }) ∧
    (∀ (pre post : List Peripheral) (d : MemoryDevice), FirstCovering s s.pc pre (.memory d) post →
      d.base + d.size < s.pc.toNat + 4 → step s = .next { s with status := .faulted (.outOfRange s.pc) }) ∧
    (∀ w e, fetch s = .ok w → w ≠ 0#32 → decode w = .error e →
      step s = .next { s with pc := s.pc + 4#32, status := .faulted (fatalOf e) })

/-- HALTED and FAULTED are terminal (60_exceptions.md sections 2 and 4; what the model answers is its choice, log 4). -/
def Obligations.StoppedMachineTakesNoStep : Prop :=
  ∀ s : State, (∀ r, s.status = .halted r → step s = .fault (.machineHalted r)) ∧
    (∀ e, s.status = .faulted e → step s = .fault (.machineFaulted e))

/-- The step is a total function on RUNNING states, and no instruction is ever refused (70_reset_and_hazards.md section 4, R228). -/
def Obligations.RunningMachineAlwaysSteps : Prop :=
  (∀ (i : Instr) (s : State), ∃ t, exec i s = .next t) ∧ (∀ s : State, s.status = .running → ∃ t, step s = .next t)

/-- A word placed for the next fetch is what the fetch reads, and placing it changes the bus alone (log 19; about the model's own launch aid). -/
def Obligations.PlacedWordIsTheNextFetch : Prop :=
  ∀ (s : State) (w : Word) (pre post : List Peripheral) (d : MemoryDevice), s.busWf = true → InDevice s s.pc 4 pre d post →
    fetch (s.withFetchWord 32 w.toNat) = .ok w ∧ s.withFetchWord 32 w.toNat = { s with bus := (s.withFetchWord 32 w.toNat).bus } ∧
      (s.withFetchWord 32 w.toNat).busWf = true ∧ (s.withFetchWord 32 w.toNat).fixedParams = s.fixedParams

/-! ### Instructions: what each does -/

/-- R100, R101. -/
def Obligations.UpperImmediateRules : Prop :=
  (∀ w : Word, w &&& 0x0000007F#32 = 0x00000037#32 → decode w = .ok (.lui (w.extractLsb' 7 5) (w.extractLsb' 12 20))) ∧
  (∀ w : Word, w &&& 0x0000007F#32 = 0x00000017#32 → decode w = .ok (.auipc (w.extractLsb' 7 5) (w.extractLsb' 12 20))) ∧
  (∀ (s : State) (rd : RegIdx) (imm : BitVec 20),
    (s.hasReg rd = true →
      exec (.lui rd imm) s = .next (s.setReg rd (BitVec.ofNat 32 (imm.toNat * 2 ^ 12))) ∧
      exec (.auipc rd imm) s = .next (s.setReg rd (BitVec.ofNat 32 ((ownAddr s).toNat + imm.toNat * 2 ^ 12)))) ∧
    (s.hasReg rd = false →
      exec (.lui rd imm) s = .next (s.raise (.invalidRegister rd)) ∧
      exec (.auipc rd imm) s = .next (s.raise (.invalidRegister rd))))

/-- JAL and JALR in every case (41_jumps.md R110, R111). That the link is written before the target is checked, and the base read before the
link is written, are the spec's decisions D11 and D29 (logs 5 and 12); funct3 of JALR is not examined by D12 (log 13). -/
def Obligations.JumpRules : Prop :=
  (∀ (s : State) (rd : RegIdx) (off : BitVec 21),
    let target := ownAddr s + BitVec.ofInt 32 off.toInt
    let linked := s.setReg rd (ownAddr s + 4#32)
    (s.hasReg rd = true → target.toNat % 4 = 0 → exec (.jal rd off) s = .next { linked with pc := target }) ∧
    (s.hasReg rd = true → target.toNat % 4 ≠ 0 →
      exec (.jal rd off) s = .next { linked with status := .faulted (.misalignedTarget target) }) ∧
    (s.hasReg rd = false → exec (.jal rd off) s = .next (s.raise (.invalidRegister rd)))) ∧
  (∀ (s : State) (rd rs1 : RegIdx) (imm : BitVec 12) (funct3 : BitVec 3),
    let target := ((s.reg rs1 + BitVec.ofInt 32 imm.toInt) >>> 1) <<< 1
    let linked := s.setReg rd (ownAddr s + 4#32)
    (s.hasReg rs1 = true → s.hasReg rd = true → target.toNat % 4 = 0 →
      exec (.jalr rd rs1 imm funct3) s = .next { linked with pc := target }) ∧
    (s.hasReg rs1 = true → s.hasReg rd = true → target.toNat % 4 ≠ 0 →
      exec (.jalr rd rs1 imm funct3) s = .next { linked with status := .faulted (.misalignedTarget target) }) ∧
    (s.hasReg rs1 = false → exec (.jalr rd rs1 imm funct3) s = .next (s.raise (.invalidRegister rs1))) ∧
    (s.hasReg rs1 = true → s.hasReg rd = false → exec (.jalr rd rs1 imm funct3) s = .next (s.raise (.invalidRegister rd))))

/-- R112, for JAL, JALR and taken branches, the unmapped target at the next fetch, and the pc that never holds a misaligned value. -/
def Obligations.ControlTransferTargetsAreAligned : Prop :=
  (∀ (s : State) (rd : RegIdx) (off : BitVec 21), s.hasReg rd = true →
    TransfersTo (.jal rd off) s (ownAddr s + BitVec.ofInt 32 off.toInt)) ∧
  (∀ (s : State) (rd rs1 : RegIdx) (imm : BitVec 12) (funct3 : BitVec 3), s.hasReg rs1 = true → s.hasReg rd = true →
    TransfersTo (.jalr rd rs1 imm funct3) s (((s.reg rs1 + BitVec.ofInt 32 imm.toInt) >>> 1) <<< 1)) ∧
  (∀ row ∈ branchTable, ∀ (s : State) (rs1 rs2 : RegIdx) (off : BitVec 13), s.hasReg rs1 = true → s.hasReg rs2 = true →
    row.2 (s.reg rs1) (s.reg rs2) → TransfersTo (row.1 rs1 rs2 off) s (branchGoal s off)) ∧
  (∀ s : State, s.status = .running → (∀ p ∈ s.bus, p.covers s.pc = false) →
    step s = .next (s.raise (.unmappedAddress s.pc))) ∧
  (∀ s t : State, s.pc.toNat % 4 = 0 → step s = .next t → t.pc.toNat % 4 = 0)

/-- R121 to R126. -/
def Obligations.BranchRules : Prop :=
  BranchRule .beq 0x00000063#32 (fun a b => a = b) ∧
  BranchRule .bne 0x00001063#32 (fun a b => a ≠ b) ∧
  BranchRule .blt 0x00004063#32 (fun a b => a.toInt < b.toInt) ∧
  BranchRule .bge 0x00005063#32 (fun a b => b.toInt ≤ a.toInt) ∧
  BranchRule .bltu 0x00006063#32 (fun a b => a.toNat < b.toNat) ∧
  BranchRule .bgeu 0x00007063#32 (fun a b => b.toNat ≤ a.toNat)

/-- The errors of the six branches and the branch not taken whose target would be misaligned (42_branches.md R120, decision D16, log 16). -/
def Obligations.BranchErrorsAndUntakenBranches : Prop :=
  ∀ row ∈ branchTable, BranchErrorRule row.1 row.2

/-- The six loads (43_loads.md; the address wraps by D8, log 6, and needs no alignment by D6, log 7). -/
def Obligations.LoadRules : Prop :=
  LoadRule .lb 0x00000003#32 1 (fun b => (b 0).signExtend 32) ∧
  LoadRule .lh 0x00001003#32 2 (fun b => (b 1 ++ b 0 : BitVec 16).signExtend 32) ∧
  LoadRule .lw 0x00002003#32 4 (fun b => b 3 ++ b 2 ++ b 1 ++ b 0) ∧
  LoadRule .lbu 0x00004003#32 1 (fun b => (b 0).setWidth 32) ∧
  LoadRule .lhu 0x00005003#32 2 (fun b => (b 1 ++ b 0 : BitVec 16).setWidth 32) ∧
  LoadRule .lwu 0x00006003#32 4 (fun b => b 3 ++ b 2 ++ b 1 ++ b 0)

/-- The errors of the six loads in the order of 60_exceptions.md section 3 (decision D11, log 5; bounds D7, log 8). -/
def Obligations.LoadErrorOrder : Prop :=
  LoadErrorRule .lb 1 ∧ LoadErrorRule .lh 2 ∧ LoadErrorRule .lw 4 ∧ LoadErrorRule .lbu 1 ∧ LoadErrorRule .lhu 2 ∧ LoadErrorRule .lwu 4 ∧
  LoadRangeRule .lh 2 ∧ LoadRangeRule .lw 4 ∧ LoadRangeRule .lhu 2 ∧ LoadRangeRule .lwu 4

/-- The three stores, to a memory device and to an output device (44_stores.md; the address wraps by D8, log 6, and needs no alignment by
D6, log 7; the event form is D10, log 10). -/
def Obligations.StoreRules : Prop :=
  StoreRule .sb 0x00000023#32 1 ∧ StoreRule .sh 0x00001023#32 2 ∧ StoreRule .sw 0x00002023#32 4

/-- The errors of the three stores in order, nothing written (44_stores.md R144, decision D11, log 5; bounds D7, log 8). -/
def Obligations.StoreErrorOrder : Prop :=
  StoreErrorRule .sb ∧ StoreErrorRule .sh ∧ StoreErrorRule .sw ∧ StoreRangeRule .sh 2 ∧ StoreRangeRule .sw 4

/-- The frame of the three stores (20_memory.md R46 "A store changes only those n bytes", 44_stores.md R144). -/
def Obligations.StoreFrame : Prop :=
  StoreFrameRule .sb 1 ∧ StoreFrameRule .sh 2 ∧ StoreFrameRule .sw 4

/-- R150, R151, R153, R154, R155. -/
def Obligations.RegisterImmediateRules : Prop :=
  RegImmRule .addi 0x00000013#32 (fun a b => BitVec.ofInt 32 (a.toInt + b.toInt)) ∧
  RegImmRule .slti 0x00002013#32 (fun a b => if a.toInt < b.toInt then 1#32 else 0#32) ∧
  RegImmRule .xori 0x00004013#32 (fun a b => a ^^^ b) ∧
  RegImmRule .ori 0x00006013#32 (fun a b => a ||| b) ∧
  RegImmRule .andi 0x00007013#32 (fun a b => a &&& b)

/-- SLLI, SRLI and SRAI (45_immediate_alu.md R156 to R159), and the words whose funct7 is none of theirs, an error by the spec's decision D14
(log 14). -/
def Obligations.ImmediateShiftRules : Prop :=
  RegShamtRule .slli 0x00001013#32 (fun a k => BitVec.ofNat 32 (a.toNat * 2 ^ k)) ∧
  RegShamtRule .srli 0x00005013#32 (fun a k => BitVec.ofNat 32 (a.toNat / 2 ^ k)) ∧
  RegShamtRule .srai 0x40005013#32 (fun a k => BitVec.ofInt 32 (a.toInt / 2 ^ k)) ∧
  (∀ w : Word, w &&& 0x0000707F#32 = 0x00001013#32 → w.extractLsb' 25 7 ≠ 0x00#7 →
    decode w = .error (.invalidFunct 0x13#7 0b001#3 (w.extractLsb' 25 7))) ∧
  (∀ w : Word, w &&& 0x0000707F#32 = 0x00005013#32 → w.extractLsb' 25 7 ≠ 0x00#7 → w.extractLsb' 25 7 ≠ 0x20#7 →
    decode w = .error (.invalidFunct 0x13#7 0b101#3 (w.extractLsb' 25 7)))

/-- SLTIU compares with the sign-extended immediate taken as unsigned, the spec's decision D23 (45_immediate_alu.md, log 12). -/
def Obligations.SltiuRule : Prop :=
  RegImmRule .sltiu 0x00003013#32 (fun a b => if a.toNat < b.toNat then 1#32 else 0#32)

/-- R165, R166, R168, R169, R170, R173, R174. -/
def Obligations.RegisterRegisterRules : Prop :=
  RegRegRule .add 0x00000033#32 (fun a b => BitVec.ofNat 32 (a.toNat + b.toNat)) ∧
  RegRegRule .sub 0x40000033#32 (fun a b => BitVec.ofInt 32 (a.toNat - b.toNat)) ∧
  RegRegRule .slt 0x00002033#32 (fun a b => if a.toInt < b.toInt then 1#32 else 0#32) ∧
  RegRegRule .sltu 0x00003033#32 (fun a b => if a.toNat < b.toNat then 1#32 else 0#32) ∧
  RegRegRule .xor 0x00004033#32 (fun a b => a ^^^ b) ∧
  RegRegRule .or 0x00006033#32 (fun a b => a ||| b) ∧
  RegRegRule .and 0x00007033#32 (fun a b => a &&& b)

/-- SLL, SRL and SRA shift by the low five bits of x[rs2], the spec's decision D24 (46_register_alu.md, log 12). -/
def Obligations.RegisterShiftRules : Prop :=
  RegRegRule .sll 0x00001033#32 (fun a b => BitVec.ofNat 32 (a.toNat * 2 ^ (b.toNat % 32))) ∧
  RegRegRule .srl 0x00005033#32 (fun a b => BitVec.ofNat 32 (a.toNat / 2 ^ (b.toNat % 32))) ∧
  RegRegRule .sra 0x40005033#32 (fun a b => BitVec.ofInt 32 (a.toInt / 2 ^ (b.toNat % 32)))

/-- FENCE does nothing whatever its other 25 bits; ECALL and EBREAK append one event with their own address and do nothing else
(47_fence_service.md; decisions D12, D13, D18, logs 13, 14, 18). -/
def Obligations.FenceAndServiceRules : Prop :=
  (∀ w : Word, w &&& 0x0000007F#32 = 0x0000000F#32 → decode w = .ok (.fence (w.extractLsb' 7 25))) ∧
  (∀ (s : State) (x : BitVec 25), exec (.fence x) s = .next s) ∧
  (∀ s : State, exec .ecall s = .next { s with svc := s.svc ++ [{ kind := .ecall, addr := ownAddr s }] } ∧
    exec .ebreak s = .next { s with svc := s.svc ++ [{ kind := .ebreak, addr := ownAddr s }] })

/-! ### Frames and whole-machine rules -/

/-- Only the register an instruction's rule writes can change (10_state.md section 2). -/
def Obligations.OnlyTheDestinationRegisterChanges : Prop :=
  ∀ (i : Instr) (s t : State), exec i s = .next t →
    (∀ r, i.dest ≠ some r → t.reg r = s.reg r) ∧ (i.dest = none → t.regs = s.regs)

/-- An instruction whose rd is x0 runs as any other and only the write is discarded (30_encoding.md R86, 10_state.md R13): when it raises no error
the state is as it was but for the pc of a jump. -/
def Obligations.WritesToRegisterZeroAreDiscarded : Prop :=
  ∀ (i : Instr) (s t : State), i.dest = some 0#5 → exec i s = .next t → t.status = s.status →
    t = { s with pc := t.pc } ∧ (i.isJump = false → t = s)

/-- An instruction that is no store leaves every byte of every device and `out` alone; one that is not ECALL or EBREAK leaves `svc` alone
(10_state.md sections 1 and 4, R21). -/
def Obligations.OnlyStoresChangeMemoryAndOutput : Prop :=
  ∀ (i : Instr) (s t : State), exec i s = .next t →
    (i.storeWidth = 0 → t.bus = s.bus ∧ t.out = s.out ∧ (∀ x, t.byteAt x = s.byteAt x) ∧ ∀ k x, t.deviceByte k x = s.deviceByte k x) ∧
    (i.isService = false → t.svc = s.svc)

/-- The executor writes the pc in branches, JAL and JALR alone (10_state.md section 3, R16), and an instruction that is not one of
them leaves the pc where the advance put it. -/
def Obligations.OnlyControlTransfersWriteThePc : Prop :=
  ∀ (i : Instr) (s t : State), exec i s = .next t → i.isBranch = false → i.isJump = false → t.pc = s.pc

/-- Which instruction can raise which error, and what the error says (60_exceptions.md R191, derived there). -/
def Obligations.OnlyListedErrorsAreRaised : Prop :=
  ∀ (i : Instr) (s t : State) (e : FatalError), s.status = .running → exec i s = .next t → t.status = .faulted e → CanRaise i s e

/-- A raise leaves the state as it was but for the status; the one exception is the link of JAL or JALR before MisalignedTarget
(60_exceptions.md R193, decision D11, log 5). -/
def Obligations.FaultingInstructionsChangeNothingElse : Prop :=
  ∀ (i : Instr) (s t : State) (e : FatalError), s.status = .running → exec i s = .next t → t.status = .faulted e →
    t = s.raise e ∨
      (i.isJump = true ∧ (∃ target, e = .misalignedTarget target) ∧
        ∃ rd, i.dest = some rd ∧ t = (s.setReg rd (ownAddr s + 4#32)).raise e)

/-- NREGS, HALT_ON_SERVICE and the bus's peripherals and their parameters never change (10_state.md R27). -/
def Obligations.ParametersNeverChange : Prop :=
  ∀ s t : State, step s = .next t → t.fixedParams = s.fixedParams

/-- The invariant is kept by every step: the pc is a multiple of 4, every device's buffer is canonical and inside its range, absent
registers are untouched, events are well formed, and a stopped machine's status agrees with the rest. -/
def Obligations.EveryStepKeepsTheInvariant : Prop :=
  ∀ s t : State, s.inv = true → step s = .next t → t.inv = true

/-- The state after reset meets the invariant. -/
def Obligations.ResetMeetsTheInvariant : Prop :=
  State.reset.inv = true

/-- The event sequences are append-only and never read: what a step adds to them, and everything else it does, is the same whatever they
hold (10_state.md section 4, R21). -/
def Obligations.EventSequencesAreAppendedAndNeverRead : Prop :=
  ∀ s t : State, step s = .next t →
    ∃ newOut newSvc, newOut.length + newSvc.length ≤ 1 ∧ t.out = s.out ++ newOut ∧ t.svc = s.svc ++ newSvc ∧
      ∀ out svc, step { s with out := out, svc := svc } = .next { t with out := out ++ newOut, svc := svc ++ newSvc }

/-- A step of the 16-register machine that raises no InvalidRegister is the step of the 32-register machine on the same state
(10_state.md R12, R13; 95_test_vectors.md 2.10 "With NREGS = 32 none of these faults"). -/
def Obligations.SixteenRegistersRefineThirtyTwo : Prop :=
  ∀ s t : State, s.nregs = .embedded → step s = .next t → (∀ i, t.status ≠ .faulted (.invalidRegister i)) →
    step { s with nregs := .full } = .next { t with nregs := .full }

/-- A word stored where an instruction is fetched is what the next fetch of it reads (20_memory.md R57, derived there). -/
def Obligations.FetchSeesTheStore : Prop :=
  ∀ (s t : State) (rs1 rs2 : RegIdx) (imm : BitVec 12) (pre post : List Peripheral) (d : MemoryDevice), s.busWf = true →
    InDevice s (dataAddr s rs1 imm) 4 pre d post → s.status = .running → exec (.sw rs1 rs2 imm) s = .next t → t.status = .running →
    fetch (t.setPc (dataAddr s rs1 imm)) = .ok (s.reg rs2)

/-! ### Reset and launch -/

/-- The reset state (10_state.md section 8). The zero memory, the empty sequences and RUNNING are the spec's decisions D4, D10, D18 and D19; the
configuration is the reference configuration REF, the model's choice (logs 1, 2). -/
def Obligations.ResetState : Prop :=
  (∀ i : RegIdx, State.reset.readReg i = .ok 0#32) ∧ State.reset.pc = 0#32 ∧ State.reset.out = [] ∧ State.reset.svc = [] ∧
  State.reset.status = .running ∧ (∀ k x b, State.reset.deviceByte k x = some b → b = 0x00#8) ∧
  State.reset.fixedParams = (.full, false, [.memory 0x0000 0x1000, .memory 0x4000 0x1000, .output 0x9000#32])

/-- The launch (70_reset_and_hazards.md R222): which configurations are admitted (D21, D25, log 19), and the state they give; it meets
the invariant, so every state a run reaches does. Beside these, the statement rests on decisions of the spec that the source does not state:
every byte outside the image and in every other device is 0x00 (D4, log 2, a DESIGN CHOICE), the empty event sequences (out D10, log 10;
svc D18, log 18), RUNNING (D19, log 3) and the optional INIT_SP in x2 (D20, log 19). -/
def Obligations.LaunchState : Prop :=
  (∀ cfg : Config, cfg.bus.all PeripheralParams.wf = true → ∀ base size, cfg.bus[cfg.rom]? = some (.memory base size) →
    cfg.image.length ≤ size → ∃ s, State.launch cfg = some s) ∧
  (∀ (cfg : Config) (s : State), State.launch cfg = some s →
    s.fixedParams = (cfg.nregs, cfg.haltOnService, cfg.bus) ∧ s.pc = 0#32 ∧ s.out = [] ∧ s.svc = [] ∧ s.status = .running ∧
    (∀ i : RegIdx, s.reg i = if i = 2#5 then cfg.initSp.getD 0#32 else 0#32) ∧
    (∃ base size, cfg.bus[cfg.rom]? = some (.memory base size) ∧ cfg.image.length ≤ size ∧
      (∀ x, s.deviceByte cfg.rom x = some (if base ≤ x then cfg.image.getD (x - base) 0x00#8 else 0x00#8))) ∧
    (∀ k, k ≠ cfg.rom → ∀ x b, s.deviceByte k x = some b → b = 0x00#8) ∧
    s.inv = true)

/-- Every state that a launched machine reaches meets the invariant and has the configuration's parameters (10_state.md R27, R29, R222's launch). -/
def Obligations.LaunchedRunsKeepTheInvariant : Prop :=
  ∀ (cfg : Config) (s t : State), State.launch cfg = some s → Reachable s t →
    t.inv = true ∧ t.fixedParams = (cfg.nregs, cfg.haltOnService, cfg.bus)
end

