-- ==== Sys2Proof/Laws/Memory.lean ====
section
/-! SUPPORT. The laws of a memory device's cells: a read after a write, that every operation keeps the canonical form, and that a
canonical memory is determined by its reads. -/

namespace Sys2Proof.Machine

/-- A write leaves every other address alone (20_memory.md R46). No canonical form is needed. -/
theorem Memory.read_write_other (m : Memory) {a c : Nat} (b : Byte) (h : c ≠ a) : (m.write a b).read c = m.read c := by
  induction m with
  | nil =>
    unfold Memory.write
    split
    · rfl
    · simp [Memory.read, Ne.symm h]
  | cons e m ih =>
    obtain ⟨k, d⟩ := e
    unfold Memory.write
    split
    · split
      · rfl
      · simp [Memory.read, Ne.symm h]
    · split
      · rename_i hk
        subst hk
        split <;> simp [Memory.read, Ne.symm h]
      · simp only [Memory.read, ih]

/-- Below its bound a canonical list has no entry. -/
theorem Memory.read_below {lo : Nat} {m : Memory} (h : m.wfAbove lo = true) {a : Nat} (ha : a < lo) : m.read a = unlistedByte := by
  induction m generalizing lo with
  | nil => rfl
  | cons e m ih =>
    obtain ⟨k, b⟩ := e
    simp only [Memory.wfAbove, Bool.and_eq_true, decide_eq_true_eq] at h
    have hk : k ≠ a := by omega
    simp only [Memory.read, hk, if_false]
    exact ih h.2 (by omega)

/-- A byte written reads back. -/
theorem Memory.read_write_same {lo : Nat} {m : Memory} (h : m.wfAbove lo = true) (a : Nat) (b : Byte) :
    (m.write a b).read a = b := by
  induction m generalizing lo with
  | nil =>
    unfold Memory.write
    split
    · rename_i hb; simp [Memory.read, hb]
    · simp [Memory.read]
  | cons e m ih =>
    obtain ⟨k, c⟩ := e
    simp only [Memory.wfAbove, Bool.and_eq_true, decide_eq_true_eq] at h
    unfold Memory.write
    split
    · split
      · rename_i hak hb
        have hk : k ≠ a := by omega
        simp only [Memory.read, hk, if_false]
        rw [Memory.read_below h.2 (by omega), hb]
      · simp [Memory.read]
    · split
      · rename_i hak
        subst hak
        split
        · rename_i hb
          rw [Memory.read_below h.2 (by omega), hb]
        · simp [Memory.read]
      · rename_i h1 h2
        simp only [Memory.read, Ne.symm h2, if_false]
        exact ih h.2

/-- A weaker bound. -/
theorem Memory.wfAbove_mono {lo lo' : Nat} {m : Memory} (h : m.wfAbove lo = true) (hl : lo' ≤ lo) : m.wfAbove lo' = true := by
  cases m with
  | nil => rfl
  | cons e m =>
    obtain ⟨k, b⟩ := e
    simp only [Memory.wfAbove, Bool.and_eq_true, decide_eq_true_eq] at h ⊢
    exact ⟨⟨by omega, h.1.2⟩, h.2⟩

/-- A write keeps the canonical form. -/
theorem Memory.wfAbove_write {lo : Nat} {m : Memory} (h : m.wfAbove lo = true) {a : Nat} (b : Byte) (ha : lo ≤ a) :
    (m.write a b).wfAbove lo = true := by
  induction m generalizing lo with
  | nil =>
    unfold Memory.write
    split
    · rfl
    · rename_i hb; simp [Memory.wfAbove, ha, hb]
  | cons e m ih =>
    obtain ⟨k, c⟩ := e
    have h' := h
    simp only [Memory.wfAbove, Bool.and_eq_true, decide_eq_true_eq] at h'
    unfold Memory.write
    split
    · split
      · exact h
      · rename_i hak hb
        simp only [Memory.wfAbove, Bool.and_eq_true, decide_eq_true_eq]
        exact ⟨⟨ha, hb⟩, ⟨by omega, h'.1.2⟩, h'.2⟩
    · split
      · rename_i hak
        subst hak
        split
        · exact Memory.wfAbove_mono h'.2 (by omega)
        · rename_i hb
          simp only [Memory.wfAbove, Bool.and_eq_true, decide_eq_true_eq]
          exact ⟨⟨ha, hb⟩, h'.2⟩
      · simp only [Memory.wfAbove, Bool.and_eq_true, decide_eq_true_eq]
        exact ⟨h'.1, ih h'.2 (by omega)⟩

theorem Memory.wf_write {m : Memory} (h : m.wf = true) (a : Nat) (b : Byte) : (m.write a b).wf = true :=
  Memory.wfAbove_write h b (Nat.zero_le a)

theorem Memory.wf_writeBytes {m : Memory} (h : m.wf = true) (a : Nat) (bs : List Byte) : (m.writeBytes a bs).wf = true := by
  induction bs generalizing m a with
  | nil => exact h
  | cons b bs ih => exact ih (Memory.wf_write h a b) (a + 1)

/-- A run of bytes leaves every address outside it alone. -/
theorem Memory.read_writeBytes_outside (m : Memory) (a : Nat) (bs : List Byte) {c : Nat} (h : c < a ∨ a + bs.length ≤ c) :
    (m.writeBytes a bs).read c = m.read c := by
  induction bs generalizing m a with
  | nil => rfl
  | cons b bs ih =>
    simp only [List.length_cons] at h
    simp only [Memory.writeBytes]
    rw [ih _ _ (by omega)]
    exact Memory.read_write_other m b (by omega)

/-- A run of bytes reads back, byte by byte. -/
theorem Memory.read_writeBytes_inside {m : Memory} (h : m.wf = true) (a : Nat) (bs : List Byte) {i : Nat} (hi : i < bs.length) :
    (m.writeBytes a bs).read (a + i) = bs[i] := by
  induction bs generalizing m a i with
  | nil => simp at hi
  | cons b bs ih =>
    simp only [Memory.writeBytes]
    cases i with
    | zero =>
      rw [Nat.add_zero, Memory.read_writeBytes_outside _ _ _ (by omega)]
      exact Memory.read_write_same h a b
    | succ i =>
      have := ih (Memory.wf_write h a b) (a + 1) (i := i) (by simpa using hi)
      rw [show a + (i + 1) = a + 1 + i by omega, this]
      rfl

@[simp] theorem Memory.length_readBytes (m : Memory) (a n : Nat) : (m.readBytes a n).length = n := by
  induction n generalizing a with
  | zero => rfl
  | succ n ih => simp [Memory.readBytes, ih]

theorem Memory.getElem_readBytes (m : Memory) (a n : Nat) {i : Nat} (h : i < (m.readBytes a n).length) :
    (m.readBytes a n)[i] = m.read (a + i) := by
  induction n generalizing a i with
  | zero => simp at h
  | succ n ih =>
    cases i with
    | zero => rfl
    | succ i =>
      simp only [Memory.readBytes, List.getElem_cons_succ]
      rw [ih]
      congr 1; omega

/-- Reading a run just written gives it back. -/
theorem Memory.readBytes_writeBytes {m : Memory} (h : m.wf = true) (a : Nat) (bs : List Byte) :
    (m.writeBytes a bs).readBytes a bs.length = bs := by
  apply List.ext_getElem
  · simp
  · intro i h1 h2
    rw [Memory.getElem_readBytes, Memory.read_writeBytes_inside h a bs h2]

/-- A read of bytes that a write does not touch. -/
theorem Memory.readBytes_congr {m m' : Memory} {a n : Nat} (h : ∀ i < n, m.read (a + i) = m'.read (a + i)) :
    m.readBytes a n = m'.readBytes a n := by
  apply List.ext_getElem
  · simp
  · intro i h1 h2
    rw [Memory.getElem_readBytes, Memory.getElem_readBytes]
    exact h i (by simpa using h1)

/-- Canonical memories with the same reads are the same data. -/
theorem Memory.ext_of_wfAbove {lo : Nat} {m m' : Memory} (h : m.wfAbove lo = true) (h' : m'.wfAbove lo = true)
    (hr : ∀ a, m.read a = m'.read a) : m = m' := by
  induction m generalizing lo m' with
  | nil =>
    cases m' with
    | nil => rfl
    | cons e m' =>
      obtain ⟨k, b⟩ := e
      simp only [Memory.wfAbove, Bool.and_eq_true, decide_eq_true_eq] at h'
      have := hr k
      simp [Memory.read] at this
      exact absurd this.symm h'.1.2
  | cons e m ih =>
    obtain ⟨k, b⟩ := e
    simp only [Memory.wfAbove, Bool.and_eq_true, decide_eq_true_eq] at h
    cases m' with
    | nil =>
      have := hr k
      simp [Memory.read] at this
      exact absurd this h.1.2
    | cons e' m' =>
      obtain ⟨k', b'⟩ := e'
      simp only [Memory.wfAbove, Bool.and_eq_true, decide_eq_true_eq] at h'
      have hk : k = k' := by
        rcases Nat.lt_trichotomy k k' with hlt | heq | hgt
        · have := hr k
          have hne : k' ≠ k := by omega
          simp only [Memory.read, if_true, hne, if_false] at this
          rw [Memory.read_below h'.2 (by omega)] at this
          exact absurd this h.1.2
        · exact heq
        · have := hr k'
          have hne : k ≠ k' := by omega
          simp only [Memory.read, if_true, hne, if_false] at this
          rw [Memory.read_below h.2 (by omega)] at this
          exact absurd this.symm h'.1.2
      subst hk
      have hb : b = b' := by simpa [Memory.read] using hr k
      subst hb
      congr 1
      apply ih h.2 h'.2
      intro a
      by_cases ha : k = a
      · subst ha
        rw [Memory.read_below h.2 (by omega), Memory.read_below h'.2 (by omega)]
      · simpa [Memory.read, ha] using hr a

theorem Memory.ext_of_wf {m m' : Memory} (h : m.wf = true) (h' : m'.wf = true) (hr : ∀ a, m.read a = m'.read a) : m = m' :=
  Memory.ext_of_wfAbove h h' hr

/-! ### Byte order -/

@[simp] theorem length_leBytes (n : Nat) (v : Word) : (leBytes n v).length = n := by simp [leBytes]

theorem getElem_leBytes (n : Nat) (v : Word) {i : Nat} (h : i < (leBytes n v).length) : (leBytes n v)[i] = byteOf v i := by
  simp [leBytes]

theorem toNat_byteOf (v : Word) (i : Nat) : (byteOf v i).toNat = v.toNat / 2 ^ (8 * i) % 256 := by
  simp [byteOf, BitVec.extractLsb'_toNat, Nat.shiftRight_eq_div_pow]

theorem leNat_lt (bs : List Byte) : leNat bs < 256 ^ bs.length := by
  induction bs with
  | nil => simp [leNat]
  | cons b bs ih =>
    have := b.isLt
    simp only [leNat, List.length_cons, Nat.pow_succ]
    omega

/-- The four bytes of a word stand for the word. -/
@[simp] theorem leWord_leBytes_four (v : Word) : leWord (leBytes 4 v) = v := by
  apply BitVec.eq_of_toNat_eq
  have := v.isLt
  simp only [leWord, BitVec.toNat_ofNat, leBytes, List.range, List.range.loop, List.map, leNat, toNat_byteOf]
  omega

end Sys2Proof.Machine
end

