-- ==== Sys2Proof/Laws/State.lean ====
section
/-! SUPPORT. One lemma per field per update of State, and what each update does to a register read, so that no later proof unfolds
a record update. -/

namespace Sys2Proof.Machine

/-! ### `setPc` -/

@[simp] theorem State.setPc_nregs (s : State) (t : Word) : (s.setPc t).nregs = s.nregs := rfl
@[simp] theorem State.setPc_haltOnService (s : State) (t : Word) : (s.setPc t).haltOnService = s.haltOnService := rfl
@[simp] theorem State.setPc_bus (s : State) (t : Word) : (s.setPc t).bus = s.bus := rfl
@[simp] theorem State.setPc_regs (s : State) (t : Word) : (s.setPc t).regs = s.regs := rfl
@[simp] theorem State.setPc_pc (s : State) (t : Word) : (s.setPc t).pc = t := rfl
@[simp] theorem State.setPc_out (s : State) (t : Word) : (s.setPc t).out = s.out := rfl
@[simp] theorem State.setPc_svc (s : State) (t : Word) : (s.setPc t).svc = s.svc := rfl
@[simp] theorem State.setPc_status (s : State) (t : Word) : (s.setPc t).status = s.status := rfl
@[simp] theorem State.setPc_reg (s : State) (t : Word) (i : RegIdx) : (s.setPc t).reg i = s.reg i := rfl
@[simp] theorem State.setPc_hasReg (s : State) (t : Word) (i : RegIdx) : (s.setPc t).hasReg i = s.hasReg i := rfl

/-! ### `raise` -/

@[simp] theorem State.raise_nregs (s : State) (e : FatalError) : (s.raise e).nregs = s.nregs := rfl
@[simp] theorem State.raise_haltOnService (s : State) (e : FatalError) : (s.raise e).haltOnService = s.haltOnService := rfl
@[simp] theorem State.raise_bus (s : State) (e : FatalError) : (s.raise e).bus = s.bus := rfl
@[simp] theorem State.raise_regs (s : State) (e : FatalError) : (s.raise e).regs = s.regs := rfl
@[simp] theorem State.raise_pc (s : State) (e : FatalError) : (s.raise e).pc = s.pc := rfl
@[simp] theorem State.raise_out (s : State) (e : FatalError) : (s.raise e).out = s.out := rfl
@[simp] theorem State.raise_svc (s : State) (e : FatalError) : (s.raise e).svc = s.svc := rfl
@[simp] theorem State.raise_status (s : State) (e : FatalError) : (s.raise e).status = .faulted e := rfl
@[simp] theorem State.raise_reg (s : State) (e : FatalError) (i : RegIdx) : (s.raise e).reg i = s.reg i := rfl
@[simp] theorem State.raise_hasReg (s : State) (e : FatalError) (i : RegIdx) : (s.raise e).hasReg i = s.hasReg i := rfl

/-! ### `halt` -/

@[simp] theorem State.halt_nregs (s : State) (r : HaltReason) : (s.halt r).nregs = s.nregs := rfl
@[simp] theorem State.halt_haltOnService (s : State) (r : HaltReason) : (s.halt r).haltOnService = s.haltOnService := rfl
@[simp] theorem State.halt_bus (s : State) (r : HaltReason) : (s.halt r).bus = s.bus := rfl
@[simp] theorem State.halt_regs (s : State) (r : HaltReason) : (s.halt r).regs = s.regs := rfl
@[simp] theorem State.halt_pc (s : State) (r : HaltReason) : (s.halt r).pc = s.pc := rfl
@[simp] theorem State.halt_out (s : State) (r : HaltReason) : (s.halt r).out = s.out := rfl
@[simp] theorem State.halt_svc (s : State) (r : HaltReason) : (s.halt r).svc = s.svc := rfl
@[simp] theorem State.halt_status (s : State) (r : HaltReason) : (s.halt r).status = .halted r := rfl
@[simp] theorem State.halt_reg (s : State) (r : HaltReason) (i : RegIdx) : (s.halt r).reg i = s.reg i := rfl
@[simp] theorem State.halt_hasReg (s : State) (r : HaltReason) (i : RegIdx) : (s.halt r).hasReg i = s.hasReg i := rfl

/-! ### `pushSvc` -/

@[simp] theorem State.pushSvc_nregs (s : State) (k : SvcKind) : (s.pushSvc k).nregs = s.nregs := rfl
@[simp] theorem State.pushSvc_haltOnService (s : State) (k : SvcKind) : (s.pushSvc k).haltOnService = s.haltOnService := rfl
@[simp] theorem State.pushSvc_bus (s : State) (k : SvcKind) : (s.pushSvc k).bus = s.bus := rfl
@[simp] theorem State.pushSvc_regs (s : State) (k : SvcKind) : (s.pushSvc k).regs = s.regs := rfl
@[simp] theorem State.pushSvc_pc (s : State) (k : SvcKind) : (s.pushSvc k).pc = s.pc := rfl
@[simp] theorem State.pushSvc_out (s : State) (k : SvcKind) : (s.pushSvc k).out = s.out := rfl
@[simp] theorem State.pushSvc_svc (s : State) (k : SvcKind) : (s.pushSvc k).svc = s.svc ++ [{ kind := k, addr := s.instrAddr }] := rfl
@[simp] theorem State.pushSvc_status (s : State) (k : SvcKind) : (s.pushSvc k).status = s.status := rfl
@[simp] theorem State.pushSvc_reg (s : State) (k : SvcKind) (i : RegIdx) : (s.pushSvc k).reg i = s.reg i := rfl
@[simp] theorem State.pushSvc_hasReg (s : State) (k : SvcKind) (i : RegIdx) : (s.pushSvc k).hasReg i = s.hasReg i := rfl

/-! ### `setReg` -/

@[simp] theorem State.setReg_nregs (s : State) (i : RegIdx) (v : Word) : (s.setReg i v).nregs = s.nregs := by
  unfold State.setReg; split <;> rfl
@[simp] theorem State.setReg_haltOnService (s : State) (i : RegIdx) (v : Word) : (s.setReg i v).haltOnService = s.haltOnService := by
  unfold State.setReg; split <;> rfl
@[simp] theorem State.setReg_bus (s : State) (i : RegIdx) (v : Word) : (s.setReg i v).bus = s.bus := by
  unfold State.setReg; split <;> rfl
@[simp] theorem State.setReg_pc (s : State) (i : RegIdx) (v : Word) : (s.setReg i v).pc = s.pc := by
  unfold State.setReg; split <;> rfl
@[simp] theorem State.setReg_out (s : State) (i : RegIdx) (v : Word) : (s.setReg i v).out = s.out := by
  unfold State.setReg; split <;> rfl
@[simp] theorem State.setReg_svc (s : State) (i : RegIdx) (v : Word) : (s.setReg i v).svc = s.svc := by
  unfold State.setReg; split <;> rfl
@[simp] theorem State.setReg_status (s : State) (i : RegIdx) (v : Word) : (s.setReg i v).status = s.status := by
  unfold State.setReg; split <;> rfl
@[simp] theorem State.setReg_hasReg (s : State) (i j : RegIdx) (v : Word) : (s.setReg i v).hasReg j = s.hasReg j := by
  simp [State.hasReg]

/-- A write to x0 is discarded (R13). -/
@[simp] theorem State.setReg_zero (s : State) (v : Word) : s.setReg 0#5 v = s := by
  simp [State.setReg]

/-- x0 reads 0 (R12). -/
@[simp] theorem State.reg_zero (s : State) : s.reg 0#5 = 0#32 := by
  simp [State.reg]

/-- A nonzero index has a slot. -/
theorem RegIdx.slot_lt {i : RegIdx} (h : i ≠ 0#5) : i.toNat - 1 < 31 := by
  have := i.isLt
  have : i.toNat ≠ 0 := fun h0 => h (BitVec.eq_of_toNat_eq (by simpa using h0))
  omega

/-- Different nonzero indices have different slots. -/
theorem RegIdx.slot_ne {i j : RegIdx} (hi : i ≠ 0#5) (hj : j ≠ 0#5) (h : i ≠ j) : i.toNat - 1 ≠ j.toNat - 1 := by
  have h1 : i.toNat ≠ 0 := fun h0 => hi (BitVec.eq_of_toNat_eq (by simpa using h0))
  have h2 : j.toNat ≠ 0 := fun h0 => hj (BitVec.eq_of_toNat_eq (by simpa using h0))
  have h3 : i.toNat ≠ j.toNat := fun h0 => h (BitVec.eq_of_toNat_eq h0)
  omega

/-- The register written reads back (E2). -/
theorem State.reg_setReg_same (s : State) {i : RegIdx} (v : Word) (h : i ≠ 0#5) : (s.setReg i v).reg i = v := by
  simp [State.reg, State.setReg, h, Vector.getD, RegIdx.slot_lt h]

/-- A write changes no other register (R13). -/
theorem State.reg_setReg_other (s : State) {i j : RegIdx} (v : Word) (h : j ≠ i) : (s.setReg i v).reg j = s.reg j := by
  unfold State.setReg
  split
  · rfl
  · rename_i hi
    unfold State.reg
    split
    · rfl
    · rename_i hj
      have := RegIdx.slot_ne hi hj (Ne.symm h)
      simp [Vector.getD, RegIdx.slot_lt hj, this]

/-- Register reads after a write, in one equation. -/
theorem State.reg_setReg (s : State) (i j : RegIdx) (v : Word) :
    (s.setReg i v).reg j = if j = i ∧ i ≠ 0#5 then v else s.reg j := by
  by_cases hj : j = i
  · subst hj
    by_cases h0 : j = 0#5
    · subst h0; simp
    · simp [State.reg_setReg_same s v h0, h0]
  · simp [State.reg_setReg_other s v hj, hj]

end Sys2Proof.Machine
end

