-- ==== Sys2Proof/Laws/Bus.lean ====
section
/-! SUPPORT. What the bus does, said once: routing splits the list at the first covering peripheral; a store keeps every
peripheral's parameters; `memRead` and `memWrite` by cases; a read after a write. -/

namespace Sys2Proof.Machine

/-! ### Devices -/

theorem validWidth_iff {n : Nat} : validWidth n = true ↔ n = 1 ∨ n = 2 ∨ n = 4 := by
  simp [validWidth, or_assoc]

theorem MemoryDevice.covers_iff {d : MemoryDevice} {a : Word} :
    d.covers a = true ↔ d.base ≤ a.toNat ∧ a.toNat < d.base + d.size := by
  simp [MemoryDevice.covers]

theorem MemoryDevice.outside_eq_false_iff {d : MemoryDevice} {a : Word} {n : Nat} :
    d.outside a n = false ↔ d.base ≤ a.toNat ∧ a.toNat + n ≤ d.base + d.size := by
  simp only [MemoryDevice.outside, Bool.or_eq_false_iff, decide_eq_false_iff_not]
  omega

/-- A memory load answers a value exactly for a legal width inside the device. -/
theorem MemoryDevice.load_ok_iff {d : MemoryDevice} {a : Word} {n : Nat} {v : Word} :
    d.load a n = .ok v ↔ validWidth n = true ∧ d.outside a n = false ∧ v = leWord (d.buf.readBytes a.toNat n) := by
  unfold MemoryDevice.load
  by_cases hw : validWidth n = false
  · simp [hw]
  · by_cases ho : d.outside a n = true
    · simp [hw, ho]
    · simpa [hw, ho] using eq_comm

/-- A memory store succeeds exactly for a legal width inside the device. -/
theorem MemoryDevice.store_ok_iff {d d' : MemoryDevice} {a : Word} {n : Nat} {v : Word} :
    d.store a n v = .ok d' ↔
      validWidth n = true ∧ d.outside a n = false ∧ d' = { d with buf := d.buf.writeBytes a.toNat (leBytes n v) } := by
  unfold MemoryDevice.store
  by_cases hw : validWidth n = false
  · simp [hw]
  · by_cases ho : d.outside a n = true
    · simp [hw, ho]
    · simpa [hw, ho] using eq_comm

/-- A store keeps the device's parameters. -/
theorem MemoryDevice.store_params {d d' : MemoryDevice} {a : Word} {n : Nat} {v : Word} (h : d.store a n v = .ok d') :
    d'.base = d.base ∧ d'.size = d.size := by
  obtain ⟨-, -, rfl⟩ := MemoryDevice.store_ok_iff.1 h
  exact ⟨rfl, rfl⟩

/-- A store on a peripheral, by cases. -/
theorem Peripheral.store_cases {p p' : Peripheral} {a : Word} {n : Nat} {v : Word} {evs : List OutEvent}
    (h : p.store a n v = .ok (p', evs)) :
    validWidth n = true ∧
      ((∃ d, p = .memory d ∧ d.outside a n = false ∧
          p' = .memory { d with buf := d.buf.writeBytes a.toNat (leBytes n v) } ∧ evs = []) ∨
        (∃ port, p = .output port ∧ p' = .output port ∧ evs = [{ port := port, n := n, bytes := leBytes n v }])) := by
  cases p with
  | memory d =>
    simp only [Peripheral.store] at h
    split at h
    · cases h
    · rename_i d' hd
      obtain ⟨hw, ho, rfl⟩ := MemoryDevice.store_ok_iff.1 hd
      cases h
      exact ⟨hw, .inl ⟨d, rfl, ho, rfl, rfl⟩⟩
  | output port =>
    simp only [Peripheral.store, outputStore] at h
    split at h
    · cases h
    · rename_i evs' he
      split at he
      · cases he
      · rename_i hw
        cases he
        cases h
        exact ⟨by simpa using hw, .inr ⟨port, rfl, rfl, rfl⟩⟩

/-- A store changes no peripheral's coverage. -/
theorem Peripheral.store_covers {p p' : Peripheral} {a : Word} {n : Nat} {v : Word} {evs : List OutEvent}
    (h : p.store a n v = .ok (p', evs)) (x : Word) : p'.covers x = p.covers x := by
  obtain ⟨-, ⟨d, rfl, -, rfl, -⟩ | ⟨port, rfl, rfl, -⟩⟩ := Peripheral.store_cases h <;> rfl

/-- A store changes no peripheral's parameters. -/
theorem Peripheral.store_params {p p' : Peripheral} {a : Word} {n : Nat} {v : Word} {evs : List OutEvent}
    (h : p.store a n v = .ok (p', evs)) : p'.params = p.params := by
  obtain ⟨-, ⟨d, rfl, -, rfl, -⟩ | ⟨port, rfl, rfl, -⟩⟩ := Peripheral.store_cases h <;> rfl

/-! ### Routing -/

/-- `locate` finds the first peripheral that covers the address, and `replaceFirst` replaces exactly that one. -/
theorem locate_split {bus : List Peripheral} {a : Word} {p : Peripheral} (h : locate bus a = some p) :
    ∃ pre post, bus = pre ++ p :: post ∧ (∀ q ∈ pre, q.covers a = false) ∧ p.covers a = true ∧
      ∀ p', replaceFirst bus a p' = pre ++ p' :: post := by
  induction bus with
  | nil => simp [locate] at h
  | cons q qs ih =>
    by_cases hq : q.covers a = true
    · have : q = p := by simpa [locate, List.find?, hq] using h
      subst this
      exact ⟨[], qs, rfl, by simp, hq, fun p' => by simp [replaceFirst, hq]⟩
    · have hf : q.covers a = false := by simpa using hq
      have h' : locate qs a = some p := by simpa [locate, List.find?, hf] using h
      obtain ⟨pre, post, rfl, hpre, hp, hr⟩ := ih h'
      refine ⟨q :: pre, post, rfl, ?_, hp, fun p' => ?_⟩
      · intro r hr'
        rcases List.mem_cons.1 hr' with rfl | hr'
        · exact hf
        · exact hpre r hr'
      · simp [replaceFirst, hf, hr p']

/-- The first covering peripheral is the one located. -/
theorem locate_of_split {pre post : List Peripheral} {p : Peripheral} {a : Word} (hpre : ∀ q ∈ pre, q.covers a = false)
    (hp : p.covers a = true) : locate (pre ++ p :: post) a = some p := by
  induction pre with
  | nil => simp [locate, hp]
  | cons q qs ih =>
    have := ih (fun r hr => hpre r (List.mem_cons_of_mem _ hr))
    simpa [locate, List.find?, hpre q (List.mem_cons_self ..)] using this

theorem replaceFirst_of_split {pre post : List Peripheral} {p : Peripheral} {a : Word} (hpre : ∀ q ∈ pre, q.covers a = false)
    (hp : p.covers a = true) (p' : Peripheral) : replaceFirst (pre ++ p :: post) a p' = pre ++ p' :: post := by
  induction pre with
  | nil => simp [replaceFirst, hp]
  | cons q qs ih =>
    have := ih (fun r hr => hpre r (List.mem_cons_of_mem _ hr))
    simpa [replaceFirst, hpre q (List.mem_cons_self ..)] using this

theorem locate_eq_none_iff {bus : List Peripheral} {a : Word} : locate bus a = none ↔ ∀ p ∈ bus, p.covers a = false := by
  simp [locate]

/-- The located peripheral is on the bus and covers the address. -/
theorem locate_mem {bus : List Peripheral} {a : Word} {p : Peripheral} (h : locate bus a = some p) :
    p ∈ bus ∧ p.covers a = true := by
  obtain ⟨pre, post, rfl, -, hp, -⟩ := locate_split h
  exact ⟨by simp, hp⟩

/-! ### memRead and memWrite -/

/-- What `memWrite` can answer: the first covering peripheral is a memory device, whose bytes at the address become the low bytes of the
value, or an output device, which emits one event. -/
theorem memWrite_cases {s t : State} {a : Word} {n : Nat} {v : Word} (h : memWrite s a n v = .ok t) :
    validWidth n = true ∧
      ((∃ pre d post, s.bus = pre ++ .memory d :: post ∧ (∀ q ∈ pre, q.covers a = false) ∧ d.covers a = true ∧
          d.outside a n = false ∧
          t = { s with bus := pre ++ .memory { d with buf := d.buf.writeBytes a.toNat (leBytes n v) } :: post }) ∨
        (∃ pre post, s.bus = pre ++ .output a :: post ∧ (∀ q ∈ pre, q.covers a = false) ∧
          t = { s with out := s.out ++ [{ port := a, n := n, bytes := leBytes n v }] })) := by
  unfold memWrite at h
  split at h
  · cases h
  · rename_i p hl
    obtain ⟨pre, post, hb, hpre, hp, hr⟩ := locate_split hl
    split at h
    · cases h
    · rename_i p' evs hs
      cases h
      obtain ⟨hw, ⟨d, rfl, ho, rfl, rfl⟩ | ⟨port, rfl, rfl, rfl⟩⟩ := Peripheral.store_cases hs
      · refine ⟨hw, .inl ⟨pre, d, post, hb, hpre, hp, ho, ?_⟩⟩
        simp [hr]
      · have hport : a = port := by simpa [Peripheral.covers] using hp
        subst hport
        refine ⟨hw, .inr ⟨pre, post, hb, hpre, ?_⟩⟩
        rw [hr, ← hb]

/-- `memRead` at a memory device reached first. -/
theorem memRead_of_split {s : State} {pre post : List Peripheral} {p : Peripheral} {a : Word} (n : Nat)
    (hb : s.bus = pre ++ p :: post) (hpre : ∀ q ∈ pre, q.covers a = false) (hp : p.covers a = true) :
    memRead s a n = p.load a n := by
  simp [memRead, hb, locate_of_split hpre hp]

/-- `memWrite` at the peripheral reached first. -/
theorem memWrite_of_split {s : State} {pre post : List Peripheral} {p : Peripheral} {a : Word} (n : Nat) (v : Word)
    (hb : s.bus = pre ++ p :: post) (hpre : ∀ q ∈ pre, q.covers a = false) (hp : p.covers a = true) :
    memWrite s a n v = match p.store a n v with
      | .error e => .error e
      | .ok (p', evs) => .ok { s with bus := pre ++ p' :: post, out := s.out ++ evs } := by
  simp only [memWrite, hb, locate_of_split hpre hp]
  cases p.store a n v with
  | error e => rfl
  | ok r => simp [replaceFirst_of_split hpre hp]

/-- A write leaves everything but the bus and `out`. -/
theorem memWrite_frame {s t : State} {a : Word} {n : Nat} {v : Word} (h : memWrite s a n v = .ok t) :
    t = { s with bus := t.bus, out := t.out } := by
  obtain ⟨-, ⟨pre, d, post, -, -, -, -, rfl⟩ | ⟨pre, post, -, -, rfl⟩⟩ := memWrite_cases h <;> rfl

/-- A write keeps the bus's parameters. -/
theorem memWrite_params {s t : State} {a : Word} {n : Nat} {v : Word} (h : memWrite s a n v = .ok t) :
    t.bus.map Peripheral.params = s.bus.map Peripheral.params := by
  obtain ⟨-, ⟨pre, d, post, hb, -, -, -, rfl⟩ | ⟨pre, post, -, -, rfl⟩⟩ := memWrite_cases h
  · rw [hb]; simp [Peripheral.params]
  · rfl

/-- The errors of a read, for a legal width: no covering peripheral, or past the end of a memory device. -/
theorem memRead_error {s : State} {a : Word} {n : Nat} {e : FatalError} (hn : validWidth n = true) (h : memRead s a n = .error e) :
    (e = .unmappedAddress a ∧ ∀ p ∈ s.bus, p.covers a = false) ∨
      (e = .outOfRange a ∧ ∃ d, locate s.bus a = some (.memory d) ∧ d.outside a n = true) := by
  unfold memRead at h
  split at h
  · rename_i hl
    cases h
    exact .inl ⟨rfl, locate_eq_none_iff.1 hl⟩
  · rename_i p hl
    cases p with
    | memory d =>
      simp only [Peripheral.load, MemoryDevice.load, hn, Bool.true_eq_false, if_false] at h
      split at h
      · rename_i ho
        cases h
        exact .inr ⟨rfl, d, hl, ho⟩
      · cases h
    | output port => simp [Peripheral.load, outputLoad, hn] at h

/-- The errors of a write, for a legal width. -/
theorem memWrite_error {s : State} {a : Word} {n : Nat} {v : Word} {e : FatalError} (hn : validWidth n = true)
    (h : memWrite s a n v = .error e) :
    (e = .unmappedAddress a ∧ ∀ p ∈ s.bus, p.covers a = false) ∨
      (e = .outOfRange a ∧ ∃ d, locate s.bus a = some (.memory d) ∧ d.outside a n = true) := by
  unfold memWrite at h
  split at h
  · rename_i hl
    cases h
    exact .inl ⟨rfl, locate_eq_none_iff.1 hl⟩
  · rename_i p hl
    cases p with
    | memory d =>
      simp only [Peripheral.store, MemoryDevice.store, hn, Bool.true_eq_false, if_false] at h
      by_cases ho : d.outside a n = true
      · simp only [ho, if_true] at h
        cases h
        exact .inr ⟨rfl, d, hl, ho⟩
      · simp [ho] at h
    | output port => simp [Peripheral.store, outputStore, hn] at h

/-- A memory read does not look past the bus. -/
theorem memRead_congr {s t : State} (h : t.bus = s.bus) (a : Word) (n : Nat) : memRead t a n = memRead s a n := by
  simp [memRead, h]

/-! ### The well-formed bus -/

theorem MemoryDevice.wf_iff {d : MemoryDevice} :
    d.wf = true ↔ 1 ≤ d.size ∧ d.base + d.size ≤ 2 ^ 32 ∧ d.buf.wf = true ∧
      ∀ c ∈ d.buf, d.base ≤ c.1 ∧ c.1 < d.base + d.size := by
  simp [MemoryDevice.wf, and_assoc]

/-- A cell of a written memory was there before or is the one written. -/
theorem Memory.mem_write {m : Memory} {a : Nat} {b : Byte} {c : Host.Cell} (h : c ∈ m.write a b) : c ∈ m ∨ c.1 = a := by
  induction m with
  | nil =>
    unfold Memory.write at h
    split at h
    · exact absurd h (by simp)
    · right; simp at h; simp [h]
  | cons e m ih =>
    obtain ⟨k, d⟩ := e
    unfold Memory.write at h
    split at h
    · split at h
      · exact .inl h
      · rcases List.mem_cons.1 h with rfl | h
        · exact .inr rfl
        · exact .inl h
    · split at h
      · split at h
        · exact .inl (List.mem_cons_of_mem _ h)
        · rcases List.mem_cons.1 h with rfl | h
          · exact .inr rfl
          · exact .inl (List.mem_cons_of_mem _ h)
      · rcases List.mem_cons.1 h with rfl | h
        · exact .inl (List.mem_cons_self ..)
        · rcases ih h with h | h
          · exact .inl (List.mem_cons_of_mem _ h)
          · exact .inr h

theorem Memory.mem_writeBytes {m : Memory} {a : Nat} {bs : List Byte} {c : Host.Cell} (h : c ∈ m.writeBytes a bs) :
    c ∈ m ∨ (a ≤ c.1 ∧ c.1 < a + bs.length) := by
  induction bs generalizing m a with
  | nil => exact .inl h
  | cons b bs ih =>
    rcases ih h with h | h
    · rcases Memory.mem_write h with h | h
      · exact .inl h
      · exact .inr (by simp only [List.length_cons]; omega)
    · exact .inr (by simp only [List.length_cons]; omega)

/-- A store inside a well-formed device leaves it well formed. -/
theorem MemoryDevice.wf_writeBytes {d : MemoryDevice} (h : d.wf = true) {a : Word} {n : Nat} (v : Word)
    (ho : d.outside a n = false) : ({ d with buf := d.buf.writeBytes a.toNat (leBytes n v) } : MemoryDevice).wf = true := by
  obtain ⟨h1, h2, h3, h4⟩ := MemoryDevice.wf_iff.1 h
  have hb := MemoryDevice.outside_eq_false_iff.1 ho
  refine MemoryDevice.wf_iff.2 ⟨h1, h2, Memory.wf_writeBytes h3 _ _, fun c hc => ?_⟩
  rcases Memory.mem_writeBytes hc with hc | hc
  · exact h4 c hc
  · simp only [length_leBytes] at hc
    exact ⟨Nat.le_trans hb.1 hc.1, Nat.lt_of_lt_of_le hc.2 hb.2⟩

/-- A write keeps the bus well formed. -/
theorem memWrite_busWf {s t : State} {a : Word} {n : Nat} {v : Word} (hs : s.busWf = true) (h : memWrite s a n v = .ok t) :
    t.busWf = true := by
  obtain ⟨-, ⟨pre, d, post, hb, -, -, ho, rfl⟩ | ⟨pre, post, -, -, rfl⟩⟩ := memWrite_cases h
  · simp only [State.busWf, hb, List.all_append, List.all_cons, Bool.and_eq_true, Peripheral.wf] at hs ⊢
    exact ⟨hs.1, MemoryDevice.wf_writeBytes hs.2.1 v ho, hs.2.2⟩
  · exact hs

/-- Every memory device on a well-formed bus is well formed. -/
theorem State.busWf_mem {s : State} (h : s.busWf = true) {d : MemoryDevice} (hd : Peripheral.memory d ∈ s.bus) : d.wf = true := by
  simpa [Peripheral.wf] using List.all_eq_true.1 h _ hd

/-- Loading the four bytes just stored gives the word back. -/
theorem MemoryDevice.load_store_four {d d' : MemoryDevice} (hd : d.buf.wf = true) {a v : Word} (h : d.store a 4 v = .ok d') :
    d'.load a 4 = .ok v := by
  obtain ⟨hw, ho, rfl⟩ := MemoryDevice.store_ok_iff.1 h
  refine MemoryDevice.load_ok_iff.2 ⟨hw, ho, ?_⟩
  have := Memory.readBytes_writeBytes hd a.toNat (leBytes 4 v)
  simp only [length_leBytes] at this
  simp [this]

end Sys2Proof.Machine
end

