-- ==== Sys2Proof/Laws/Encoding.lean ====
section
/-! SUPPORT. Words as numbers: the fields of a word are quotients and remainders by powers of two, an encoded word is the sum of its
fields at their places (30_encoding.md R71, R72), and each field of an encoded word reads back what the encoder put there. -/

namespace Sys2Proof

/-! ### A field's number -/

theorem toNat_append_add {v w : Nat} (x : BitVec v) (y : BitVec w) : (x ++ y).toNat = x.toNat * 2 ^ w + y.toNat := by
  rw [BitVec.toNat_append, Nat.shiftLeft_eq, ← Nat.shiftLeft_eq, Nat.shiftLeft_add_eq_or_of_lt y.isLt]

theorem toNat_extract {n : Nat} (x : BitVec n) (lo len : Nat) : (x.extractLsb' lo len).toNat = x.toNat / 2 ^ lo % 2 ^ len := by
  rw [BitVec.extractLsb'_toNat, Nat.shiftRight_eq_div_pow]

theorem toNat_opcodeOf (w : Word) : (opcodeOf w).toNat = w.toNat / 2 ^ 0 % 2 ^ 7 := toNat_extract w 0 7

theorem toNat_rdOf (w : Word) : (rdOf w).toNat = w.toNat / 2 ^ 7 % 2 ^ 5 := toNat_extract w 7 5

theorem toNat_funct3Of (w : Word) : (funct3Of w).toNat = w.toNat / 2 ^ 12 % 2 ^ 3 := toNat_extract w 12 3

theorem toNat_rs1Of (w : Word) : (rs1Of w).toNat = w.toNat / 2 ^ 15 % 2 ^ 5 := toNat_extract w 15 5

theorem toNat_rs2Of (w : Word) : (rs2Of w).toNat = w.toNat / 2 ^ 20 % 2 ^ 5 := toNat_extract w 20 5

theorem toNat_funct7Of (w : Word) : (funct7Of w).toNat = w.toNat / 2 ^ 25 % 2 ^ 7 := toNat_extract w 25 7

theorem toNat_shamtOf (w : Word) : (shamtOf w).toNat = w.toNat / 2 ^ 20 % 2 ^ 5 := toNat_extract w 20 5

theorem toNat_immIField (w : Word) : (immIField w).toNat = w.toNat / 2 ^ 20 % 2 ^ 12 := toNat_extract w 20 12

theorem toNat_immUField (w : Word) : (immUField w).toNat = w.toNat / 2 ^ 12 % 2 ^ 20 := toNat_extract w 12 20

/-! ### The scattered immediates as numbers (R75, R76, R78) -/

theorem toNat_immSField (w : Word) : (immSField w).toNat =
    (w.toNat / 2 ^ 25 % 2 ^ 7) * 2 ^ 5 + w.toNat / 2 ^ 7 % 2 ^ 5 := by
  have h1 := toNat_append_add (w.extractLsb' 25 7) (w.extractLsb' 7 5)
  unfold immSField
  exact h1.trans (by simp only [toNat_extract])

theorem toNat_immBField (w : Word) : (immBField w).toNat =
    ((((w.toNat / 2 ^ 31 % 2 ^ 1) * 2 ^ 1 + w.toNat / 2 ^ 7 % 2 ^ 1) * 2 ^ 6 + w.toNat / 2 ^ 25 % 2 ^ 6) * 2 ^ 4 + w.toNat / 2 ^ 8 % 2 ^ 4) * 2 ^ 1 + 0 := by
  have h1 := toNat_append_add (w.extractLsb' 31 1) (w.extractLsb' 7 1)
  have h2 := toNat_append_add (w.extractLsb' 31 1 ++ w.extractLsb' 7 1) (w.extractLsb' 25 6)
  have h3 := toNat_append_add (w.extractLsb' 31 1 ++ w.extractLsb' 7 1 ++ w.extractLsb' 25 6) (w.extractLsb' 8 4)
  have h4 := toNat_append_add (w.extractLsb' 31 1 ++ w.extractLsb' 7 1 ++ w.extractLsb' 25 6 ++ w.extractLsb' 8 4) (0#1)
  unfold immBField
  exact h4.trans (by simp only [h1, h2, h3, toNat_extract, BitVec.toNat_ofNat, Nat.zero_mod])

theorem toNat_immJField (w : Word) : (immJField w).toNat =
    ((((w.toNat / 2 ^ 31 % 2 ^ 1) * 2 ^ 8 + w.toNat / 2 ^ 12 % 2 ^ 8) * 2 ^ 1 + w.toNat / 2 ^ 20 % 2 ^ 1) * 2 ^ 10 + w.toNat / 2 ^ 21 % 2 ^ 10) * 2 ^ 1 + 0 := by
  have h1 := toNat_append_add (w.extractLsb' 31 1) (w.extractLsb' 12 8)
  have h2 := toNat_append_add (w.extractLsb' 31 1 ++ w.extractLsb' 12 8) (w.extractLsb' 20 1)
  have h3 := toNat_append_add (w.extractLsb' 31 1 ++ w.extractLsb' 12 8 ++ w.extractLsb' 20 1) (w.extractLsb' 21 10)
  have h4 := toNat_append_add (w.extractLsb' 31 1 ++ w.extractLsb' 12 8 ++ w.extractLsb' 20 1 ++ w.extractLsb' 21 10) (0#1)
  unfold immJField
  exact h4.trans (by simp only [h1, h2, h3, toNat_extract, BitVec.toNat_ofNat, Nat.zero_mod])

/-! ### Encoded words as numbers (R72) -/

theorem toNat_encodeR (f7 : BitVec 7) (rs2 rs1 : RegIdx) (f3 : BitVec 3) (rd : RegIdx) (op : BitVec 7) : (encodeR f7 rs2 rs1 f3 rd op).toNat =
    (((((f7.toNat) * 2 ^ 5 + rs2.toNat) * 2 ^ 5 + rs1.toNat) * 2 ^ 3 + f3.toNat) * 2 ^ 5 + rd.toNat) * 2 ^ 7 + op.toNat := by
  have h1 := toNat_append_add (f7) (rs2)
  have h2 := toNat_append_add (f7 ++ rs2) (rs1)
  have h3 := toNat_append_add (f7 ++ rs2 ++ rs1) (f3)
  have h4 := toNat_append_add (f7 ++ rs2 ++ rs1 ++ f3) (rd)
  have h5 := toNat_append_add (f7 ++ rs2 ++ rs1 ++ f3 ++ rd) (op)
  unfold encodeR
  exact h5.trans (by simp only [h1, h2, h3, h4])

theorem toNat_encodeI (imm : BitVec 12) (rs1 : RegIdx) (f3 : BitVec 3) (rd : RegIdx) (op : BitVec 7) : (encodeI imm rs1 f3 rd op).toNat =
    ((((imm.toNat) * 2 ^ 5 + rs1.toNat) * 2 ^ 3 + f3.toNat) * 2 ^ 5 + rd.toNat) * 2 ^ 7 + op.toNat := by
  have h1 := toNat_append_add (imm) (rs1)
  have h2 := toNat_append_add (imm ++ rs1) (f3)
  have h3 := toNat_append_add (imm ++ rs1 ++ f3) (rd)
  have h4 := toNat_append_add (imm ++ rs1 ++ f3 ++ rd) (op)
  unfold encodeI
  exact h4.trans (by simp only [h1, h2, h3])

theorem toNat_encodeU (imm : BitVec 20) (rd : RegIdx) (op : BitVec 7) : (encodeU imm rd op).toNat =
    ((imm.toNat) * 2 ^ 5 + rd.toNat) * 2 ^ 7 + op.toNat := by
  have h1 := toNat_append_add (imm) (rd)
  have h2 := toNat_append_add (imm ++ rd) (op)
  unfold encodeU
  exact h2.trans (by simp only [h1])

theorem toNat_encodeFence (x : BitVec 25) : (encode (.fence x)).toNat =
    (x.toNat) * 2 ^ 7 + opFence.toNat := by
  have h1 := toNat_append_add (x) (opFence)
  unfold encode
  exact h1.trans (by simp only [])

/-! ### Fields of encoded words -/

/-- "always even" (R76, R78), as numbers. -/
theorem evenOffset_iff {n : Nat} (off : BitVec n) : evenOffset off = true ↔ off.toNat % 2 = 0 := by
  simp [evenOffset, BitVec.getLsbD, Nat.testBit_zero]

@[simp] theorem opcodeOf_encodeR (f7 : BitVec 7) (rs2 rs1 : RegIdx) (f3 : BitVec 3) (rd : RegIdx) (op : BitVec 7) : opcodeOf (encodeR f7 rs2 rs1 f3 rd op) = op := by
  apply BitVec.eq_of_toNat_eq
  rw [toNat_opcodeOf, toNat_encodeR]
  have := f7.isLt
  have := rs2.isLt
  have := rs1.isLt
  have := f3.isLt
  have := rd.isLt
  have := op.isLt
  omega

@[simp] theorem rdOf_encodeR (f7 : BitVec 7) (rs2 rs1 : RegIdx) (f3 : BitVec 3) (rd : RegIdx) (op : BitVec 7) : rdOf (encodeR f7 rs2 rs1 f3 rd op) = rd := by
  apply BitVec.eq_of_toNat_eq
  rw [toNat_rdOf, toNat_encodeR]
  have := f7.isLt
  have := rs2.isLt
  have := rs1.isLt
  have := f3.isLt
  have := rd.isLt
  have := op.isLt
  omega

@[simp] theorem funct3Of_encodeR (f7 : BitVec 7) (rs2 rs1 : RegIdx) (f3 : BitVec 3) (rd : RegIdx) (op : BitVec 7) : funct3Of (encodeR f7 rs2 rs1 f3 rd op) = f3 := by
  apply BitVec.eq_of_toNat_eq
  rw [toNat_funct3Of, toNat_encodeR]
  have := f7.isLt
  have := rs2.isLt
  have := rs1.isLt
  have := f3.isLt
  have := rd.isLt
  have := op.isLt
  omega

@[simp] theorem rs1Of_encodeR (f7 : BitVec 7) (rs2 rs1 : RegIdx) (f3 : BitVec 3) (rd : RegIdx) (op : BitVec 7) : rs1Of (encodeR f7 rs2 rs1 f3 rd op) = rs1 := by
  apply BitVec.eq_of_toNat_eq
  rw [toNat_rs1Of, toNat_encodeR]
  have := f7.isLt
  have := rs2.isLt
  have := rs1.isLt
  have := f3.isLt
  have := rd.isLt
  have := op.isLt
  omega

@[simp] theorem rs2Of_encodeR (f7 : BitVec 7) (rs2 rs1 : RegIdx) (f3 : BitVec 3) (rd : RegIdx) (op : BitVec 7) : rs2Of (encodeR f7 rs2 rs1 f3 rd op) = rs2 := by
  apply BitVec.eq_of_toNat_eq
  rw [toNat_rs2Of, toNat_encodeR]
  have := f7.isLt
  have := rs2.isLt
  have := rs1.isLt
  have := f3.isLt
  have := rd.isLt
  have := op.isLt
  omega

@[simp] theorem funct7Of_encodeR (f7 : BitVec 7) (rs2 rs1 : RegIdx) (f3 : BitVec 3) (rd : RegIdx) (op : BitVec 7) : funct7Of (encodeR f7 rs2 rs1 f3 rd op) = f7 := by
  apply BitVec.eq_of_toNat_eq
  rw [toNat_funct7Of, toNat_encodeR]
  have := f7.isLt
  have := rs2.isLt
  have := rs1.isLt
  have := f3.isLt
  have := rd.isLt
  have := op.isLt
  omega

@[simp] theorem shamtOf_encodeR (f7 : BitVec 7) (rs2 rs1 : RegIdx) (f3 : BitVec 3) (rd : RegIdx) (op : BitVec 7) : shamtOf (encodeR f7 rs2 rs1 f3 rd op) = rs2 := by
  apply BitVec.eq_of_toNat_eq
  rw [toNat_shamtOf, toNat_encodeR]
  have := f7.isLt
  have := rs2.isLt
  have := rs1.isLt
  have := f3.isLt
  have := rd.isLt
  have := op.isLt
  omega

@[simp] theorem opcodeOf_encodeI (imm : BitVec 12) (rs1 : RegIdx) (f3 : BitVec 3) (rd : RegIdx) (op : BitVec 7) : opcodeOf (encodeI imm rs1 f3 rd op) = op := by
  apply BitVec.eq_of_toNat_eq
  rw [toNat_opcodeOf, toNat_encodeI]
  have := imm.isLt
  have := rs1.isLt
  have := f3.isLt
  have := rd.isLt
  have := op.isLt
  omega

@[simp] theorem rdOf_encodeI (imm : BitVec 12) (rs1 : RegIdx) (f3 : BitVec 3) (rd : RegIdx) (op : BitVec 7) : rdOf (encodeI imm rs1 f3 rd op) = rd := by
  apply BitVec.eq_of_toNat_eq
  rw [toNat_rdOf, toNat_encodeI]
  have := imm.isLt
  have := rs1.isLt
  have := f3.isLt
  have := rd.isLt
  have := op.isLt
  omega

@[simp] theorem funct3Of_encodeI (imm : BitVec 12) (rs1 : RegIdx) (f3 : BitVec 3) (rd : RegIdx) (op : BitVec 7) : funct3Of (encodeI imm rs1 f3 rd op) = f3 := by
  apply BitVec.eq_of_toNat_eq
  rw [toNat_funct3Of, toNat_encodeI]
  have := imm.isLt
  have := rs1.isLt
  have := f3.isLt
  have := rd.isLt
  have := op.isLt
  omega

@[simp] theorem rs1Of_encodeI (imm : BitVec 12) (rs1 : RegIdx) (f3 : BitVec 3) (rd : RegIdx) (op : BitVec 7) : rs1Of (encodeI imm rs1 f3 rd op) = rs1 := by
  apply BitVec.eq_of_toNat_eq
  rw [toNat_rs1Of, toNat_encodeI]
  have := imm.isLt
  have := rs1.isLt
  have := f3.isLt
  have := rd.isLt
  have := op.isLt
  omega

@[simp] theorem immIField_encodeI (imm : BitVec 12) (rs1 : RegIdx) (f3 : BitVec 3) (rd : RegIdx) (op : BitVec 7) : immIField (encodeI imm rs1 f3 rd op) = imm := by
  apply BitVec.eq_of_toNat_eq
  rw [toNat_immIField, toNat_encodeI]
  have := imm.isLt
  have := rs1.isLt
  have := f3.isLt
  have := rd.isLt
  have := op.isLt
  omega

@[simp] theorem opcodeOf_encodeU (imm : BitVec 20) (rd : RegIdx) (op : BitVec 7) : opcodeOf (encodeU imm rd op) = op := by
  apply BitVec.eq_of_toNat_eq
  rw [toNat_opcodeOf, toNat_encodeU]
  have := imm.isLt
  have := rd.isLt
  have := op.isLt
  omega

@[simp] theorem rdOf_encodeU (imm : BitVec 20) (rd : RegIdx) (op : BitVec 7) : rdOf (encodeU imm rd op) = rd := by
  apply BitVec.eq_of_toNat_eq
  rw [toNat_rdOf, toNat_encodeU]
  have := imm.isLt
  have := rd.isLt
  have := op.isLt
  omega

@[simp] theorem immUField_encodeU (imm : BitVec 20) (rd : RegIdx) (op : BitVec 7) : immUField (encodeU imm rd op) = imm := by
  apply BitVec.eq_of_toNat_eq
  rw [toNat_immUField, toNat_encodeU]
  have := imm.isLt
  have := rd.isLt
  have := op.isLt
  omega

/-! The S and B formats are the R format, and J the U format, with their immediates in the places of the other fields (R72). -/

theorem encodeS_eq_encodeR (imm : BitVec 12) (rs2 rs1 : RegIdx) (f3 : BitVec 3) (op : BitVec 7) :
    encodeS imm rs2 rs1 f3 op = encodeR (imm.extractLsb' 5 7) rs2 rs1 f3 (imm.extractLsb' 0 5) op := rfl

theorem encodeB_eq_encodeR (off : BitVec 13) (rs2 rs1 : RegIdx) (f3 : BitVec 3) (op : BitVec 7) :
    encodeB off rs2 rs1 f3 op =
      encodeR (off.extractLsb' 12 1 ++ off.extractLsb' 5 6) rs2 rs1 f3 (off.extractLsb' 1 4 ++ off.extractLsb' 11 1) op := by
  apply BitVec.eq_of_toNat_eq
  rw [toNat_encodeR, toNat_append_add (off.extractLsb' 12 1) (off.extractLsb' 5 6),
    toNat_append_add (off.extractLsb' 1 4) (off.extractLsb' 11 1)]
  unfold encodeB
  generalize off.extractLsb' 12 1 = a
  generalize off.extractLsb' 5 6 = b
  generalize off.extractLsb' 1 4 = c
  generalize off.extractLsb' 11 1 = d
  have h1 := toNat_append_add (a) (b)
  have h2 := toNat_append_add (a ++ b) (rs2)
  have h3 := toNat_append_add (a ++ b ++ rs2) (rs1)
  have h4 := toNat_append_add (a ++ b ++ rs2 ++ rs1) (f3)
  have h5 := toNat_append_add (a ++ b ++ rs2 ++ rs1 ++ f3) (c)
  have h6 := toNat_append_add (a ++ b ++ rs2 ++ rs1 ++ f3 ++ c) (d)
  have h7 := toNat_append_add (a ++ b ++ rs2 ++ rs1 ++ f3 ++ c ++ d) (op)
  refine h7.trans ?_
  rw [h6, h5, h4, h3, h2, h1]
  omega

theorem encodeJ_eq_encodeU (off : BitVec 21) (rd : RegIdx) (op : BitVec 7) :
    encodeJ off rd op = encodeU
      (off.extractLsb' 20 1 ++ off.extractLsb' 1 10 ++ off.extractLsb' 11 1 ++ off.extractLsb' 12 8) rd op := rfl

@[simp] theorem opcodeOf_encodeS (imm : BitVec 12) (rs2 rs1 : RegIdx) (f3 : BitVec 3) (op : BitVec 7) : opcodeOf (encodeS imm rs2 rs1 f3 op) = op := by
  rw [encodeS_eq_encodeR]; simp

@[simp] theorem funct3Of_encodeS (imm : BitVec 12) (rs2 rs1 : RegIdx) (f3 : BitVec 3) (op : BitVec 7) : funct3Of (encodeS imm rs2 rs1 f3 op) = f3 := by
  rw [encodeS_eq_encodeR]; simp

@[simp] theorem rs1Of_encodeS (imm : BitVec 12) (rs2 rs1 : RegIdx) (f3 : BitVec 3) (op : BitVec 7) : rs1Of (encodeS imm rs2 rs1 f3 op) = rs1 := by
  rw [encodeS_eq_encodeR]; simp

@[simp] theorem rs2Of_encodeS (imm : BitVec 12) (rs2 rs1 : RegIdx) (f3 : BitVec 3) (op : BitVec 7) : rs2Of (encodeS imm rs2 rs1 f3 op) = rs2 := by
  rw [encodeS_eq_encodeR]; simp

@[simp] theorem opcodeOf_encodeB (off : BitVec 13) (rs2 rs1 : RegIdx) (f3 : BitVec 3) (op : BitVec 7) : opcodeOf (encodeB off rs2 rs1 f3 op) = op := by
  rw [encodeB_eq_encodeR]; simp

@[simp] theorem funct3Of_encodeB (off : BitVec 13) (rs2 rs1 : RegIdx) (f3 : BitVec 3) (op : BitVec 7) : funct3Of (encodeB off rs2 rs1 f3 op) = f3 := by
  rw [encodeB_eq_encodeR]; simp

@[simp] theorem rs1Of_encodeB (off : BitVec 13) (rs2 rs1 : RegIdx) (f3 : BitVec 3) (op : BitVec 7) : rs1Of (encodeB off rs2 rs1 f3 op) = rs1 := by
  rw [encodeB_eq_encodeR]; simp

@[simp] theorem rs2Of_encodeB (off : BitVec 13) (rs2 rs1 : RegIdx) (f3 : BitVec 3) (op : BitVec 7) : rs2Of (encodeB off rs2 rs1 f3 op) = rs2 := by
  rw [encodeB_eq_encodeR]; simp

@[simp] theorem opcodeOf_encodeJ (off : BitVec 21) (rd : RegIdx) (op : BitVec 7) : opcodeOf (encodeJ off rd op) = op := by
  rw [encodeJ_eq_encodeU]; simp

@[simp] theorem rdOf_encodeJ (off : BitVec 21) (rd : RegIdx) (op : BitVec 7) : rdOf (encodeJ off rd op) = rd := by
  rw [encodeJ_eq_encodeU]; simp

/-- A field of a field. -/
theorem extract_extract {n : Nat} (x : BitVec n) (lo len lo' len' : Nat) (h : lo' + len' ≤ len) :
    (x.extractLsb' lo len).extractLsb' lo' len' = x.extractLsb' (lo + lo') len' := by
  apply BitVec.eq_of_getLsbD_eq
  intro i hi
  have : lo' + i < len := by omega
  simp only [BitVec.getLsbD_extractLsb', hi, this, decide_true, Bool.true_and, Nat.add_assoc]

theorem immSField_eq (w : Word) : immSField w = funct7Of w ++ rdOf w := rfl

theorem immBField_eq (w : Word) : immBField w =
    (funct7Of w).extractLsb' 6 1 ++ (rdOf w).extractLsb' 0 1 ++ (funct7Of w).extractLsb' 0 6 ++ (rdOf w).extractLsb' 1 4 ++ 0#1 := by
  unfold immBField funct7Of rdOf
  rw [extract_extract _ _ _ _ _ (by decide), extract_extract _ _ _ _ _ (by decide),
    extract_extract _ _ _ _ _ (by decide), extract_extract _ _ _ _ _ (by decide)]

theorem immJField_eq (w : Word) : immJField w =
    (immUField w).extractLsb' 19 1 ++ (immUField w).extractLsb' 0 8 ++ (immUField w).extractLsb' 8 1 ++
      (immUField w).extractLsb' 9 10 ++ 0#1 := by
  unfold immJField immUField
  rw [extract_extract _ _ _ _ _ (by decide), extract_extract _ _ _ _ _ (by decide),
    extract_extract _ _ _ _ _ (by decide), extract_extract _ _ _ _ _ (by decide)]

/-- Five pieces side by side, as a number. -/
theorem toNat_five {p q r s u : Nat} (a : BitVec p) (b : BitVec q) (c : BitVec r) (d : BitVec s) (e : BitVec u) :
    (a ++ b ++ c ++ d ++ e).toNat =
      (((a.toNat * 2 ^ q + b.toNat) * 2 ^ r + c.toNat) * 2 ^ s + d.toNat) * 2 ^ u + e.toNat := by
  rw [toNat_append_add, toNat_append_add, toNat_append_add, toNat_append_add]

@[simp] theorem immSField_encodeS (imm : BitVec 12) (rs2 rs1 : RegIdx) (f3 : BitVec 3) (op : BitVec 7) :
    immSField (encodeS imm rs2 rs1 f3 op) = imm := by
  rw [immSField_eq, encodeS_eq_encodeR, funct7Of_encodeR, rdOf_encodeR]
  apply BitVec.eq_of_toNat_eq
  have h := toNat_append_add (imm.extractLsb' 5 7) (imm.extractLsb' 0 5)
  have := imm.isLt
  rw [h, toNat_extract, toNat_extract]
  omega

theorem immBField_encodeB (off : BitVec 13) (rs2 rs1 : RegIdx) (f3 : BitVec 3) (op : BitVec 7) (h : evenOffset off = true) :
    immBField (encodeB off rs2 rs1 f3 op) = off := by
  rw [immBField_eq, encodeB_eq_encodeR, funct7Of_encodeR, rdOf_encodeR]
  apply BitVec.eq_of_toNat_eq
  have hf := toNat_append_add (off.extractLsb' 12 1) (off.extractLsb' 5 6)
  have hd := toNat_append_add (off.extractLsb' 1 4) (off.extractLsb' 11 1)
  have he := (evenOffset_iff off).1 h
  have := off.isLt
  rw [toNat_extract, toNat_extract] at hf hd
  generalize (off.extractLsb' 12 1 ++ off.extractLsb' 5 6 : BitVec 7) = f at hf ⊢
  generalize (off.extractLsb' 1 4 ++ off.extractLsb' 11 1 : BitVec 5) = d at hd ⊢
  refine (toNat_five (f.extractLsb' 6 1) (d.extractLsb' 0 1) (f.extractLsb' 0 6) (d.extractLsb' 1 4) 0#1).trans ?_
  simp only [toNat_extract, BitVec.toNat_ofNat]
  have x1 : off.toNat / 2 ^ 12 % 2 ^ 1 < 2 ^ 1 := Nat.mod_lt _ (by decide)
  have x2 : off.toNat / 2 ^ 5 % 2 ^ 6 < 2 ^ 6 := Nat.mod_lt _ (by decide)
  have x3 : off.toNat / 2 ^ 1 % 2 ^ 4 < 2 ^ 4 := Nat.mod_lt _ (by decide)
  have x4 : off.toNat / 2 ^ 11 % 2 ^ 1 < 2 ^ 1 := Nat.mod_lt _ (by decide)
  have p : off.toNat = (((off.toNat / 2 ^ 12 % 2 ^ 1 * 2 ^ 1 + off.toNat / 2 ^ 11 % 2 ^ 1) * 2 ^ 6 +
      off.toNat / 2 ^ 5 % 2 ^ 6) * 2 ^ 4 + off.toNat / 2 ^ 1 % 2 ^ 4) * 2 ^ 1 + 0 := by clear hf hd; omega
  refine Eq.trans ?_ p.symm
  clear p he
  generalize off.toNat / 2 ^ 12 % 2 ^ 1 = a at *
  generalize off.toNat / 2 ^ 5 % 2 ^ 6 = b at *
  generalize off.toNat / 2 ^ 1 % 2 ^ 4 = c at *
  generalize off.toNat / 2 ^ 11 % 2 ^ 1 = e at *
  have p1 : f.toNat / 2 ^ 6 % 2 ^ 1 = a := by clear hd; omega
  have p2 : d.toNat / 2 ^ 0 % 2 ^ 1 = e := by clear hf; omega
  have p3 : f.toNat / 2 ^ 0 % 2 ^ 6 = b := by clear hd; omega
  have p4 : d.toNat / 2 ^ 1 % 2 ^ 4 = c := by clear hf; omega
  rw [p1, p2, p3, p4]

theorem immJField_encodeJ (off : BitVec 21) (rd : RegIdx) (op : BitVec 7) (h : evenOffset off = true) :
    immJField (encodeJ off rd op) = off := by
  rw [immJField_eq, encodeJ_eq_encodeU, immUField_encodeU]
  apply BitVec.eq_of_toNat_eq
  have h1 := toNat_append_add (off.extractLsb' 20 1) (off.extractLsb' 1 10)
  have h2 := toNat_append_add (off.extractLsb' 20 1 ++ off.extractLsb' 1 10) (off.extractLsb' 11 1)
  have hu := toNat_append_add (off.extractLsb' 20 1 ++ off.extractLsb' 1 10 ++ off.extractLsb' 11 1) (off.extractLsb' 12 8)
  have he := (evenOffset_iff off).1 h
  have := off.isLt
  rw [h2, h1] at hu
  simp only [toNat_extract] at hu
  generalize (off.extractLsb' 20 1 ++ off.extractLsb' 1 10 ++ off.extractLsb' 11 1 ++ off.extractLsb' 12 8 : BitVec 20) = u at hu ⊢
  refine (toNat_five (u.extractLsb' 19 1) (u.extractLsb' 0 8) (u.extractLsb' 8 1) (u.extractLsb' 9 10) 0#1).trans ?_
  clear h1 h2
  simp only [toNat_extract, BitVec.toNat_ofNat]
  have ha : off.toNat / 2 ^ 20 % 2 ^ 1 < 2 ^ 1 := Nat.mod_lt _ (by decide)
  have hb : off.toNat / 2 ^ 1 % 2 ^ 10 < 2 ^ 10 := Nat.mod_lt _ (by decide)
  have hc : off.toNat / 2 ^ 11 % 2 ^ 1 < 2 ^ 1 := Nat.mod_lt _ (by decide)
  have hd : off.toNat / 2 ^ 12 % 2 ^ 8 < 2 ^ 8 := Nat.mod_lt _ (by decide)
  have p : off.toNat = (((off.toNat / 2 ^ 20 % 2 ^ 1 * 2 ^ 8 + off.toNat / 2 ^ 12 % 2 ^ 8) * 2 ^ 1 +
      off.toNat / 2 ^ 11 % 2 ^ 1) * 2 ^ 10 + off.toNat / 2 ^ 1 % 2 ^ 10) * 2 ^ 1 + 0 := by clear hu; omega
  refine Eq.trans ?_ p.symm
  clear p he
  generalize off.toNat / 2 ^ 20 % 2 ^ 1 = a at *
  generalize off.toNat / 2 ^ 1 % 2 ^ 10 = b at *
  generalize off.toNat / 2 ^ 11 % 2 ^ 1 = c at *
  generalize off.toNat / 2 ^ 12 % 2 ^ 8 = d at *
  have p1 : u.toNat / 2 ^ 19 % 2 ^ 1 = a := by omega
  have p2 : u.toNat / 2 ^ 0 % 2 ^ 8 = d := by omega
  have p3 : u.toNat / 2 ^ 8 % 2 ^ 1 = c := by omega
  have p4 : u.toNat / 2 ^ 9 % 2 ^ 10 = b := by omega
  rw [p1, p2, p3, p4]

@[simp] theorem opcodeOf_encodeFence (x : BitVec 25) : opcodeOf (encode (.fence x)) = opFence := by
  apply BitVec.eq_of_toNat_eq
  rw [toNat_opcodeOf, toNat_encodeFence]
  have := opFence.isLt
  omega

theorem unexamined_encodeFence (x : BitVec 25) : (encode (.fence x)).extractLsb' 7 25 = x := by
  apply BitVec.eq_of_toNat_eq
  rw [toNat_extract, toNat_encodeFence]
  have := opFence.isLt
  have := x.isLt
  omega

/-- The offsets the decoder builds are even (R76, R78). -/
theorem evenOffset_immBField (w : Word) : evenOffset (immBField w) = true := by
  rw [evenOffset_iff, toNat_immBField]
  omega

theorem evenOffset_immJField (w : Word) : evenOffset (immJField w) = true := by
  rw [evenOffset_iff, toNat_immJField]
  omega

/-! ### A word is the encoding of its own fields -/

theorem encodeR_fields (w : Word) : encodeR (funct7Of w) (rs2Of w) (rs1Of w) (funct3Of w) (rdOf w) (opcodeOf w) = w := by
  apply BitVec.eq_of_toNat_eq
  rw [toNat_encodeR]
  have := w.isLt
  simp only [toNat_funct7Of, toNat_rs2Of, toNat_rs1Of, toNat_funct3Of, toNat_rdOf, toNat_opcodeOf]
  omega

theorem encodeI_fields (w : Word) : encodeI (immIField w) (rs1Of w) (funct3Of w) (rdOf w) (opcodeOf w) = w := by
  apply BitVec.eq_of_toNat_eq
  rw [toNat_encodeI]
  have := w.isLt
  simp only [toNat_immIField, toNat_rs1Of, toNat_funct3Of, toNat_rdOf, toNat_opcodeOf]
  omega

theorem encodeS_fields (w : Word) : encodeS (immSField w) (rs2Of w) (rs1Of w) (funct3Of w) (opcodeOf w) = w := by
  rw [encodeS_eq_encodeR]
  have h1 : (immSField w).extractLsb' 5 7 = funct7Of w := by
    apply BitVec.eq_of_toNat_eq
    rw [toNat_extract, toNat_immSField, toNat_funct7Of]
    omega
  have h2 : (immSField w).extractLsb' 0 5 = rdOf w := by
    apply BitVec.eq_of_toNat_eq
    rw [toNat_extract, toNat_immSField, toNat_rdOf]
    omega
  rw [h1, h2, encodeR_fields]

theorem encodeB_fields (w : Word) : encodeB (immBField w) (rs2Of w) (rs1Of w) (funct3Of w) (opcodeOf w) = w := by
  rw [encodeB_eq_encodeR]
  have h1 : ((immBField w).extractLsb' 12 1 ++ (immBField w).extractLsb' 5 6 : BitVec 7) = funct7Of w := by
    apply BitVec.eq_of_toNat_eq
    refine (toNat_append_add ((immBField w).extractLsb' 12 1) ((immBField w).extractLsb' 5 6)).trans ?_
    rw [toNat_extract, toNat_extract, toNat_immBField, toNat_funct7Of]
    have x1 : w.toNat / 2 ^ 31 % 2 ^ 1 < 2 ^ 1 := Nat.mod_lt _ (by decide)
    have x2 : w.toNat / 2 ^ 7 % 2 ^ 1 < 2 ^ 1 := Nat.mod_lt _ (by decide)
    have x3 : w.toNat / 2 ^ 25 % 2 ^ 6 < 2 ^ 6 := Nat.mod_lt _ (by decide)
    have x4 : w.toNat / 2 ^ 8 % 2 ^ 4 < 2 ^ 4 := Nat.mod_lt _ (by decide)
    have hw : w.toNat / 2 ^ 25 % 2 ^ 7 = w.toNat / 2 ^ 31 % 2 ^ 1 * 2 ^ 6 + w.toNat / 2 ^ 25 % 2 ^ 6 := by omega
    rw [hw]
    clear hw
    generalize w.toNat / 2 ^ 31 % 2 ^ 1 = a at *
    generalize w.toNat / 2 ^ 7 % 2 ^ 1 = b at *
    generalize w.toNat / 2 ^ 25 % 2 ^ 6 = c at *
    generalize w.toNat / 2 ^ 8 % 2 ^ 4 = d at *
    have p1 : ((((a * 2 ^ 1 + b) * 2 ^ 6 + c) * 2 ^ 4 + d) * 2 ^ 1 + 0) / 2 ^ 12 % 2 ^ 1 = a := by omega
    have p2 : ((((a * 2 ^ 1 + b) * 2 ^ 6 + c) * 2 ^ 4 + d) * 2 ^ 1 + 0) / 2 ^ 5 % 2 ^ 6 = c := by omega
    rw [p1, p2]
  have h2 : ((immBField w).extractLsb' 1 4 ++ (immBField w).extractLsb' 11 1 : BitVec 5) = rdOf w := by
    apply BitVec.eq_of_toNat_eq
    refine (toNat_append_add ((immBField w).extractLsb' 1 4) ((immBField w).extractLsb' 11 1)).trans ?_
    rw [toNat_extract, toNat_extract, toNat_immBField, toNat_rdOf]
    have x1 : w.toNat / 2 ^ 31 % 2 ^ 1 < 2 ^ 1 := Nat.mod_lt _ (by decide)
    have x2 : w.toNat / 2 ^ 7 % 2 ^ 1 < 2 ^ 1 := Nat.mod_lt _ (by decide)
    have x3 : w.toNat / 2 ^ 25 % 2 ^ 6 < 2 ^ 6 := Nat.mod_lt _ (by decide)
    have x4 : w.toNat / 2 ^ 8 % 2 ^ 4 < 2 ^ 4 := Nat.mod_lt _ (by decide)
    have hw : w.toNat / 2 ^ 7 % 2 ^ 5 = w.toNat / 2 ^ 8 % 2 ^ 4 * 2 ^ 1 + w.toNat / 2 ^ 7 % 2 ^ 1 := by omega
    rw [hw]
    clear hw
    generalize w.toNat / 2 ^ 31 % 2 ^ 1 = a at *
    generalize w.toNat / 2 ^ 7 % 2 ^ 1 = b at *
    generalize w.toNat / 2 ^ 25 % 2 ^ 6 = c at *
    generalize w.toNat / 2 ^ 8 % 2 ^ 4 = d at *
    have p1 : ((((a * 2 ^ 1 + b) * 2 ^ 6 + c) * 2 ^ 4 + d) * 2 ^ 1 + 0) / 2 ^ 1 % 2 ^ 4 = d := by omega
    have p2 : ((((a * 2 ^ 1 + b) * 2 ^ 6 + c) * 2 ^ 4 + d) * 2 ^ 1 + 0) / 2 ^ 11 % 2 ^ 1 = b := by omega
    rw [p1, p2]
  rw [h1, h2, encodeR_fields]

theorem encodeU_fields (w : Word) : encodeU (immUField w) (rdOf w) (opcodeOf w) = w := by
  apply BitVec.eq_of_toNat_eq
  rw [toNat_encodeU]
  have := w.isLt
  simp only [toNat_immUField, toNat_rdOf, toNat_opcodeOf]
  omega

theorem encodeJ_fields (w : Word) : encodeJ (immJField w) (rdOf w) (opcodeOf w) = w := by
  rw [encodeJ_eq_encodeU]
  have h1 : ((immJField w).extractLsb' 20 1 ++ (immJField w).extractLsb' 1 10 ++ (immJField w).extractLsb' 11 1 ++
      (immJField w).extractLsb' 12 8 : BitVec 20) = immUField w := by
    apply BitVec.eq_of_toNat_eq
    refine (toNat_append_add ((immJField w).extractLsb' 20 1 ++ (immJField w).extractLsb' 1 10 ++ (immJField w).extractLsb' 11 1)
      ((immJField w).extractLsb' 12 8)).trans ?_
    rw [toNat_append_add, toNat_append_add]
    simp only [toNat_extract, toNat_immJField, toNat_immUField]
    have ha : w.toNat / 2 ^ 31 % 2 ^ 1 < 2 ^ 1 := Nat.mod_lt _ (by decide)
    have hb : w.toNat / 2 ^ 12 % 2 ^ 8 < 2 ^ 8 := Nat.mod_lt _ (by decide)
    have hc : w.toNat / 2 ^ 20 % 2 ^ 1 < 2 ^ 1 := Nat.mod_lt _ (by decide)
    have hd : w.toNat / 2 ^ 21 % 2 ^ 10 < 2 ^ 10 := Nat.mod_lt _ (by decide)
    have hw : w.toNat / 2 ^ 12 % 2 ^ 20 = ((w.toNat / 2 ^ 31 % 2 ^ 1 * 2 ^ 10 + w.toNat / 2 ^ 21 % 2 ^ 10) * 2 ^ 1 +
        w.toNat / 2 ^ 20 % 2 ^ 1) * 2 ^ 8 + w.toNat / 2 ^ 12 % 2 ^ 8 := by omega
    rw [hw]
    clear hw
    generalize w.toNat / 2 ^ 31 % 2 ^ 1 = a at *
    generalize w.toNat / 2 ^ 12 % 2 ^ 8 = b at *
    generalize w.toNat / 2 ^ 20 % 2 ^ 1 = c at *
    generalize w.toNat / 2 ^ 21 % 2 ^ 10 = d at *
    have p1 : ((((a * 2 ^ 8 + b) * 2 ^ 1 + c) * 2 ^ 10 + d) * 2 ^ 1 + 0) / 2 ^ 20 % 2 ^ 1 = a := by omega
    have p2 : ((((a * 2 ^ 8 + b) * 2 ^ 1 + c) * 2 ^ 10 + d) * 2 ^ 1 + 0) / 2 ^ 1 % 2 ^ 10 = d := by omega
    have p3 : ((((a * 2 ^ 8 + b) * 2 ^ 1 + c) * 2 ^ 10 + d) * 2 ^ 1 + 0) / 2 ^ 11 % 2 ^ 1 = c := by omega
    have p4 : ((((a * 2 ^ 8 + b) * 2 ^ 1 + c) * 2 ^ 10 + d) * 2 ^ 1 + 0) / 2 ^ 12 % 2 ^ 8 = b := by omega
    rw [p1, p2, p3, p4]
  rw [h1, encodeU_fields]

theorem encodeFence_fields (w : Word) : (w.extractLsb' 7 25 ++ opcodeOf w : BitVec 32) = w := by
  apply BitVec.eq_of_toNat_eq
  refine (toNat_append_add (w.extractLsb' 7 25) (opcodeOf w)).trans ?_
  have := w.isLt
  rw [toNat_extract, toNat_opcodeOf]
  omega

/-! ### Fields under a mask (R82) -/

theorem extract_and (w m : Word) (lo len : Nat) : (w &&& m).extractLsb' lo len = w.extractLsb' lo len &&& m.extractLsb' lo len := by
  ext i hi
  simp

/-- The mask of LUI, AUIPC, JAL, JALR and FENCE keeps the opcode. -/
theorem opcodeOf_of_mask {w p : Word} (h : w &&& 0x0000007F#32 = p) : opcodeOf w = opcodeOf p := by
  subst h
  unfold opcodeOf
  rw [extract_and, show BitVec.extractLsb' 0 7 0x0000007F#32 = BitVec.allOnes 7 from by decide, BitVec.and_allOnes]

/-- The mask of the rows with a funct3 keeps the opcode and funct3. -/
theorem fields_of_mask {w p : Word} (h : w &&& 0x0000707F#32 = p) : opcodeOf w = opcodeOf p ∧ funct3Of w = funct3Of p := by
  subst h
  unfold opcodeOf funct3Of
  rw [extract_and, extract_and, show BitVec.extractLsb' 0 7 0x0000707F#32 = BitVec.allOnes 7 from by decide, BitVec.and_allOnes,
    show BitVec.extractLsb' 12 3 0x0000707F#32 = BitVec.allOnes 3 from by decide, BitVec.and_allOnes]
  exact ⟨rfl, rfl⟩

/-- The mask of the rows with a funct7 keeps the opcode, funct3 and funct7. -/
theorem fields_of_long_mask {w p : Word} (h : w &&& 0xFE00707F#32 = p) :
    opcodeOf w = opcodeOf p ∧ funct3Of w = funct3Of p ∧ funct7Of w = funct7Of p := by
  subst h
  unfold opcodeOf funct3Of funct7Of
  rw [extract_and, extract_and, extract_and, show BitVec.extractLsb' 0 7 0xFE00707F#32 = BitVec.allOnes 7 from by decide,
    BitVec.and_allOnes, show BitVec.extractLsb' 12 3 0xFE00707F#32 = BitVec.allOnes 3 from by decide, BitVec.and_allOnes,
    show BitVec.extractLsb' 25 7 0xFE00707F#32 = BitVec.allOnes 7 from by decide, BitVec.and_allOnes]
  exact ⟨rfl, rfl, rfl⟩

/-! ### Bits of the immediate strings (R75 to R78) -/

theorem getLsbD_immSField (w : Word) (k : Nat) :
    (immSField w).getLsbD k = if k < 5 then (w.extractLsb' 7 5).getLsbD k else (w.extractLsb' 25 7).getLsbD (k - 5) :=
  BitVec.getLsbD_append (x := w.extractLsb' 25 7) (y := w.extractLsb' 7 5)

theorem getLsbD_immBField (w : Word) (k : Nat) :
    (immBField w).getLsbD k =
      if k < 1 then false
      else if k - 1 < 4 then (w.extractLsb' 8 4).getLsbD (k - 1)
      else if k - 1 - 4 < 6 then (w.extractLsb' 25 6).getLsbD (k - 1 - 4)
      else if k - 1 - 4 - 6 < 1 then (w.extractLsb' 7 1).getLsbD (k - 1 - 4 - 6)
      else (w.extractLsb' 31 1).getLsbD (k - 1 - 4 - 6 - 1) := by
  unfold immBField
  refine (BitVec.getLsbD_append
    (x := w.extractLsb' 31 1 ++ w.extractLsb' 7 1 ++ w.extractLsb' 25 6 ++ w.extractLsb' 8 4) (y := 0#1)).trans ?_
  rw [BitVec.getLsbD_append, BitVec.getLsbD_append, BitVec.getLsbD_append, BitVec.getLsbD_zero]

theorem getLsbD_immJField (w : Word) (k : Nat) :
    (immJField w).getLsbD k =
      if k < 1 then false
      else if k - 1 < 10 then (w.extractLsb' 21 10).getLsbD (k - 1)
      else if k - 1 - 10 < 1 then (w.extractLsb' 20 1).getLsbD (k - 1 - 10)
      else if k - 1 - 10 - 1 < 8 then (w.extractLsb' 12 8).getLsbD (k - 1 - 10 - 1)
      else (w.extractLsb' 31 1).getLsbD (k - 1 - 10 - 1 - 8) := by
  unfold immJField
  refine (BitVec.getLsbD_append
    (x := w.extractLsb' 31 1 ++ w.extractLsb' 12 8 ++ w.extractLsb' 20 1 ++ w.extractLsb' 21 10) (y := 0#1)).trans ?_
  rw [BitVec.getLsbD_append, BitVec.getLsbD_append, BitVec.getLsbD_append, BitVec.getLsbD_zero]

theorem getLsbD_immU (w : Word) (k : Nat) : (immU w).getLsbD k = if k < 12 then false else (w.extractLsb' 12 20).getLsbD (k - 12) :=
  (BitVec.getLsbD_append (x := w.extractLsb' 12 20) (y := 0#12)).trans (by rw [BitVec.getLsbD_zero])

end Sys2Proof
end

