-- ==== Sys2Proof/Laws/Ops.lean ====
section
/-! SUPPORT. The spec lemma of each shared operation: register access, the sequencing operations, and the common shapes of the
instruction families, each by cases. Provers cite these and do not unfold the operations. -/

namespace Sys2Proof.Machine

/-! ### Register access -/

theorem State.hasReg_iff {s : State} {i : RegIdx} : s.hasReg i = true ↔ i = 0#5 ∨ i.toNat < s.nregs.count := by
  simp [State.hasReg]

/-- With 32 registers every index exists (10_state.md R12). -/
theorem State.hasReg_full {s : State} (h : s.nregs = .full) (i : RegIdx) : s.hasReg i = true := by
  have := i.isLt
  simp only [State.hasReg_iff, h, RegCount.count]
  exact .inr (by omega)

theorem State.readReg_of_hasReg {s : State} {i : RegIdx} (h : s.hasReg i = true) : s.readReg i = .ok (s.reg i) := by
  unfold State.readReg
  split
  · rename_i h0; subst h0; simp
  · rcases State.hasReg_iff.1 h with h | h
    · contradiction
    · simp [Nat.not_le.2 h]

theorem State.readReg_of_not_hasReg {s : State} {i : RegIdx} (h : s.hasReg i = false) :
    s.readReg i = .error (.invalidRegister i) := by
  unfold State.readReg
  simp only [State.hasReg, Bool.or_eq_false_iff, decide_eq_false_iff_not] at h
  simp [h.1, Nat.not_lt.1 h.2]

theorem State.writeReg_of_hasReg {s : State} {i : RegIdx} (h : s.hasReg i = true) (v : Word) :
    s.writeReg i v = .ok (s.setReg i v) := by
  unfold State.writeReg
  split
  · rename_i h0; subst h0; simp
  · rcases State.hasReg_iff.1 h with h | h
    · contradiction
    · simp [Nat.not_le.2 h]

theorem State.writeReg_of_not_hasReg {s : State} {i : RegIdx} (h : s.hasReg i = false) (v : Word) :
    s.writeReg i v = .error (.invalidRegister i) := by
  unfold State.writeReg
  simp only [State.hasReg, Bool.or_eq_false_iff, decide_eq_false_iff_not] at h
  simp [h.1, Nat.not_lt.1 h.2]

/-! ### Sequencing -/

theorem withReg_of_hasReg {s : State} {i : RegIdx} (h : s.hasReg i = true) (k : Word → Result) : withReg s i k = k (s.reg i) := by
  simp [withReg, State.readReg_of_hasReg h]

theorem withReg_of_not_hasReg {s : State} {i : RegIdx} (h : s.hasReg i = false) (k : Word → Result) :
    withReg s i k = .next (s.raise (.invalidRegister i)) := by
  simp [withReg, fail, State.readReg_of_not_hasReg h]

theorem thenWrite_of_hasReg {s : State} {i : RegIdx} (h : s.hasReg i = true) (v : Word) (k : State → Result) :
    thenWrite s i v k = k (s.setReg i v) := by
  simp [thenWrite, State.writeReg_of_hasReg h]

theorem thenWrite_of_not_hasReg {s : State} {i : RegIdx} (h : s.hasReg i = false) (v : Word) (k : State → Result) :
    thenWrite s i v k = .next (s.raise (.invalidRegister i)) := by
  simp [thenWrite, fail, State.writeReg_of_not_hasReg h]

theorem writeBack_of_hasReg {s : State} {i : RegIdx} (h : s.hasReg i = true) (v : Word) :
    writeBack s i v = .next (s.setReg i v) :=
  thenWrite_of_hasReg h v .next

theorem writeBack_of_not_hasReg {s : State} {i : RegIdx} (h : s.hasReg i = false) (v : Word) :
    writeBack s i v = .next (s.raise (.invalidRegister i)) :=
  thenWrite_of_not_hasReg h v .next

theorem withLoad_of_ok {s : State} {a v : Word} {n : Nat} (h : memRead s a n = .ok v) (k : Word → Result) :
    withLoad s a n k = k v := by
  simp [withLoad, h]

theorem withLoad_of_error {s : State} {a : Word} {n : Nat} {e : FatalError} (h : memRead s a n = .error e) (k : Word → Result) :
    withLoad s a n k = .next (s.raise e) := by
  simp [withLoad, fail, h]

theorem storeLast_of_ok {s t : State} {a v : Word} {n : Nat} (h : memWrite s a n v = .ok t) : storeLast s a n v = .next t := by
  simp [storeLast, h]

theorem storeLast_of_error {s : State} {a v : Word} {n : Nat} {e : FatalError} (h : memWrite s a n v = .error e) :
    storeLast s a n v = .next (s.raise e) := by
  simp [storeLast, fail, h]

/-- The low two bits and the remainder by 4 say the same. -/
theorem aligned4_iff_low_bits (t : Word) : aligned4 t = true ↔ t.extractLsb' 0 2 = 0b00#2 := by
  rw [← BitVec.toNat_inj]
  simp [aligned4, BitVec.extractLsb'_toNat]

theorem jumpTo_of_aligned {s : State} {t : Word} (h : aligned4 t = true) : jumpTo s t = .next (s.setPc t) := by
  simp [jumpTo, (aligned4_iff_low_bits t).1 h]

theorem jumpTo_of_misaligned {s : State} {t : Word} (h : aligned4 t = false) :
    jumpTo s t = .next (s.raise (.misalignedTarget t)) := by
  have : t.extractLsb' 0 2 ≠ 0b00#2 := fun h' => by simp [(aligned4_iff_low_bits t).2 h'] at h
  unfold jumpTo
  rw [if_pos this]
  rfl

/-! ### The families' shapes, by cases -/

/-- R100, R101: a value is written back, or the register does not exist. -/
theorem writeBack_cases (s : State) (rd : RegIdx) (v : Word) :
    (s.hasReg rd = true ∧ writeBack s rd v = .next (s.setReg rd v)) ∨
      (s.hasReg rd = false ∧ writeBack s rd v = .next (s.raise (.invalidRegister rd))) := by
  cases h : s.hasReg rd
  · exact .inr ⟨rfl, writeBack_of_not_hasReg h v⟩
  · exact .inl ⟨rfl, writeBack_of_hasReg h v⟩

/-- R112: an aligned target becomes the pc, another is an error. -/
theorem jumpTo_cases (s : State) (t : Word) :
    (aligned4 t = true ∧ jumpTo s t = .next (s.setPc t)) ∨
      (aligned4 t = false ∧ jumpTo s t = .next (s.raise (.misalignedTarget t))) := by
  cases h : aligned4 t
  · exact .inr ⟨rfl, jumpTo_of_misaligned h⟩
  · exact .inl ⟨rfl, jumpTo_of_aligned h⟩

/-- R159. -/
theorem immOp_cases (f : Word → Word) (rd rs1 : RegIdx) (s : State) :
    (s.hasReg rs1 = true ∧ s.hasReg rd = true ∧ immOp f rd rs1 s = .next (s.setReg rd (f (s.reg rs1)))) ∨
      (s.hasReg rs1 = false ∧ immOp f rd rs1 s = .next (s.raise (.invalidRegister rs1))) ∨
      (s.hasReg rs1 = true ∧ s.hasReg rd = false ∧ immOp f rd rs1 s = .next (s.raise (.invalidRegister rd))) := by
  unfold immOp
  cases h1 : s.hasReg rs1
  · exact .inr (.inl ⟨rfl, withReg_of_not_hasReg h1 _⟩)
  · rw [withReg_of_hasReg h1]
    obtain ⟨h, e⟩ | ⟨h, e⟩ := writeBack_cases s rd (f (s.reg rs1))
    · exact .inl ⟨rfl, h, e⟩
    · exact .inr (.inr ⟨rfl, h, e⟩)

/-- R175. -/
theorem regOp_cases (f : Word → Word → Word) (rd rs1 rs2 : RegIdx) (s : State) :
    (s.hasReg rs1 = true ∧ s.hasReg rs2 = true ∧ s.hasReg rd = true ∧
        regOp f rd rs1 rs2 s = .next (s.setReg rd (f (s.reg rs1) (s.reg rs2)))) ∨
      (s.hasReg rs1 = false ∧ regOp f rd rs1 rs2 s = .next (s.raise (.invalidRegister rs1))) ∨
      (s.hasReg rs1 = true ∧ s.hasReg rs2 = false ∧ regOp f rd rs1 rs2 s = .next (s.raise (.invalidRegister rs2))) ∨
      (s.hasReg rs1 = true ∧ s.hasReg rs2 = true ∧ s.hasReg rd = false ∧
        regOp f rd rs1 rs2 s = .next (s.raise (.invalidRegister rd))) := by
  unfold regOp
  cases h1 : s.hasReg rs1
  · exact .inr (.inl ⟨rfl, withReg_of_not_hasReg h1 _⟩)
  · rw [withReg_of_hasReg h1]
    cases h2 : s.hasReg rs2
    · exact .inr (.inr (.inl ⟨rfl, rfl, withReg_of_not_hasReg h2 _⟩))
    · rw [withReg_of_hasReg h2]
      obtain ⟨h, e⟩ | ⟨h, e⟩ := writeBack_cases s rd (f (s.reg rs1) (s.reg rs2))
      · exact .inl ⟨rfl, rfl, h, e⟩
      · exact .inr (.inr (.inr ⟨rfl, rfl, h, e⟩))

/-- R120. -/
theorem branchOp_cases (cond : Word → Word → Bool) (rs1 rs2 : RegIdx) (off : BitVec 13) (s : State) :
    (s.hasReg rs1 = true ∧ s.hasReg rs2 = true ∧ cond (s.reg rs1) (s.reg rs2) = false ∧
        branchOp cond rs1 rs2 off s = .next s) ∨
      (s.hasReg rs1 = true ∧ s.hasReg rs2 = true ∧ cond (s.reg rs1) (s.reg rs2) = true ∧
        aligned4 (branchTarget s off) = true ∧ branchOp cond rs1 rs2 off s = .next (s.setPc (branchTarget s off))) ∨
      (s.hasReg rs1 = true ∧ s.hasReg rs2 = true ∧ cond (s.reg rs1) (s.reg rs2) = true ∧
        aligned4 (branchTarget s off) = false ∧
        branchOp cond rs1 rs2 off s = .next (s.raise (.misalignedTarget (branchTarget s off)))) ∨
      (s.hasReg rs1 = false ∧ branchOp cond rs1 rs2 off s = .next (s.raise (.invalidRegister rs1))) ∨
      (s.hasReg rs1 = true ∧ s.hasReg rs2 = false ∧ branchOp cond rs1 rs2 off s = .next (s.raise (.invalidRegister rs2))) := by
  unfold branchOp
  cases h1 : s.hasReg rs1
  · exact .inr (.inr (.inr (.inl ⟨rfl, withReg_of_not_hasReg h1 _⟩)))
  · rw [withReg_of_hasReg h1]
    cases h2 : s.hasReg rs2
    · exact .inr (.inr (.inr (.inr ⟨rfl, rfl, withReg_of_not_hasReg h2 _⟩)))
    · rw [withReg_of_hasReg h2]
      cases hc : cond (s.reg rs1) (s.reg rs2)
      · exact .inl ⟨rfl, rfl, rfl, by simp⟩
      · obtain ⟨h, e⟩ | ⟨h, e⟩ := jumpTo_cases s (branchTarget s off)
        · exact .inr (.inl ⟨rfl, rfl, rfl, h, by simpa using e⟩)
        · exact .inr (.inr (.inl ⟨rfl, rfl, rfl, h, by simpa using e⟩))

/-- R137. -/
theorem loadOp_cases (n : Nat) (ext : Word → Word) (rd rs1 : RegIdx) (imm : BitVec 12) (s : State) :
    (s.hasReg rs1 = true ∧ s.hasReg rd = true ∧ ∃ v, memRead s (effAddr (s.reg rs1) imm) n = .ok v ∧
        loadOp n ext rd rs1 imm s = .next (s.setReg rd (ext v))) ∨
      (s.hasReg rs1 = false ∧ loadOp n ext rd rs1 imm s = .next (s.raise (.invalidRegister rs1))) ∨
      (s.hasReg rs1 = true ∧ ∃ e, memRead s (effAddr (s.reg rs1) imm) n = .error e ∧
        loadOp n ext rd rs1 imm s = .next (s.raise e)) ∨
      (s.hasReg rs1 = true ∧ s.hasReg rd = false ∧ (∃ v, memRead s (effAddr (s.reg rs1) imm) n = .ok v) ∧
        loadOp n ext rd rs1 imm s = .next (s.raise (.invalidRegister rd))) := by
  unfold loadOp
  cases h1 : s.hasReg rs1
  · exact .inr (.inl ⟨rfl, withReg_of_not_hasReg h1 _⟩)
  · rw [withReg_of_hasReg h1]
    cases hm : memRead s (effAddr (s.reg rs1) imm) n with
    | error e => exact .inr (.inr (.inl ⟨rfl, e, rfl, withLoad_of_error hm _⟩))
    | ok v =>
      rw [withLoad_of_ok hm]
      obtain ⟨h, e⟩ | ⟨h, e⟩ := writeBack_cases s rd (ext v)
      · exact .inl ⟨rfl, h, v, rfl, e⟩
      · exact .inr (.inr (.inr ⟨rfl, h, ⟨v, rfl⟩, e⟩))

/-- R144. -/
theorem storeOp_cases (n : Nat) (rs1 rs2 : RegIdx) (imm : BitVec 12) (s : State) :
    (s.hasReg rs1 = true ∧ s.hasReg rs2 = true ∧ ∃ t, memWrite s (effAddr (s.reg rs1) imm) n (s.reg rs2) = .ok t ∧
        storeOp n rs1 rs2 imm s = .next t) ∨
      (s.hasReg rs1 = false ∧ storeOp n rs1 rs2 imm s = .next (s.raise (.invalidRegister rs1))) ∨
      (s.hasReg rs1 = true ∧ s.hasReg rs2 = false ∧ storeOp n rs1 rs2 imm s = .next (s.raise (.invalidRegister rs2))) ∨
      (s.hasReg rs1 = true ∧ s.hasReg rs2 = true ∧ ∃ e, memWrite s (effAddr (s.reg rs1) imm) n (s.reg rs2) = .error e ∧
        storeOp n rs1 rs2 imm s = .next (s.raise e)) := by
  unfold storeOp
  cases h1 : s.hasReg rs1
  · exact .inr (.inl ⟨rfl, withReg_of_not_hasReg h1 _⟩)
  · rw [withReg_of_hasReg h1]
    cases h2 : s.hasReg rs2
    · exact .inr (.inr (.inl ⟨rfl, rfl, withReg_of_not_hasReg h2 _⟩))
    · rw [withReg_of_hasReg h2]
      cases hm : memWrite s (effAddr (s.reg rs1) imm) n (s.reg rs2) with
      | error e => exact .inr (.inr (.inr ⟨rfl, rfl, e, rfl, storeLast_of_error hm⟩))
      | ok t => exact .inl ⟨rfl, rfl, t, rfl, storeLast_of_ok hm⟩

/-- A jump after its link: R110 and R111 share it. -/
theorem linkJump_cases (s : State) (rd : RegIdx) (link target : Word) :
    (s.hasReg rd = true ∧ aligned4 target = true ∧
        thenWrite s rd link (fun s' => jumpTo s' target) = .next ((s.setReg rd link).setPc target)) ∨
      (s.hasReg rd = true ∧ aligned4 target = false ∧
        thenWrite s rd link (fun s' => jumpTo s' target) = .next ((s.setReg rd link).raise (.misalignedTarget target))) ∨
      (s.hasReg rd = false ∧
        thenWrite s rd link (fun s' => jumpTo s' target) = .next (s.raise (.invalidRegister rd))) := by
  cases h : s.hasReg rd
  · exact .inr (.inr ⟨rfl, thenWrite_of_not_hasReg h _ _⟩)
  · rw [thenWrite_of_hasReg h]
    obtain ⟨ha, e⟩ | ⟨ha, e⟩ := jumpTo_cases (s.setReg rd link) target
    · exact .inl ⟨rfl, ha, e⟩
    · exact .inr (.inl ⟨rfl, ha, e⟩)

/-! ### The step -/

theorem haltTests_running {i : Instr} {s : State} (h : s.status = .running) :
    haltTests i s = if serviceHalts i s then s.halt .service else if s.pc = 0#32 then s.halt .pcZero else s := by
  simp [haltTests, h]

theorem haltTests_faulted {i : Instr} {s : State} {e : FatalError} (h : s.status = .faulted e) : haltTests i s = s := by
  simp [haltTests, h]

/-- The halt tests change the status alone. -/
theorem haltTests_frame (i : Instr) (s : State) : haltTests i s = { s with status := (haltTests i s).status } := by
  unfold haltTests
  split
  · split
    · rfl
    · split <;> rfl
  · rfl
  · rfl

/-- A step answers a next state only from RUNNING. -/
theorem step_running {s : State} (h : s.status = .running) : step s = cycle s := by
  simp [step, h]

/-- What a step that answers a next state did. -/
theorem step_next_cases {s t : State} (h : step s = .next t) :
    s.status = .running ∧
      ((∃ e, fetch s = .error e ∧ t = s.raise e) ∨
        (fetch s = .ok 0#32 ∧ t = s.halt .zeroWord) ∨
        (∃ w e, fetch s = .ok w ∧ w ≠ 0#32 ∧ decode w = .error e ∧ t = (s.setPc (s.pc + 4#32)).raise (fatalOf e)) ∨
        (∃ w i u, fetch s = .ok w ∧ w ≠ 0#32 ∧ decode w = .ok i ∧ exec i (s.setPc (s.pc + 4#32)) = .next u ∧
          t = haltTests i u)) := by
  unfold step at h
  split at h
  · rename_i hr
    refine ⟨hr, ?_⟩
    unfold cycle at h
    split at h
    · rename_i e he
      cases h
      exact .inl ⟨e, he, rfl⟩
    · rename_i w hw
      split at h
      · rename_i h0
        subst h0
        cases h
        exact .inr (.inl ⟨hw, rfl⟩)
      · rename_i h0
        unfold runWord at h
        cases hd : decode w with
        | error e =>
          simp only [hd, fail] at h
          cases h
          exact .inr (.inr (.inl ⟨w, e, hw, h0, hd, rfl⟩))
        | ok i =>
          simp only [hd] at h
          cases hx : exec i (s.setPc (s.pc + 4#32)) with
          | next u =>
            simp only [hx, finish] at h
            cases h
            exact .inr (.inr (.inr ⟨w, i, u, hw, h0, hd, hx, rfl⟩))
          | fault f => simp only [hx, finish] at h; cases h
          | refused r => simp only [hx, finish] at h; cases h
  · cases h
  · cases h

end Sys2Proof.Machine
end

