-- ==== Sys2Proof/Laws/Exec.lean ====
section
/-! SUPPORT. What executing one instruction can do, said once over all 41 instructions (60_exceptions.md R195): the inversion lemma that
frames, invariants and the list of possible errors are read off. -/

namespace Sys2Proof.Machine

/-- Every next state that `exec i s` can answer, by what was done. -/
inductive ExecEffect (i : Instr) (s : State) : State → Prop where
  /-- A register the instruction names does not exist; nothing was done before. -/
  | noReg (r : RegIdx) (named : r ∈ i.sources ∨ i.dest = some r) (absent : s.hasReg r = false) :
      ExecEffect i s (s.raise (.invalidRegister r))
  /-- FENCE, or a branch not taken. -/
  | nothing (dest : i.dest = none) (store : i.storeWidth = 0) : ExecEffect i s s
  /-- A result is written: LUI, AUIPC, loads, immediate and register operations. -/
  | write (rd : RegIdx) (v : Word) (dest : i.dest = some rd) (present : s.hasReg rd = true) (jump : i.isJump = false)
      (branch : i.isBranch = false) (store : i.storeWidth = 0) (service : i.isService = false) : ExecEffect i s (s.setReg rd v)
  /-- A branch taken to an aligned target. -/
  | branch (target : Word) (branch : i.isBranch = true) (dest : i.dest = none) (store : i.storeWidth = 0) (aligned : aligned4 target = true) :
      ExecEffect i s (s.setPc target)
  /-- A branch taken to a misaligned target. -/
  | branchMisaligned (target : Word) (branch : i.isBranch = true) (aligned : aligned4 target = false) :
      ExecEffect i s (s.raise (.misalignedTarget target))
  /-- JAL or JALR to an aligned target. -/
  | jump (rd : RegIdx) (target : Word) (jump : i.isJump = true) (dest : i.dest = some rd) (present : s.hasReg rd = true)
      (store : i.storeWidth = 0) (aligned : aligned4 target = true) : ExecEffect i s ((s.setReg rd (linkAddr s)).setPc target)
  /-- JAL or JALR to a misaligned target: the link is written all the same. -/
  | jumpMisaligned (rd : RegIdx) (target : Word) (jump : i.isJump = true) (dest : i.dest = some rd) (present : s.hasReg rd = true)
      (aligned : aligned4 target = false) : ExecEffect i s ((s.setReg rd (linkAddr s)).raise (.misalignedTarget target))
  /-- A load whose access fails. -/
  | loadError (a : Word) (e : FatalError) (load : i.loadWidth ≠ 0) (error : memRead s a i.loadWidth = .error e) :
      ExecEffect i s (s.raise e)
  /-- A store that is made; the base is its first source. -/
  | store (a v : Word) (t : State) (store : i.storeWidth ≠ 0) (ok : memWrite s a i.storeWidth v = .ok t) (dest : i.dest = none) :
      ExecEffect i s t
  /-- A store whose access fails. -/
  | storeError (a v : Word) (e : FatalError) (store : i.storeWidth ≠ 0) (error : memWrite s a i.storeWidth v = .error e) :
      ExecEffect i s (s.raise e)
  /-- ECALL or EBREAK. -/
  | service (k : SvcKind) (service : i.isService = true) (dest : i.dest = none) (store : i.storeWidth = 0) :
      ExecEffect i s (s.pushSvc k)

theorem writeBack_effect {i : Instr} {s t : State} {rd : RegIdx} {v : Word} (hd : i.dest = some rd) (hj : i.isJump = false)
    (hb : i.isBranch = false) (hs : i.storeWidth = 0) (hv : i.isService = false) (h : writeBack s rd v = .next t) :
    ExecEffect i s t := by
  obtain ⟨hr, e⟩ | ⟨hr, e⟩ := writeBack_cases s rd v <;> rw [e] at h <;> cases h
  · exact .write rd v hd hr hj hb hs hv
  · exact .noReg rd (.inr hd) hr

theorem immOp_effect {i : Instr} {s t : State} {f : Word → Word} {rd rs1 : RegIdx} (hd : i.dest = some rd) (hsrc : i.sources = [rs1])
    (hj : i.isJump = false) (hb : i.isBranch = false) (hs : i.storeWidth = 0) (hv : i.isService = false)
    (h : immOp f rd rs1 s = .next t) : ExecEffect i s t := by
  obtain ⟨-, hr, e⟩ | ⟨hr, e⟩ | ⟨-, hr, e⟩ := immOp_cases f rd rs1 s <;> rw [e] at h <;> cases h
  · exact .write rd _ hd hr hj hb hs hv
  · exact .noReg rs1 (.inl (by simp [hsrc])) hr
  · exact .noReg rd (.inr hd) hr

theorem regOp_effect {i : Instr} {s t : State} {f : Word → Word → Word} {rd rs1 rs2 : RegIdx} (hd : i.dest = some rd)
    (hsrc : i.sources = [rs1, rs2]) (hj : i.isJump = false) (hb : i.isBranch = false) (hs : i.storeWidth = 0)
    (hv : i.isService = false) (h : regOp f rd rs1 rs2 s = .next t) : ExecEffect i s t := by
  obtain ⟨-, -, hr, e⟩ | ⟨hr, e⟩ | ⟨-, hr, e⟩ | ⟨-, -, hr, e⟩ := regOp_cases f rd rs1 rs2 s <;> rw [e] at h <;> cases h
  · exact .write rd _ hd hr hj hb hs hv
  · exact .noReg rs1 (.inl (by simp [hsrc])) hr
  · exact .noReg rs2 (.inl (by simp [hsrc])) hr
  · exact .noReg rd (.inr hd) hr

theorem branchOp_effect {i : Instr} {s t : State} {cond : Word → Word → Bool} {rs1 rs2 : RegIdx} {off : BitVec 13}
    (hb : i.isBranch = true) (hd : i.dest = none) (hs : i.storeWidth = 0) (hsrc : i.sources = [rs1, rs2])
    (h : branchOp cond rs1 rs2 off s = .next t) : ExecEffect i s t := by
  obtain ⟨-, -, -, e⟩ | ⟨-, -, -, ha, e⟩ | ⟨-, -, -, ha, e⟩ | ⟨hr, e⟩ | ⟨-, hr, e⟩ := branchOp_cases cond rs1 rs2 off s <;>
    rw [e] at h <;> cases h
  · exact .nothing hd hs
  · exact .branch _ hb hd hs ha
  · exact .branchMisaligned _ hb ha
  · exact .noReg rs1 (.inl (by simp [hsrc])) hr
  · exact .noReg rs2 (.inl (by simp [hsrc])) hr

theorem loadOp_effect {i : Instr} {s t : State} {ext : Word → Word} {rd rs1 : RegIdx} {imm : BitVec 12} (hl : i.loadWidth ≠ 0)
    (hd : i.dest = some rd) (hsrc : i.sources = [rs1]) (hj : i.isJump = false) (hb : i.isBranch = false) (hs : i.storeWidth = 0)
    (hv : i.isService = false) (h : loadOp i.loadWidth ext rd rs1 imm s = .next t) : ExecEffect i s t := by
  obtain ⟨-, hr, v, -, e⟩ | ⟨hr, e⟩ | ⟨-, x, hx, e⟩ | ⟨-, hr, -, e⟩ := loadOp_cases i.loadWidth ext rd rs1 imm s <;>
    rw [e] at h <;> cases h
  · exact .write rd _ hd hr hj hb hs hv
  · exact .noReg rs1 (.inl (by simp [hsrc])) hr
  · exact .loadError _ _ hl hx
  · exact .noReg rd (.inr hd) hr

theorem storeOp_effect {i : Instr} {s t : State} {rs1 rs2 : RegIdx} {imm : BitVec 12} (hw : i.storeWidth ≠ 0) (hd : i.dest = none)
    (hsrc : i.sources = [rs1, rs2]) (h : storeOp i.storeWidth rs1 rs2 imm s = .next t) : ExecEffect i s t := by
  obtain ⟨-, -, u, hu, e⟩ | ⟨hr, e⟩ | ⟨-, hr, e⟩ | ⟨-, -, x, hx, e⟩ := storeOp_cases i.storeWidth rs1 rs2 imm s <;>
    rw [e] at h <;> cases h
  · exact .store _ _ _ hw hu hd
  · exact .noReg rs1 (.inl (by simp [hsrc])) hr
  · exact .noReg rs2 (.inl (by simp [hsrc])) hr
  · exact .storeError _ _ _ hw hx

theorem linkJump_effect {i : Instr} {s t : State} {rd : RegIdx} {target : Word} (hj : i.isJump = true) (hd : i.dest = some rd)
    (hs : i.storeWidth = 0) (h : thenWrite s rd (linkAddr s) (fun s' => jumpTo s' target) = .next t) : ExecEffect i s t := by
  obtain ⟨hr, ha, e⟩ | ⟨hr, ha, e⟩ | ⟨hr, e⟩ := linkJump_cases s rd (linkAddr s) target <;> rw [e] at h <;> cases h
  · exact .jump rd target hj hd hr hs ha
  · exact .jumpMisaligned rd target hj hd hr ha
  · exact .noReg rd (.inr hd) hr

/-- The inversion lemma: what an instruction that answers a next state did. -/
theorem exec_effect {i : Instr} {s t : State} (h : exec i s = .next t) : ExecEffect i s t := by
  cases i
  case lui rd imm => exact writeBack_effect (i := .lui rd imm) rfl rfl rfl rfl rfl h
  case auipc rd imm => exact writeBack_effect (i := .auipc rd imm) rfl rfl rfl rfl rfl h
  case jal rd off => exact linkJump_effect (i := .jal rd off) rfl rfl rfl h
  case jalr rd rs1 imm funct3 =>
    cases hr : s.hasReg rs1
    · have e : exec (.jalr rd rs1 imm funct3) s = .next (s.raise (.invalidRegister rs1)) := withReg_of_not_hasReg hr _
      rw [e] at h
      cases h
      exact .noReg rs1 (.inl (by simp [Instr.sources])) hr
    · exact linkJump_effect (i := .jalr rd rs1 imm funct3) rfl rfl rfl ((withReg_of_hasReg hr _).symm.trans h)
  case beq => exact branchOp_effect rfl rfl rfl rfl h
  case bne => exact branchOp_effect rfl rfl rfl rfl h
  case blt => exact branchOp_effect rfl rfl rfl rfl h
  case bge => exact branchOp_effect rfl rfl rfl rfl h
  case bltu => exact branchOp_effect rfl rfl rfl rfl h
  case bgeu => exact branchOp_effect rfl rfl rfl rfl h
  case lb => exact loadOp_effect (by simp [Instr.loadWidth]) rfl rfl rfl rfl rfl rfl h
  case lh => exact loadOp_effect (by simp [Instr.loadWidth]) rfl rfl rfl rfl rfl rfl h
  case lw => exact loadOp_effect (by simp [Instr.loadWidth]) rfl rfl rfl rfl rfl rfl h
  case lbu => exact loadOp_effect (by simp [Instr.loadWidth]) rfl rfl rfl rfl rfl rfl h
  case lhu => exact loadOp_effect (by simp [Instr.loadWidth]) rfl rfl rfl rfl rfl rfl h
  case lwu => exact loadOp_effect (by simp [Instr.loadWidth]) rfl rfl rfl rfl rfl rfl h
  case sb => exact storeOp_effect (by simp [Instr.storeWidth]) rfl rfl h
  case sh => exact storeOp_effect (by simp [Instr.storeWidth]) rfl rfl h
  case sw => exact storeOp_effect (by simp [Instr.storeWidth]) rfl rfl h
  case addi => exact immOp_effect rfl rfl rfl rfl rfl rfl h
  case slti => exact immOp_effect rfl rfl rfl rfl rfl rfl h
  case sltiu => exact immOp_effect rfl rfl rfl rfl rfl rfl h
  case xori => exact immOp_effect rfl rfl rfl rfl rfl rfl h
  case ori => exact immOp_effect rfl rfl rfl rfl rfl rfl h
  case andi => exact immOp_effect rfl rfl rfl rfl rfl rfl h
  case slli => exact immOp_effect rfl rfl rfl rfl rfl rfl h
  case srli => exact immOp_effect rfl rfl rfl rfl rfl rfl h
  case srai => exact immOp_effect rfl rfl rfl rfl rfl rfl h
  case add => exact regOp_effect rfl rfl rfl rfl rfl rfl h
  case sub => exact regOp_effect rfl rfl rfl rfl rfl rfl h
  case sll => exact regOp_effect rfl rfl rfl rfl rfl rfl h
  case slt => exact regOp_effect rfl rfl rfl rfl rfl rfl h
  case sltu => exact regOp_effect rfl rfl rfl rfl rfl rfl h
  case xor => exact regOp_effect rfl rfl rfl rfl rfl rfl h
  case srl => exact regOp_effect rfl rfl rfl rfl rfl rfl h
  case sra => exact regOp_effect rfl rfl rfl rfl rfl rfl h
  case or => exact regOp_effect rfl rfl rfl rfl rfl rfl h
  case and => exact regOp_effect rfl rfl rfl rfl rfl rfl h
  case fence x =>
    have e : exec (.fence x) s = .next s := rfl
    rw [e] at h
    cases h
    exact .nothing rfl rfl
  case ecall =>
    have e : exec .ecall s = .next (s.pushSvc .ecall) := rfl
    rw [e] at h
    cases h
    exact .service .ecall rfl rfl rfl
  case ebreak =>
    have e : exec .ebreak s = .next (s.pushSvc .ebreak) := rfl
    rw [e] at h
    cases h
    exact .service .ebreak rfl rfl rfl

end Sys2Proof.Machine
end

