-- ==== Sys2Proof/Laws/PerInstr.lean ====
section
/-! SUPPORT. Statements made of every instruction, one lemma per constructor. `NotSentinel`: no instruction's word is the all-zero word, so
the zero-word test of the step (10_state.md R19) never takes an instruction for the end of a run. -/

namespace Sys2Proof.Laws.NotSentinel

/-- The word of the instruction is not 0x00000000. -/
def Statement : Instr → Prop := fun i => encode i ≠ 0x00000000#32

/-- The opcode of the all-zero word is 0. -/
theorem of_opcode {w : Word} {op : BitVec 7} (h : opcodeOf w = op) (hop : op ≠ 0#7) : w ≠ 0x00000000#32 := by
  rintro rfl
  exact hop (h.symm.trans (by decide))

theorem lui (rd : RegIdx) (imm : BitVec 20) : Statement (.lui rd imm) := of_opcode (opcodeOf_encodeU ..) (by decide)

theorem auipc (rd : RegIdx) (imm : BitVec 20) : Statement (.auipc rd imm) := of_opcode (opcodeOf_encodeU ..) (by decide)

theorem jal (rd : RegIdx) (off : BitVec 21) : Statement (.jal rd off) := of_opcode (opcodeOf_encodeJ ..) (by decide)

theorem jalr (rd rs1 : RegIdx) (imm : BitVec 12) (funct3 : BitVec 3) : Statement (.jalr rd rs1 imm funct3) := of_opcode (opcodeOf_encodeI ..) (by decide)

theorem beq (rs1 rs2 : RegIdx) (off : BitVec 13) : Statement (.beq rs1 rs2 off) := of_opcode (opcodeOf_encodeB ..) (by decide)

theorem bne (rs1 rs2 : RegIdx) (off : BitVec 13) : Statement (.bne rs1 rs2 off) := of_opcode (opcodeOf_encodeB ..) (by decide)

theorem blt (rs1 rs2 : RegIdx) (off : BitVec 13) : Statement (.blt rs1 rs2 off) := of_opcode (opcodeOf_encodeB ..) (by decide)

theorem bge (rs1 rs2 : RegIdx) (off : BitVec 13) : Statement (.bge rs1 rs2 off) := of_opcode (opcodeOf_encodeB ..) (by decide)

theorem bltu (rs1 rs2 : RegIdx) (off : BitVec 13) : Statement (.bltu rs1 rs2 off) := of_opcode (opcodeOf_encodeB ..) (by decide)

theorem bgeu (rs1 rs2 : RegIdx) (off : BitVec 13) : Statement (.bgeu rs1 rs2 off) := of_opcode (opcodeOf_encodeB ..) (by decide)

theorem lb (rd rs1 : RegIdx) (imm : BitVec 12) : Statement (.lb rd rs1 imm) := of_opcode (opcodeOf_encodeI ..) (by decide)

theorem lh (rd rs1 : RegIdx) (imm : BitVec 12) : Statement (.lh rd rs1 imm) := of_opcode (opcodeOf_encodeI ..) (by decide)

theorem lw (rd rs1 : RegIdx) (imm : BitVec 12) : Statement (.lw rd rs1 imm) := of_opcode (opcodeOf_encodeI ..) (by decide)

theorem lbu (rd rs1 : RegIdx) (imm : BitVec 12) : Statement (.lbu rd rs1 imm) := of_opcode (opcodeOf_encodeI ..) (by decide)

theorem lhu (rd rs1 : RegIdx) (imm : BitVec 12) : Statement (.lhu rd rs1 imm) := of_opcode (opcodeOf_encodeI ..) (by decide)

theorem lwu (rd rs1 : RegIdx) (imm : BitVec 12) : Statement (.lwu rd rs1 imm) := of_opcode (opcodeOf_encodeI ..) (by decide)

theorem sb (rs1 rs2 : RegIdx) (imm : BitVec 12) : Statement (.sb rs1 rs2 imm) := of_opcode (opcodeOf_encodeS ..) (by decide)

theorem sh (rs1 rs2 : RegIdx) (imm : BitVec 12) : Statement (.sh rs1 rs2 imm) := of_opcode (opcodeOf_encodeS ..) (by decide)

theorem sw (rs1 rs2 : RegIdx) (imm : BitVec 12) : Statement (.sw rs1 rs2 imm) := of_opcode (opcodeOf_encodeS ..) (by decide)

theorem addi (rd rs1 : RegIdx) (imm : BitVec 12) : Statement (.addi rd rs1 imm) := of_opcode (opcodeOf_encodeI ..) (by decide)

theorem slti (rd rs1 : RegIdx) (imm : BitVec 12) : Statement (.slti rd rs1 imm) := of_opcode (opcodeOf_encodeI ..) (by decide)

theorem sltiu (rd rs1 : RegIdx) (imm : BitVec 12) : Statement (.sltiu rd rs1 imm) := of_opcode (opcodeOf_encodeI ..) (by decide)

theorem xori (rd rs1 : RegIdx) (imm : BitVec 12) : Statement (.xori rd rs1 imm) := of_opcode (opcodeOf_encodeI ..) (by decide)

theorem ori (rd rs1 : RegIdx) (imm : BitVec 12) : Statement (.ori rd rs1 imm) := of_opcode (opcodeOf_encodeI ..) (by decide)

theorem andi (rd rs1 : RegIdx) (imm : BitVec 12) : Statement (.andi rd rs1 imm) := of_opcode (opcodeOf_encodeI ..) (by decide)

theorem slli (rd rs1 : RegIdx) (shamt : BitVec 5) : Statement (.slli rd rs1 shamt) := of_opcode (opcodeOf_encodeR ..) (by decide)

theorem srli (rd rs1 : RegIdx) (shamt : BitVec 5) : Statement (.srli rd rs1 shamt) := of_opcode (opcodeOf_encodeR ..) (by decide)

theorem srai (rd rs1 : RegIdx) (shamt : BitVec 5) : Statement (.srai rd rs1 shamt) := of_opcode (opcodeOf_encodeR ..) (by decide)

theorem add (rd rs1 rs2 : RegIdx) : Statement (.add rd rs1 rs2) := of_opcode (opcodeOf_encodeR ..) (by decide)

theorem sub (rd rs1 rs2 : RegIdx) : Statement (.sub rd rs1 rs2) := of_opcode (opcodeOf_encodeR ..) (by decide)

theorem sll (rd rs1 rs2 : RegIdx) : Statement (.sll rd rs1 rs2) := of_opcode (opcodeOf_encodeR ..) (by decide)

theorem slt (rd rs1 rs2 : RegIdx) : Statement (.slt rd rs1 rs2) := of_opcode (opcodeOf_encodeR ..) (by decide)

theorem sltu (rd rs1 rs2 : RegIdx) : Statement (.sltu rd rs1 rs2) := of_opcode (opcodeOf_encodeR ..) (by decide)

theorem xor (rd rs1 rs2 : RegIdx) : Statement (.xor rd rs1 rs2) := of_opcode (opcodeOf_encodeR ..) (by decide)

theorem srl (rd rs1 rs2 : RegIdx) : Statement (.srl rd rs1 rs2) := of_opcode (opcodeOf_encodeR ..) (by decide)

theorem sra (rd rs1 rs2 : RegIdx) : Statement (.sra rd rs1 rs2) := of_opcode (opcodeOf_encodeR ..) (by decide)

theorem or (rd rs1 rs2 : RegIdx) : Statement (.or rd rs1 rs2) := of_opcode (opcodeOf_encodeR ..) (by decide)

theorem and (rd rs1 rs2 : RegIdx) : Statement (.and rd rs1 rs2) := of_opcode (opcodeOf_encodeR ..) (by decide)

theorem fence (unexamined : BitVec 25) : Statement (.fence unexamined) := of_opcode (opcodeOf_encodeFence ..) (by decide)

theorem ecall : Statement .ecall := by
  unfold Statement
  decide

theorem ebreak : Statement .ebreak := by
  unfold Statement
  decide

end Sys2Proof.Laws.NotSentinel
end

