-- ==== Sys2Proof/Tests/Slice0.lean ====
section
/-! SUPPORT. The model's own tests: the checks of WellFormed, decoding by words built from the spec's encodings, single steps whose results are
the spec's (95_test_vectors.md, rows cited by section), and for each statement a state and operands that meet its hypotheses. -/

namespace Sys2Proof.Tests

open Sys2Proof Sys2Proof.Machine

/-! ### WellFormed: each check refuses an ill-formed term -/

theorem test_wf_jal_odd_refused : (Instr.jal 1 3).wf = false := by decide
theorem test_wf_beq_odd_refused : (Instr.beq 1 2 1).wf = false := by decide
theorem test_wf_bne_odd_refused : (Instr.bne 1 2 0x1FFF).wf = false := by decide
theorem test_wf_blt_odd_refused : (Instr.blt 1 2 7).wf = false := by decide
theorem test_wf_bge_odd_refused : (Instr.bge 1 2 9).wf = false := by decide
theorem test_wf_bltu_odd_refused : (Instr.bltu 1 2 11).wf = false := by decide
theorem test_wf_bgeu_odd_refused : (Instr.bgeu 1 2 13).wf = false := by decide
theorem test_wf_even_accepted : (Instr.jal 1 0x1FFFFE).wf = true ∧ (Instr.beq 1 2 0x1FFE).wf = true := by decide

/-! ### Decoding: words written field by field from 30_encoding.md R72 and R82 -/

theorem test_decode_upper :
    decode (0b00010010001101000101#20 ++ 0b00101#5 ++ 0b0110111#7) = .ok (.lui 5 0x12345) ∧
    decode (0b11111111111111111111#20 ++ 0b00110#5 ++ 0b0010111#7) = .ok (.auipc 6 0xFFFFF) := by decide

/-- JAL x1, -8: `imm[20] imm[10:1] imm[11] imm[19:12]` of -8; and +2048, offset bit 11 alone. -/
theorem test_decode_jal :
    decode (0b1#1 ++ 0b1111111100#10 ++ 0b1#1 ++ 0b11111111#8 ++ 0b00001#5 ++ 0b1101111#7) = .ok (.jal 1 (-8)) ∧
    decode (0b0#1 ++ 0b0000000000#10 ++ 0b1#1 ++ 0b00000000#8 ++ 0b00000#5 ++ 0b1101111#7) = .ok (.jal 0 2048) := by decide

theorem test_decode_jalr :
    decode (0b111111111100#12 ++ 0b00110#5 ++ 0b000#3 ++ 0b00001#5 ++ 0b1100111#7) = .ok (.jalr 1 6 (-4) 0) ∧
    decode (0b000000000000#12 ++ 0b00101#5 ++ 0b111#3 ++ 0b00001#5 ++ 0b1100111#7) = .ok (.jalr 1 5 0 7) := by decide

/-- `imm[12] imm[10:5] rs2 rs1 funct3 imm[4:1] imm[11] opcode`, offset +8 in each, and offsets with one scattered bit. -/
theorem test_decode_branch :
    decode (0b0#1 ++ 0b000000#6 ++ 0b00110#5 ++ 0b00101#5 ++ 0b000#3 ++ 0b0100#4 ++ 0b0#1 ++ 0b1100011#7) = .ok (.beq 5 6 8) ∧
    decode (0b0#1 ++ 0b000000#6 ++ 0b00110#5 ++ 0b00101#5 ++ 0b001#3 ++ 0b0100#4 ++ 0b0#1 ++ 0b1100011#7) = .ok (.bne 5 6 8) ∧
    decode (0b0#1 ++ 0b000000#6 ++ 0b00110#5 ++ 0b00101#5 ++ 0b100#3 ++ 0b0100#4 ++ 0b0#1 ++ 0b1100011#7) = .ok (.blt 5 6 8) ∧
    decode (0b0#1 ++ 0b000000#6 ++ 0b00110#5 ++ 0b00101#5 ++ 0b101#3 ++ 0b0100#4 ++ 0b0#1 ++ 0b1100011#7) = .ok (.bge 5 6 8) ∧
    decode (0b0#1 ++ 0b000000#6 ++ 0b00110#5 ++ 0b00101#5 ++ 0b110#3 ++ 0b0100#4 ++ 0b0#1 ++ 0b1100011#7) = .ok (.bltu 5 6 8) ∧
    decode (0b0#1 ++ 0b000000#6 ++ 0b00110#5 ++ 0b00101#5 ++ 0b111#3 ++ 0b0100#4 ++ 0b0#1 ++ 0b1100011#7) = .ok (.bgeu 5 6 8) ∧
    decode (0b1#1 ++ 0b000000#6 ++ 0b00000#5 ++ 0b00000#5 ++ 0b000#3 ++ 0b0000#4 ++ 0b0#1 ++ 0b1100011#7) = .ok (.beq 0 0 (-4096)) ∧
    decode (0b0#1 ++ 0b000000#6 ++ 0b00000#5 ++ 0b00000#5 ++ 0b000#3 ++ 0b0000#4 ++ 0b1#1 ++ 0b1100011#7) = .ok (.beq 0 0 2048) ∧
    decode (0b0#1 ++ 0b100000#6 ++ 0b00000#5 ++ 0b00000#5 ++ 0b000#3 ++ 0b0000#4 ++ 0b0#1 ++ 0b1100011#7) = .ok (.beq 0 0 1024) := by
  decide

theorem test_decode_load :
    decode (0b000000000010#12 ++ 0b00110#5 ++ 0b000#3 ++ 0b00101#5 ++ 0b0000011#7) = .ok (.lb 5 6 2) ∧
    decode (0b000000000010#12 ++ 0b00110#5 ++ 0b001#3 ++ 0b00101#5 ++ 0b0000011#7) = .ok (.lh 5 6 2) ∧
    decode (0b111111111100#12 ++ 0b00110#5 ++ 0b010#3 ++ 0b00101#5 ++ 0b0000011#7) = .ok (.lw 5 6 (-4)) ∧
    decode (0b000000000011#12 ++ 0b00110#5 ++ 0b100#3 ++ 0b00101#5 ++ 0b0000011#7) = .ok (.lbu 5 6 3) ∧
    decode (0b000000000010#12 ++ 0b00110#5 ++ 0b101#3 ++ 0b00101#5 ++ 0b0000011#7) = .ok (.lhu 5 6 2) ∧
    decode (0b000000000000#12 ++ 0b00110#5 ++ 0b110#3 ++ 0b00101#5 ++ 0b0000011#7) = .ok (.lwu 5 6 0) := by decide

/-- `imm[11:5] rs2 rs1 funct3 imm[4:0] opcode`. -/
theorem test_decode_store :
    decode (0b1111111#7 ++ 0b00101#5 ++ 0b00000#5 ++ 0b000#3 ++ 0b11100#5 ++ 0b0100011#7) = .ok (.sb 0 5 (-4)) ∧
    decode (0b0000000#7 ++ 0b00101#5 ++ 0b00110#5 ++ 0b001#3 ++ 0b00010#5 ++ 0b0100011#7) = .ok (.sh 6 5 2) ∧
    decode (0b0111111#7 ++ 0b00101#5 ++ 0b00110#5 ++ 0b010#3 ++ 0b11111#5 ++ 0b0100011#7) = .ok (.sw 6 5 2047) := by decide

theorem test_decode_immediate :
    decode (0b111111111111#12 ++ 0b00110#5 ++ 0b000#3 ++ 0b00101#5 ++ 0b0010011#7) = .ok (.addi 5 6 (-1)) ∧
    decode (0b000000000101#12 ++ 0b00110#5 ++ 0b010#3 ++ 0b00101#5 ++ 0b0010011#7) = .ok (.slti 5 6 5) ∧
    decode (0b100000000000#12 ++ 0b00110#5 ++ 0b011#3 ++ 0b00101#5 ++ 0b0010011#7) = .ok (.sltiu 5 6 (-2048)) ∧
    decode (0b000011110000#12 ++ 0b00110#5 ++ 0b100#3 ++ 0b00101#5 ++ 0b0010011#7) = .ok (.xori 5 6 0x0F0) ∧
    decode (0b000011110000#12 ++ 0b00110#5 ++ 0b110#3 ++ 0b00101#5 ++ 0b0010011#7) = .ok (.ori 5 6 0x0F0) ∧
    decode (0b011111111111#12 ++ 0b00110#5 ++ 0b111#3 ++ 0b00101#5 ++ 0b0010011#7) = .ok (.andi 5 6 0x7FF) ∧
    decode (0b0000000#7 ++ 0b11111#5 ++ 0b00110#5 ++ 0b001#3 ++ 0b00101#5 ++ 0b0010011#7) = .ok (.slli 5 6 31) ∧
    decode (0b0000000#7 ++ 0b00100#5 ++ 0b00110#5 ++ 0b101#3 ++ 0b00101#5 ++ 0b0010011#7) = .ok (.srli 5 6 4) ∧
    decode (0b0100000#7 ++ 0b00100#5 ++ 0b00110#5 ++ 0b101#3 ++ 0b00101#5 ++ 0b0010011#7) = .ok (.srai 5 6 4) := by decide

theorem test_decode_register :
    decode (0b0000000#7 ++ 0b00111#5 ++ 0b00110#5 ++ 0b000#3 ++ 0b00101#5 ++ 0b0110011#7) = .ok (.add 5 6 7) ∧
    decode (0b0100000#7 ++ 0b00111#5 ++ 0b00110#5 ++ 0b000#3 ++ 0b00101#5 ++ 0b0110011#7) = .ok (.sub 5 6 7) ∧
    decode (0b0000000#7 ++ 0b00111#5 ++ 0b00110#5 ++ 0b001#3 ++ 0b00101#5 ++ 0b0110011#7) = .ok (.sll 5 6 7) ∧
    decode (0b0000000#7 ++ 0b00111#5 ++ 0b00110#5 ++ 0b010#3 ++ 0b00101#5 ++ 0b0110011#7) = .ok (.slt 5 6 7) ∧
    decode (0b0000000#7 ++ 0b00111#5 ++ 0b00110#5 ++ 0b011#3 ++ 0b00101#5 ++ 0b0110011#7) = .ok (.sltu 5 6 7) ∧
    decode (0b0000000#7 ++ 0b00111#5 ++ 0b00110#5 ++ 0b100#3 ++ 0b00101#5 ++ 0b0110011#7) = .ok (.xor 5 6 7) ∧
    decode (0b0000000#7 ++ 0b00111#5 ++ 0b00110#5 ++ 0b101#3 ++ 0b00101#5 ++ 0b0110011#7) = .ok (.srl 5 6 7) ∧
    decode (0b0100000#7 ++ 0b00111#5 ++ 0b00110#5 ++ 0b101#3 ++ 0b00101#5 ++ 0b0110011#7) = .ok (.sra 5 6 7) ∧
    decode (0b0000000#7 ++ 0b00111#5 ++ 0b00110#5 ++ 0b110#3 ++ 0b00101#5 ++ 0b0110011#7) = .ok (.or 5 6 7) ∧
    decode (0b0000000#7 ++ 0b00111#5 ++ 0b00110#5 ++ 0b111#3 ++ 0b00101#5 ++ 0b0110011#7) = .ok (.and 5 6 7) := by decide

theorem test_decode_fence_service :
    decode (0b0000111111110000000000000#25 ++ 0b0001111#7) = .ok (.fence 0b0000111111110000000000000) ∧
    decode (0b1111111111111111111111111#25 ++ 0b0001111#7) = .ok (.fence 0b1111111111111111111111111) ∧
    decode (0b000000000000#12 ++ 0b00000#5 ++ 0b000#3 ++ 0b00000#5 ++ 0b1110011#7) = .ok .ecall ∧
    decode (0b000000000001#12 ++ 0b00000#5 ++ 0b000#3 ++ 0b00000#5 ++ 0b1110011#7) = .ok .ebreak := by decide

/-- Sections 2.3 to 2.9: illegal words and the error each raises. -/
theorem test_decode_illegal :
    decode 0xFFFFFFFF#32 = .error (.invalidOpcode 0x7F) ∧ decode 0x00000010#32 = .error (.invalidOpcode 0x10) ∧
    decode 0x0062A463#32 = .error (.invalidFunct 0x63 2 0) ∧ decode 0x00037283#32 = .error (.invalidWidth 7) ∧
    decode 0x00533023#32 = .error (.invalidWidth 3) ∧ decode 0x02031293#32 = .error (.invalidFunct 0x13 1 0x01) ∧
    decode 0x42435293#32 = .error (.invalidFunct 0x13 5 0x21) ∧ decode 0x407312B3#32 = .error (.invalidFunct 0x33 1 0x20) ∧
    decode 0x807302B3#32 = .error (.invalidFunct 0x33 0 0x40) ∧ decode 0x30200073#32 = .error (.invalidFunct 0x73 0 0x18) ∧
    decode 0x000000F3#32 = .error (.invalidFunct 0x73 0 0x00) := by decide

theorem test_decodeTableWord : decodeTableWord 32 0x00700293 = some (.addi 5 0 7) ∧ decodeTableWord 32 0x00000000 = none := by decide

/-! ### One step at A = 0x100 of REF (the conventions of 95_test_vectors.md) -/

/-- REF with NREGS = 16. -/
def embedded : State := State.construct { Config.ref with nregs := .embedded }

/-- REF with HALT_ON_SERVICE. -/
def halting : State := State.construct { Config.ref with haltOnService := true }

/-- A state with the word at 0x100, the pc there, and some registers set. -/
def prepare (s : State) (w : Nat) (regs : List (RegIdx × Word)) : State :=
  (regs.foldl (fun s r => s.setReg r.1 r.2) (s.setPc 0x100#32)).withFetchWord 32 w

/-- Section 2.4's RAM: bytes at 0x4000 up. -/
def withRam (s : State) : State :=
  { s with bus := [.memory { base := 0x0000, size := 0x1000, buf := [] },
      .memory { base := 0x4000, size := 0x1000, buf := [(0x4000, 0x80), (0x4001, 0x91), (0x4002, 0xA2), (0x4003, 0xF3), (0x4004, 0x04)] },
      .output 0x9000#32] }

/-- A register, the pc and the status after one step. -/
def after (s : State) (r : RegIdx) : Option (Word × Word × Status) :=
  match step s with
  | .next t => some (t.reg r, t.pc, t.status)
  | .fault _ => none
  | .refused _ => none

/-- Five bytes of RAM from 0x4000, the events and the status after one step. -/
def afterStore (s : State) : Option (List (Option Byte) × List OutEvent × Status) :=
  match step s with
  | .next t => some ((List.range 5).map (fun k => t.deviceByte 1 (0x4000 + k)), t.out, t.status)
  | .fault _ => none
  | .refused _ => none

/-- The service events, the pc and the status after one step. -/
def afterService (s : State) : Option (List SvcEvent × Word × Status) :=
  match step s with
  | .next t => some (t.svc, t.pc, t.status)
  | .fault _ => none
  | .refused _ => none

-- 2.1
theorem test_lui : after (prepare State.reset 0x123452B7 []) 5 = some (0x12345000, 0x104, .running) := by decide
theorem test_auipc_wraps : after (prepare State.reset 0xFFFFF317 []) 6 = some (0xFFFFF100, 0x104, .running) := by decide
-- 2.2
theorem test_jal_back : after (prepare State.reset 0xFF9FF0EF []) 1 = some (0x104, 0x0F8, .running) := by decide
theorem test_jal_misaligned : after (prepare State.reset 0x002000EF []) 1 = some (0x104, 0x104, .faulted (.misalignedTarget 0x102)) := by
  decide
theorem test_jalr_old_base : after (prepare State.reset 0xFFC080E7 [(1, 0x400)]) 1 = some (0x104, 0x3FC, .running) := by decide
theorem test_jalr_clears_bit0 :
    after (prepare State.reset 0x003302E7 [(6, 0x300)]) 5 = some (0x104, 0x104, .faulted (.misalignedTarget 0x302)) := by decide
-- 2.3
theorem test_beq : after (prepare State.reset 0x00628463 [(5, 5), (6, 5)]) 5 = some (5, 0x108, .running) := by decide
theorem test_bne_back : after (prepare State.reset 0xFE629EE3 [(5, 1)]) 5 = some (1, 0x0FC, .running) := by decide
theorem test_bne_untaken_misaligned : after (prepare State.reset 0x00001163 []) 5 = some (0, 0x104, .running) := by decide
theorem test_blt_signed : after (prepare State.reset 0x0062C463 [(5, 0xFFFFFFFF), (6, 1)]) 6 = some (1, 0x108, .running) := by decide
theorem test_bge_equal : after (prepare State.reset 0x0062D463 [(5, 5), (6, 5)]) 5 = some (5, 0x108, .running) := by decide
theorem test_bltu_unsigned : after (prepare State.reset 0x0062E463 [(5, 0xFFFFFFFF), (6, 1)]) 6 = some (1, 0x104, .running) := by decide
theorem test_bgeu : after (prepare State.reset 0x0062F463 [(5, 0x80000000), (6, 0x7FFFFFFF)]) 0 = some (0, 0x108, .running) := by decide
-- 2.4
theorem test_lb_sign : after (withRam (prepare State.reset 0 [(6, 0x4000)]) |>.withFetchWord 32 0x00030283) 5 =
    some (0xFFFFFF80, 0x104, .running) := by decide
theorem test_lh_sign : after (withRam (prepare State.reset 0 [(6, 0x4000)]) |>.withFetchWord 32 0x00231283) 5 =
    some (0xFFFFF3A2, 0x104, .running) := by decide
theorem test_lw_misaligned : after (withRam (prepare State.reset 0 [(6, 0x4000)]) |>.withFetchWord 32 0x00132283) 5 =
    some (0x04F3A291, 0x104, .running) := by decide
theorem test_lw_out_of_range : after (prepare State.reset 0x00032283 [(6, 0x4FFE)]) 5 =
    some (0, 0x104, .faulted (.outOfRange 0x4FFE)) := by decide
theorem test_lbu : after (withRam (prepare State.reset 0 [(6, 0x4000)]) |>.withFetchWord 32 0x00334283) 5 =
    some (0x000000F3, 0x104, .running) := by decide
theorem test_lhu : after (withRam (prepare State.reset 0 [(6, 0x4000)]) |>.withFetchWord 32 0x00235283) 5 =
    some (0x0000F3A2, 0x104, .running) := by decide
theorem test_lwu : after (withRam (prepare State.reset 0 [(6, 0x4000)]) |>.withFetchWord 32 0x00036283) 5 =
    some (0xF3A29180, 0x104, .running) := by decide
-- 2.5
theorem test_sb_port : afterStore (prepare State.reset 0x00530023 [(5, 0x11223344), (6, 0x9000)]) =
    some ([some 0, some 0, some 0, some 0, some 0], [⟨0x9000, 1, [0x44]⟩], .running) := by decide
theorem test_sh : afterStore (prepare State.reset 0x00531123 [(5, 0x11223344), (6, 0x4000)]) =
    some ([some 0, some 0, some 0x44, some 0x33, some 0], [], .running) := by decide
theorem test_sw_misaligned : afterStore (prepare State.reset 0x005320A3 [(5, 0x11223344), (6, 0x4000)]) =
    some ([some 0, some 0x44, some 0x33, some 0x22, some 0x11], [], .running) := by decide
-- 2.6
theorem test_addi_wraps : after (prepare State.reset 0x00130293 [(6, 0x7FFFFFFF)]) 5 = some (0x80000000, 0x104, .running) := by decide
theorem test_slti_signed : after (prepare State.reset 0x00132293 [(6, 0x80000000)]) 5 = some (1, 0x104, .running) := by decide
theorem test_sltiu_sign_extends : after (prepare State.reset 0x80033293 [(6, 0xFFFFF7FF)]) 5 = some (1, 0x104, .running) := by decide
theorem test_xori : after (prepare State.reset 0xFFF34293 [(6, 0x12345678)]) 5 = some (0xEDCBA987, 0x104, .running) := by decide
theorem test_ori : after (prepare State.reset 0x80036293 [(6, 1)]) 5 = some (0xFFFFF801, 0x104, .running) := by decide
theorem test_andi : after (prepare State.reset 0xFF037293 [(6, 0x12345678)]) 5 = some (0x12345670, 0x104, .running) := by decide
theorem test_slli : after (prepare State.reset 0x00431293 [(6, 0x12345678)]) 5 = some (0x23456780, 0x104, .running) := by decide
theorem test_srli : after (prepare State.reset 0x00435293 [(6, 0x87654321)]) 5 = some (0x08765432, 0x104, .running) := by decide
theorem test_srai : after (prepare State.reset 0x40435293 [(6, 0x87654321)]) 5 = some (0xF8765432, 0x104, .running) := by decide
-- 2.7
theorem test_add_alias : after (prepare State.reset 0x005282B3 [(5, 0x80000001)]) 5 = some (2, 0x104, .running) := by decide
theorem test_sub : after (prepare State.reset 0x407302B3 [(6, 0x87654321), (7, 0x24)]) 5 = some (0x876542FD, 0x104, .running) := by decide
theorem test_sll_low_bits : after (prepare State.reset 0x007312B3 [(6, 0x87654321), (7, 0x24)]) 5 = some (0x76543210, 0x104, .running) := by
  decide
theorem test_slt : after (prepare State.reset 0x007322B3 [(6, 0xFFFFFFFF), (7, 1)]) 5 = some (1, 0x104, .running) := by decide
theorem test_sltu : after (prepare State.reset 0x007332B3 [(6, 0xFFFFFFFF), (7, 1)]) 5 = some (0, 0x104, .running) := by decide
theorem test_xor : after (prepare State.reset 0x007342B3 [(6, 7), (7, 3)]) 5 = some (4, 0x104, .running) := by decide
theorem test_srl : after (prepare State.reset 0x007352B3 [(6, 0x87654321), (7, 0x24)]) 5 = some (0x08765432, 0x104, .running) := by decide
theorem test_sra : after (prepare State.reset 0x407352B3 [(6, 0x80000000), (7, 0x7FFFFFFF)]) 5 = some (0xFFFFFFFF, 0x104, .running) := by decide
theorem test_or : after (prepare State.reset 0x007362B3 [(6, 0x87654321), (7, 0x24)]) 5 = some (0x87654325, 0x104, .running) := by decide
theorem test_and : after (prepare State.reset 0x007372B3 [(6, 7), (7, 3)]) 5 = some (3, 0x104, .running) := by decide
-- 2.8
theorem test_fence : after (prepare State.reset 0xFFFFFF8F [(31, 9)]) 31 = some (9, 0x104, .running) := by decide
theorem test_ecall : afterService (prepare State.reset 0x00000073 []) = some ([⟨.ecall, 0x100⟩], 0x104, .running) := by decide
theorem test_ebreak_halting : afterService (prepare halting 0x00100073 []) = some ([⟨.ebreak, 0x100⟩], 0x104, .halted .service) := by decide
-- 2.9, 2.10, 2.11
theorem test_zero_word : after (prepare State.reset 0 []) 5 = some (0, 0x100, .halted .zeroWord) := by decide
theorem test_illegal : after (prepare State.reset 0x027342B3 []) 5 = some (0, 0x104, .faulted (.invalidFunct 0x33 4 0x01)) := by decide
theorem test_first_bad_register : after (prepare embedded 0x01180933 []) 18 = some (0, 0x104, .faulted (.invalidRegister 16)) := by decide
theorem test_link_register_absent : after (prepare embedded 0x00200A6F []) 20 = some (0, 0x104, .faulted (.invalidRegister 20)) := by decide
theorem test_access_before_rd : after (prepare embedded 0x00032A03 [(6, 0x5000)]) 20 =
    some (0, 0x104, .faulted (.unmappedAddress 0x5000)) := by decide
theorem test_pc_zero_halts : after (prepare State.reset 0xF01FF0EF []) 1 = some (0x104, 0, .halted .pcZero) := by decide
theorem test_fetch_out_of_range : after (State.reset.setPc 0xFFE) 0 = some (0, 0xFFE, .faulted (.outOfRange 0xFFE)) := by decide
theorem test_fetch_unmapped : after (State.reset.setPc 0x1000) 0 = some (0, 0x1000, .faulted (.unmappedAddress 0x1000)) := by decide
theorem test_fetch_port : after (State.reset.setPc 0x9000) 0 = some (0, 0x9000, .halted .zeroWord) := by decide
theorem test_withFetchWord_at_reset : after (State.reset.withFetchWord 32 0x00700293) 5 = some (7, 4, .running) := by decide

/-- Every buffer of the reset state is in canonical form. -/
theorem test_reset_memory_canonical : State.reset.busWf = true := by decide

/-! ### Witnesses: a state and operands that meet the hypotheses of each statement, clause by clause -/

/-- The three peripherals of REF. -/
def rom : Peripheral := .memory { base := 0x0000, size := 0x1000, buf := [] }
def ramDevice : MemoryDevice := { base := 0x4000, size := 0x1000, buf := [] }

/-- A running state whose x6 is an address and whose pc is 0x104, as when the instruction at 0x100 executes. -/
def withX6 (a : Word) : State := (State.reset.setPc 0x104#32).setReg 6 a

theorem witness_RegisterReadRule : ((16#5 : RegIdx) ≠ 0#5 ∧ embedded.nregs.count ≤ (16#5 : RegIdx).toNat) ∧
    ((15#5 : RegIdx) ≠ 0#5 ∧ (15#5 : RegIdx).toNat < embedded.nregs.count) ∧
    ((31#5 : RegIdx) ≠ 0#5 ∧ (31#5 : RegIdx).toNat < State.reset.nregs.count) ∧ State.reset.nregs = .full := by decide

theorem witness_RegisterWriteRule : ((16#5 : RegIdx) ≠ 0#5 ∧ embedded.nregs.count ≤ (16#5 : RegIdx).toNat) ∧
    ((15#5 : RegIdx) ≠ 0#5 ∧ (15#5 : RegIdx).toNat < embedded.nregs.count ∧ (1#5 : RegIdx) ≠ 15#5) := by decide

theorem witness_SignedViewOfRegisters : (1#5 : RegIdx) ≠ 0#5 ∧ (1#5 : RegIdx).toNat < State.reset.nregs.count ∧
    (-2 ^ 31 ≤ (-2 ^ 31 : Int) ∧ (-2 ^ 31 : Int) < 2 ^ 32) ∧ (-2 ^ 31 ≤ (2 ^ 32 - 1 : Int) ∧ (2 ^ 32 - 1 : Int) < 2 ^ 32) := by decide

theorem witness_uncovered : ∀ p ∈ State.reset.bus, p.covers 0x5000#32 = false := by decide

theorem witness_first_memory : FirstCovering State.reset 0x4FFF#32 [rom] (.memory ramDevice) [.output 0x9000#32] := by
  unfold FirstCovering; decide

theorem witness_first_output : FirstCovering State.reset 0x9000#32 [rom, .memory ramDevice] (.output 0x9000#32) [] := by
  unfold FirstCovering; decide

theorem witness_AccessGoesToFirstCoveringPeripheral :
    (Peripheral.memory ramDevice).store 0x4FFF#32 2 1#32 = .error (.outOfRange 0x4FFF#32) ∧
    (Peripheral.memory ramDevice).store 0x4FFF#32 1 1#32 = .ok (.memory { ramDevice with buf := [(0x4FFF, 1#8)] }, []) :=
  ⟨rfl, rfl⟩

theorem witness_MemoryDeviceBytesAndBounds :
    (ramDevice.base ≤ (0x4FFC#32).toNat ∧ (0x4FFC#32).toNat + 4 ≤ ramDevice.base + ramDevice.size) ∧
    ¬ (ramDevice.base ≤ (0x4FFD#32).toNat ∧ (0x4FFD#32).toNat + 4 ≤ ramDevice.base + ramDevice.size) ∧
    ¬ (ramDevice.base ≤ (0x3FFF#32).toNat ∧ (0x3FFF#32).toNat + 2 ≤ ramDevice.base + ramDevice.size) ∧
    ramDevice.buf.wf = true := by decide

theorem witness_StoredWordReadsBackInSlices : ramDevice.wf = true ∧
    (∃ d, ramDevice.store 0x4FFB#32 4 0x11223344#32 = .ok d) ∧ (0x4FFB#32).toNat + 5 ≤ ramDevice.base + ramDevice.size :=
  ⟨by decide, ⟨_, rfl⟩, by decide⟩

theorem witness_UnsupportedWidthIsUnreachable : ((3 : Nat) ≠ 1 ∧ (3 : Nat) ≠ 2 ∧ (3 : Nat) ≠ 4) ∧ State.reset.status = .running ∧
    ∃ t, exec (.lw 5 0 0) State.reset = .next t := ⟨by decide, rfl, ⟨_, rfl⟩⟩

theorem witness_DecodeGivesBackEncode : (Instr.jal 1 0x0FFFFE).wf = true ∧ (Instr.beq 1 2 0x1000).wf = true ∧
    (Instr.fence 0x1FFFFFF).wf = true := by decide

theorem witness_EncodeGivesBackDecode : decode 0xFFFFF317#32 = .ok (.auipc 6 0xFFFFF) := by decide

theorem witness_DecodedOperandsAreTheFields : decode 0xFE532E23#32 = .ok (.sw 6 5 (-4)) ∧ (Instr.add 5 6 7).dest = some 5#5 := by decide

/-- A word of each class of the table of illegal words, and one of none. -/
theorem witness_IllegalWordsAndTheirErrors :
    ((0x00000001#32).extractLsb' 0 7 ∉ [0x37#7, 0x17#7, 0x6F#7, 0x67#7, 0x63#7, 0x03#7, 0x23#7, 0x13#7, 0x33#7, 0x0F#7, 0x73#7]) ∧
    ((0x0062B463#32).extractLsb' 0 7 = 0x63#7 ∧ (0x0062B463#32).extractLsb' 12 3 = 3#3) ∧
    ((0x20435293#32).extractLsb' 0 7 = 0x13#7 ∧ (0x20435293#32).extractLsb' 12 3 = 5#3 ∧ (0x20435293#32).extractLsb' 25 7 = 0x10#7) ∧
    ((0x407372B3#32).extractLsb' 0 7 = 0x33#7 ∧ (0x407372B3#32).extractLsb' 12 3 = 7#3 ∧ (0x407372B3#32).extractLsb' 25 7 = 0x20#7) ∧
    (0x00200073#32).extractLsb' 0 7 = 0x73#7 ∧
    ((0x00033283#32).extractLsb' 0 7 = 0x03#7 ∧ (0x00033283#32).extractLsb' 12 3 = 3#3) ∧
    ((0x00533023#32).extractLsb' 0 7 = 0x23#7 ∧ (0x00533023#32).extractLsb' 12 3 = 3#3) ∧
    ((0x407302B3#32).extractLsb' 0 7 = 0x33#7 ∧ (0x407302B3#32).extractLsb' 12 3 = 0#3) := by decide

theorem witness_StepRunsTheDecodedInstruction : (prepare State.reset 0x00700293 []).status = .running ∧
    fetch (prepare State.reset 0x00700293 []) = .ok 0x00700293#32 ∧ (0x00700293#32 : Word) ≠ 0#32 ∧
    decode 0x00700293#32 = .ok (.addi 5 0 7) := ⟨rfl, rfl, by decide, by decide⟩

theorem witness_ZeroWordHaltsBeforeTheAdvance : State.reset.status = .running ∧ fetch State.reset = .ok 0x00000000#32 := ⟨rfl, rfl⟩

theorem witness_FetchAndDecodeErrors :
    (∀ p ∈ (State.reset.setPc 0x1000#32).bus, p.covers (State.reset.setPc 0x1000#32).pc = false) ∧
    (FirstCovering (State.reset.setPc 0xFFD#32) 0xFFD#32 [] rom [.memory ramDevice, .output 0x9000#32] ∧
      0x0000 + 0x1000 < (0xFFD#32).toNat + 4) ∧
    (fetch (prepare State.reset 0x027302B3 []) = .ok 0x027302B3#32 ∧
      decode 0x027302B3#32 = .error (.invalidFunct 0x33 0 0x01)) :=
  ⟨by decide, ⟨by unfold FirstCovering; decide, by decide⟩, rfl, by decide⟩

theorem witness_StoppedMachineTakesNoStep : (State.reset.halt .pcZero).status = .halted .pcZero ∧
    (State.reset.raise (.misalignedTarget 2#32)).status = .faulted (.misalignedTarget 2#32) := ⟨rfl, rfl⟩

theorem witness_PlacedWordIsTheNextFetch : (State.reset.setPc 0xFFC#32).busWf = true ∧
    InDevice (State.reset.setPc 0xFFC#32) 0xFFC#32 4 [] { base := 0x0000, size := 0x1000, buf := [] }
      [.memory ramDevice, .output 0x9000#32] := by
  unfold InDevice FirstCovering; decide

/-- The register hypotheses of the instruction rules: all present, the last present, the first absent. -/
theorem witness_registers : State.reset.hasReg 31#5 = true ∧ embedded.hasReg 15#5 = true ∧ embedded.hasReg 16#5 = false ∧
    embedded.hasReg 0#5 = true := by decide

/-- The mask hypotheses, at words with every unmasked bit set. -/
theorem witness_masks : 0xFFFFFFB7#32 &&& 0x0000007F#32 = 0x00000037#32 ∧ 0xFFFFFF97#32 &&& 0x0000007F#32 = 0x00000017#32 ∧
    0xFFFFFF8F#32 &&& 0x0000007F#32 = 0x0000000F#32 ∧ 0xFFFFFFE3#32 &&& 0x0000707F#32 = 0x00007063#32 ∧
    0xFFFF8F83#32 &&& 0x0000707F#32 = 0x00000003#32 ∧ 0xFFFFAFA3#32 &&& 0x0000707F#32 = 0x00002023#32 ∧
    0xFFFF8F93#32 &&& 0x0000707F#32 = 0x00000013#32 ∧ 0x41FFDF93#32 &&& 0xFE00707F#32 = 0x40005013#32 ∧
    0x41FFDFB3#32 &&& 0xFE00707F#32 = 0x40005033#32 := by decide

theorem witness_JumpRules :
    (ownAddr (withX6 0x300#32) + BitVec.ofInt 32 (16#21).toInt).toNat % 4 = 0 ∧
    (ownAddr (withX6 0x300#32) + BitVec.ofInt 32 (2#21).toInt).toNat % 4 ≠ 0 ∧
    ((((withX6 0x300#32).reg 6 + BitVec.ofInt 32 (1#12).toInt) >>> 1) <<< 1).toNat % 4 = 0 ∧
    ((((withX6 0x300#32).reg 6 + BitVec.ofInt 32 (3#12).toInt) >>> 1) <<< 1).toNat % 4 ≠ 0 := by decide

theorem witness_ControlTransferTargetsAreAligned :
    (branchTable.length = 6 ∧ (withX6 0#32).reg 6 = (withX6 0#32).reg 0) ∧
    ((State.reset.setPc 0x1000#32).status = .running ∧ ∀ p ∈ (State.reset.setPc 0x1000#32).bus, p.covers 0x1000#32 = false) ∧
    (State.reset.pc.toNat % 4 = 0 ∧ ∃ t, step State.reset = .next t) := ⟨⟨rfl, by decide⟩, by decide, rfl, ⟨_, rfl⟩⟩

/-- Operands that make each of the six conditions true, and false; an aligned and a misaligned target. -/
theorem witness_BranchRules :
    ((withX6 0xFFFFFFFF#32).reg 6 = 0xFFFFFFFF#32 ∧ (withX6 0xFFFFFFFF#32).reg 0 = 0#32) ∧
    ((0#32 : Word) = 0#32 ∧ (0xFFFFFFFF#32 : Word) ≠ 0#32) ∧
    ((0xFFFFFFFF#32).toInt < (0#32).toInt ∧ ¬ (0#32).toInt < (0xFFFFFFFF#32).toInt) ∧
    ((0#32).toNat < (0xFFFFFFFF#32).toNat ∧ ¬ (0xFFFFFFFF#32).toNat < (0#32).toNat) ∧
    (branchGoal (withX6 0#32) (-4096)).toNat % 4 = 0 ∧ (branchGoal (withX6 0#32) 4094).toNat % 4 ≠ 0 := by decide

/-- The last place of RAM for four bytes, and the output port, as load and store targets. -/
theorem witness_LoadRules :
    InDevice (withX6 0x5000#32) (dataAddr (withX6 0x5000#32) 6 (-4)) 4 [rom] ramDevice [.output 0x9000#32] ∧
    FirstCovering (withX6 0x9000#32) (dataAddr (withX6 0x9000#32) 6 0) [rom, .memory ramDevice] (.output 0x9000#32) [] := by
  unfold InDevice FirstCovering; decide

theorem witness_LoadErrorOrder :
    (∀ p ∈ (withX6 0#32).bus, p.covers (dataAddr (withX6 0#32) 6 (-4)) = false) ∧
    (FirstCovering (withX6 0x4FFF#32) (dataAddr (withX6 0x4FFF#32) 6 0) [rom] (.memory ramDevice) [.output 0x9000#32] ∧
      ramDevice.base + ramDevice.size < (dataAddr (withX6 0x4FFF#32) 6 0).toNat + 2) ∧
    (memRead embedded 0x4FFC#32 4 = .ok 0#32 ∧ embedded.hasReg 20#5 = false) :=
  ⟨by decide, ⟨by unfold FirstCovering; decide, by decide⟩, rfl, by decide⟩

theorem witness_StoreRules : ramDevice.buf.wf = true ∧
    InDevice (withX6 0x4FFF#32) (dataAddr (withX6 0x4FFF#32) 6 0) 1 [rom] ramDevice [.output 0x9000#32] ∧
    FirstCovering (withX6 0x9000#32) (dataAddr (withX6 0x9000#32) 6 0) [rom, .memory ramDevice] (.output 0x9000#32) [] := by
  unfold InDevice FirstCovering; decide

theorem witness_StoreErrorOrder :
    (∀ p ∈ (withX6 0x3FFF#32).bus, p.covers (dataAddr (withX6 0x3FFF#32) 6 0) = false) ∧
    (FirstCovering (withX6 0x4FFD#32) (dataAddr (withX6 0x4FFD#32) 6 0) [rom] (.memory ramDevice) [.output 0x9000#32] ∧
      ramDevice.base + ramDevice.size < (dataAddr (withX6 0x4FFD#32) 6 0).toNat + 4) :=
  ⟨by decide, by unfold FirstCovering; decide, by decide⟩

theorem witness_StoreFrame : (∃ t, exec (.sw 6 5 0) (withX6 0x4FFC#32) = .next t) ∧
    (0x4FFB#32).toNat < (effAddr ((withX6 0x4FFC#32).reg 6) 0).toNat ∧
    (effAddr ((withX6 0x4FF8#32).reg 6) 0).toNat + 4 ≤ (0x4FFC#32).toNat := ⟨⟨_, rfl⟩, by decide, by decide⟩

theorem witness_ImmediateShiftRules :
    (0x02001013#32 &&& 0x0000707F#32 = 0x00001013#32 ∧ (0x02001013#32).extractLsb' 25 7 ≠ 0x00#7) ∧
    (0x42005013#32 &&& 0x0000707F#32 = 0x00005013#32 ∧ (0x42005013#32).extractLsb' 25 7 ≠ 0x00#7 ∧
      (0x42005013#32).extractLsb' 25 7 ≠ 0x20#7) := by decide

/-- Next states of one instruction of each shape, for the frames and the whole-machine rules. -/
theorem witness_frames :
    (∃ t, exec (.add 5 6 6) (withX6 1#32) = .next t) ∧ (Instr.add 5 6 6).dest ≠ some 6#5 ∧ (Instr.sw 6 5 0).dest = none ∧
    (∃ t, exec (.sw 6 5 0) (withX6 0x4000#32) = .next t) ∧ (Instr.add 5 6 6).storeWidth = 0 ∧ (Instr.add 5 6 6).isService = false ∧
    (Instr.add 5 6 6).isBranch = false ∧ (Instr.add 5 6 6).isJump = false :=
  ⟨⟨_, rfl⟩, by decide, rfl, ⟨_, rfl⟩, rfl, rfl, rfl, rfl⟩

theorem witness_WritesToRegisterZeroAreDiscarded : (Instr.lw 0 6 0).dest = some 0#5 ∧
    exec (.lw 0 6 0) (withX6 0x4000#32) = .next (withX6 0x4000#32) ∧ (Instr.lw 0 6 0).isJump = false := ⟨rfl, rfl, rfl⟩

/-- An instruction that raises, for the rules on errors: a load that runs off RAM, and a jump that has written its link. -/
theorem witness_raises : (withX6 0x4FFF#32).status = .running ∧
    exec (.lh 5 6 0) (withX6 0x4FFF#32) = .next ((withX6 0x4FFF#32).raise (.outOfRange 0x4FFF#32)) ∧
    exec (.jal 1 2) (withX6 0#32) = .next (((withX6 0#32).setReg 1 0x104#32).raise (.misalignedTarget 0x102#32)) := ⟨rfl, rfl, rfl⟩

/-- A state that meets the invariant and steps. -/
theorem witness_EveryStepKeepsTheInvariant : (prepare State.reset 0x00530023 [(5, 1), (6, 0x9000)]).inv = true ∧
    ∃ t, step (prepare State.reset 0x00530023 [(5, 1), (6, 0x9000)]) = .next t := ⟨by decide, ⟨_, rfl⟩⟩

/-- A step with an event (an ECALL), for the rule that the event sequences are appended and never read. -/
theorem witness_EventSequencesAreAppendedAndNeverRead :
    afterService (prepare halting 0x00000073 []) = some ([⟨.ecall, 0x100⟩], 0x104, .halted .service) := by decide

theorem witness_SixteenRegistersRefineThirtyTwo : (prepare embedded 0x00178793 []).nregs = .embedded ∧
    after (prepare embedded 0x00178793 []) 15 = some (1, 0x104, .running) := by decide

theorem witness_FetchSeesTheStore : (withX6 0x4000#32).busWf = true ∧
    InDevice (withX6 0x4000#32) (dataAddr (withX6 0x4000#32) 6 1) 4 [rom] ramDevice [.output 0x9000#32] ∧
    (withX6 0x4000#32).status = .running ∧
    ∃ t, exec (.sw 6 6 1) (withX6 0x4000#32) = .next t ∧ t.status = .running := by
  refine ⟨by decide, by unfold InDevice FirstCovering; decide, rfl, ⟨_, rfl, rfl⟩⟩

/-- An admitted configuration whose image just fits its ROM. -/
theorem witness_LaunchState_admitted : [PeripheralParams.memory 0xFFFFFFFF 1, .output 0#32].all PeripheralParams.wf = true ∧
    [PeripheralParams.memory 0xFFFFFFFF 1, .output 0#32][0]? = some (.memory 0xFFFFFFFF 1) ∧ [0x13#8].length ≤ 1 ∧ (1 : Nat) ≠ 0 := by decide

/-- A launch with an image and a stack pointer (95_test_vectors.md P3's INIT_SP). -/
theorem witness_LaunchState :
    (State.launch { Config.ref with image := [0x93, 0x02, 0x70, 0x00], initSp := some 0x5000#32 }).map
      (fun s => (s.reg 2, fetch s, s.status)) = some (0x5000#32, .ok 0x00700293#32, .running) := by rfl

theorem witness_LaunchedRunsKeepTheInvariant : State.launch Config.ref = some State.reset ∧
    Reachable State.reset (State.reset.halt .zeroWord) := ⟨rfl, .step .refl rfl⟩

end Sys2Proof.Tests
end

section
/-! PROOFS. The register file: the read, write and signed-view rules of spec/10_state.md R12 to R14. -/

namespace Sys2Proof.Machine

/-! ### Which register indices are present -/

theorem State.hasReg_zero (s : State) : s.hasReg 0#5 = true :=
  State.hasReg_iff.mpr (.inl rfl)

theorem State.hasReg_of_lt {s : State} {i : RegIdx} (h : i.toNat < s.nregs.count) : s.hasReg i = true :=
  State.hasReg_iff.mpr (.inr h)

theorem State.not_hasReg_of_le {s : State} {i : RegIdx} (h0 : i ≠ 0#5) (h : s.nregs.count ≤ i.toNat) : s.hasReg i = false := by
  rw [Bool.eq_false_iff, ne_eq, State.hasReg_iff]
  rintro (hz | hlt)
  · exact h0 hz
  · omega

/-! ### Reads after a write -/

theorem State.reg_of_ne_zero (s : State) {i : RegIdx} (h : i ≠ 0#5) : s.reg i = s.regs.getD (i.toNat - 1) 0#32 :=
  if_neg h

/-- A write changes nothing but the register file. -/
theorem State.setReg_frame (s : State) (i : RegIdx) (v : Word) : s.setReg i v = { s with regs := (s.setReg i v).regs } := by
  unfold State.setReg; split <;> rfl

theorem State.readReg_setReg_same {s : State} {i : RegIdx} (v : Word) (h0 : i ≠ 0#5) (h : s.hasReg i = true) :
    (s.setReg i v).readReg i = .ok v := by
  rw [State.readReg_of_hasReg (by simpa using h), State.reg_setReg_same s v h0]

/-- The read of another register is the same, its error included. -/
theorem State.readReg_setReg_other (s : State) {i j : RegIdx} (v : Word) (h : j ≠ i) :
    (s.setReg i v).readReg j = s.readReg j := by
  cases hj : s.hasReg j with
  | true => rw [State.readReg_of_hasReg hj, State.readReg_of_hasReg (by simpa using hj), State.reg_setReg_other s v h]
  | false => rw [State.readReg_of_not_hasReg hj, State.readReg_of_not_hasReg (by simpa using hj)]

/-! ### The integer views (R14) -/

theorem State.regSet_of_hasReg {s : State} {i : RegIdx} (h : s.hasReg i = true) (k : Int) :
    s.regSet i k = .ok (s.setReg i (BitVec.ofInt 32 k)) :=
  State.writeReg_of_hasReg h _

theorem State.regGet_of_readReg {s : State} {i : RegIdx} {v : Word} (h : s.readReg i = .ok v) (signed : Bool) :
    s.regGet i signed = .ok (if signed then v.toInt else v.toNat) := by
  simp only [State.regGet, h]

theorem toNat_ofInt_word (k : Int) : ((BitVec.ofInt 32 k).toNat : Int) = k % 2 ^ 32 := by
  rw [BitVec.toNat_ofInt, Int.toNat_of_nonneg (by omega)]
  rfl

theorem toInt_ofInt_word (k : Int) :
    (BitVec.ofInt 32 k).toInt = if k % 2 ^ 32 < 2 ^ 31 then k % 2 ^ 32 else k % 2 ^ 32 - 2 ^ 32 := by
  rw [BitVec.toInt_ofInt]
  rfl

/-! ### The obligations -/

/-- Settles O3: the write stores the word of `k`, whose two integer views are `toNat_ofInt_word` and `toInt_ofInt_word`;
they hold of every integer, so the bounds on `k` are not used. -/
theorem signedViewOfRegisters : Obligations.SignedViewOfRegisters := by
  intro s i k h0 hlt _ _
  have hreg : s.hasReg i = true := State.hasReg_of_lt hlt
  have hread := State.readReg_setReg_same (BitVec.ofInt 32 k) h0 hreg
  refine ⟨s.setReg i (BitVec.ofInt 32 k), State.regSet_of_hasReg hreg k, ?_, ?_⟩
  · rw [State.regGet_of_readReg hread, if_neg Bool.false_ne_true, toNat_ofInt_word]
  · rw [State.regGet_of_readReg hread, if_pos rfl, toInt_ofInt_word]

/-- Settles O1, by the three kinds of index; with 32 registers every index is present. -/
theorem registerReadRule : Obligations.RegisterReadRule := by
  intro s i
  refine ⟨?zero, ?absent, ?stored, ?full⟩
  case zero =>
    rintro rfl
    rw [State.readReg_of_hasReg s.hasReg_zero, State.reg_zero]
  case absent =>
    intro h0 hle
    exact State.readReg_of_not_hasReg (State.not_hasReg_of_le h0 hle)
  case stored =>
    intro h0 hlt
    rw [State.readReg_of_hasReg (State.hasReg_of_lt hlt), State.reg_of_ne_zero s h0]
  case full =>
    intro hfull
    exact ⟨s.reg i, State.readReg_of_hasReg (State.hasReg_full hfull i)⟩

/-- Settles O2, by the three kinds of index; a stored write is `setReg`. -/
theorem registerWriteRule : Obligations.RegisterWriteRule := by
  intro s i v
  refine ⟨?zero, ?absent, ?stored⟩
  case zero =>
    rintro rfl
    rw [State.writeReg_of_hasReg s.hasReg_zero, State.setReg_zero]
  case absent =>
    intro h0 hle
    exact State.writeReg_of_not_hasReg (State.not_hasReg_of_le h0 hle) v
  case stored =>
    intro h0 hlt
    have hreg : s.hasReg i = true := State.hasReg_of_lt hlt
    exact ⟨s.setReg i v, State.writeReg_of_hasReg hreg v, State.readReg_setReg_same v h0 hreg,
      fun j hj => State.readReg_setReg_other s v hj, s.setReg_frame i v⟩

end Sys2Proof.Machine
end

section
/-! PROOFS. The bus: an access goes to the first covering peripheral, spec/20_memory.md R34, R36 and R40. -/

namespace Sys2Proof.Machine

/-! ### No covering peripheral -/

theorem memRead_of_uncovered {s : State} {a : Word} (n : Nat) (h : ∀ p ∈ s.bus, p.covers a = false) :
    memRead s a n = .error (.unmappedAddress a) := by
  simp only [memRead, locate_eq_none_iff.mpr h]

theorem memWrite_of_uncovered {s : State} {a : Word} (n : Nat) (v : Word) (h : ∀ p ∈ s.bus, p.covers a = false) :
    memWrite s a n v = .error (.unmappedAddress a) := by
  simp only [memWrite, locate_eq_none_iff.mpr h]

/-! ### The first covering peripheral -/

section
variable {s : State} {a : Word} {pre post : List Peripheral} {p : Peripheral}

theorem memRead_of_firstCovering (h : FirstCovering s a pre p post) (n : Nat) : memRead s a n = p.load a n := by
  obtain ⟨hbus, hpre, hcov⟩ := h
  exact memRead_of_split n hbus hpre hcov

theorem memWrite_of_firstCovering_store_error (h : FirstCovering s a pre p post) {n : Nat} {v : Word} {e : FatalError}
    (he : p.store a n v = .error e) : memWrite s a n v = .error e := by
  obtain ⟨hbus, hpre, hcov⟩ := h
  rw [memWrite_of_split n v hbus hpre hcov, he]

theorem memWrite_of_firstCovering_store_ok (h : FirstCovering s a pre p post) {n : Nat} {v : Word} {p' : Peripheral}
    {evs : List OutEvent} (hok : p.store a n v = .ok (p', evs)) :
    memWrite s a n v = .ok { s with bus := pre ++ p' :: post, out := s.out ++ evs } := by
  obtain ⟨hbus, hpre, hcov⟩ := h
  rw [memWrite_of_split n v hbus hpre hcov, hok]

end

/-! ### The obligation -/

/-- Settles O4, by whether a peripheral covers the address, and by what the first one that does answers to the store. -/
theorem accessGoesToFirstCoveringPeripheral : Obligations.AccessGoesToFirstCoveringPeripheral := by
  refine ⟨?uncovered, ?covered⟩
  case uncovered =>
    intro s a v n hnone
    exact ⟨memRead_of_uncovered n hnone, memWrite_of_uncovered n v hnone⟩
  case covered =>
    intro s a v n pre post p hfirst
    exact ⟨memRead_of_firstCovering hfirst n, fun _ he => memWrite_of_firstCovering_store_error hfirst he,
      fun _ _ hok => memWrite_of_firstCovering_store_ok hfirst hok⟩

end Sys2Proof.Machine
end

section
/-! PROOFS. The opcode table, spec/30_encoding.md R82: the instruction a word is under a row, and that its masked bits select the row. -/

namespace Sys2Proof

/-! ### The instruction of a row -/

/-- The instruction a word stands for when it belongs to the row: the operands are the fields of the row's format (R73). -/
def rowInstr (w : Word) : Mnemonic → Instr
  | .LUI => .lui (rdOf w) (immUField w)
  | .AUIPC => .auipc (rdOf w) (immUField w)
  | .JAL => .jal (rdOf w) (immJField w)
  | .JALR => .jalr (rdOf w) (rs1Of w) (immIField w) (funct3Of w)
  | .BEQ => .beq (rs1Of w) (rs2Of w) (immBField w)
  | .BNE => .bne (rs1Of w) (rs2Of w) (immBField w)
  | .BLT => .blt (rs1Of w) (rs2Of w) (immBField w)
  | .BGE => .bge (rs1Of w) (rs2Of w) (immBField w)
  | .BLTU => .bltu (rs1Of w) (rs2Of w) (immBField w)
  | .BGEU => .bgeu (rs1Of w) (rs2Of w) (immBField w)
  | .LB => .lb (rdOf w) (rs1Of w) (immIField w)
  | .LH => .lh (rdOf w) (rs1Of w) (immIField w)
  | .LW => .lw (rdOf w) (rs1Of w) (immIField w)
  | .LBU => .lbu (rdOf w) (rs1Of w) (immIField w)
  | .LHU => .lhu (rdOf w) (rs1Of w) (immIField w)
  | .LWU => .lwu (rdOf w) (rs1Of w) (immIField w)
  | .SB => .sb (rs1Of w) (rs2Of w) (immSField w)
  | .SH => .sh (rs1Of w) (rs2Of w) (immSField w)
  | .SW => .sw (rs1Of w) (rs2Of w) (immSField w)
  | .ADDI => .addi (rdOf w) (rs1Of w) (immIField w)
  | .SLTI => .slti (rdOf w) (rs1Of w) (immIField w)
  | .SLTIU => .sltiu (rdOf w) (rs1Of w) (immIField w)
  | .XORI => .xori (rdOf w) (rs1Of w) (immIField w)
  | .ORI => .ori (rdOf w) (rs1Of w) (immIField w)
  | .ANDI => .andi (rdOf w) (rs1Of w) (immIField w)
  | .SLLI => .slli (rdOf w) (rs1Of w) (shamtOf w)
  | .SRLI => .srli (rdOf w) (rs1Of w) (shamtOf w)
  | .SRAI => .srai (rdOf w) (rs1Of w) (shamtOf w)
  | .ADD => .add (rdOf w) (rs1Of w) (rs2Of w)
  | .SUB => .sub (rdOf w) (rs1Of w) (rs2Of w)
  | .SLL => .sll (rdOf w) (rs1Of w) (rs2Of w)
  | .SLT => .slt (rdOf w) (rs1Of w) (rs2Of w)
  | .SLTU => .sltu (rdOf w) (rs1Of w) (rs2Of w)
  | .XOR => .xor (rdOf w) (rs1Of w) (rs2Of w)
  | .SRL => .srl (rdOf w) (rs1Of w) (rs2Of w)
  | .SRA => .sra (rdOf w) (rs1Of w) (rs2Of w)
  | .OR => .or (rdOf w) (rs1Of w) (rs2Of w)
  | .AND => .and (rdOf w) (rs1Of w) (rs2Of w)
  | .FENCE => .fence (w.extractLsb' 7 25)
  | .ECALL => .ecall
  | .EBREAK => .ebreak

@[simp] theorem mnemonic_rowInstr (w : Word) (m : Mnemonic) : (rowInstr w m).mnemonic = m := by
  cases m <;> rfl

/-! ### From the masked bits to the instruction -/

/-- A word whose masked bits are the row's decodes to the row's instruction: the mask keeps each field its family's case tests. -/
theorem decode_of_masked {w : Word} {m : Mnemonic} (h : w &&& m.mask = m.pattern) : decode w = .ok (rowInstr w m) := by
  cases m with
  | LUI | AUIPC | JAL | JALR | FENCE =>
    rw [decode, opcodeOf_of_mask h]; rfl
  | BEQ | BNE | BLT | BGE | BLTU | BGEU =>
    obtain ⟨hop, hf3⟩ := fields_of_mask h
    rw [decode, hop, decodeBranch, hf3]; rfl
  | LB | LH | LW | LBU | LHU | LWU =>
    obtain ⟨hop, hf3⟩ := fields_of_mask h
    rw [decode, hop, decodeLoad, hf3]; rfl
  | SB | SH | SW =>
    obtain ⟨hop, hf3⟩ := fields_of_mask h
    rw [decode, hop, decodeStore, hf3]; rfl
  | ADDI | SLTI | SLTIU | XORI | ORI | ANDI =>
    obtain ⟨hop, hf3⟩ := fields_of_mask h
    rw [decode, hop, decodeImmediate, hf3]; rfl
  | SLLI | SRLI | SRAI =>
    obtain ⟨hop, hf3, hf7⟩ := fields_of_long_mask h
    rw [decode, hop, decodeImmediate, hf3, hf7]; rfl
  | ADD | SUB | SLL | SLT | SLTU | XOR | SRL | SRA | OR | AND =>
    obtain ⟨hop, hf3, hf7⟩ := fields_of_long_mask h
    rw [decode, hop, decodeRegister, hf3, hf7]; rfl
  | ECALL | EBREAK =>
    obtain rfl : w = _ := (BitVec.and_allOnes (x := w)).symm.trans h
    rfl

/-! ### From the instruction to the masked bits -/

theorem opcodeOf_and (w m : Word) : opcodeOf (w &&& m) = opcodeOf w &&& opcodeOf m := extract_and w m 0 7
theorem rdOf_and (w m : Word) : rdOf (w &&& m) = rdOf w &&& rdOf m := extract_and w m 7 5
theorem funct3Of_and (w m : Word) : funct3Of (w &&& m) = funct3Of w &&& funct3Of m := extract_and w m 12 3
theorem rs1Of_and (w m : Word) : rs1Of (w &&& m) = rs1Of w &&& rs1Of m := extract_and w m 15 5
theorem rs2Of_and (w m : Word) : rs2Of (w &&& m) = rs2Of w &&& rs2Of m := extract_and w m 20 5
theorem funct7Of_and (w m : Word) : funct7Of (w &&& m) = funct7Of w &&& funct7Of m := extract_and w m 25 7

/-- A masked word is put together from its masked fields. -/
theorem and_eq_encodeR (w m : Word) : w &&& m =
    encodeR (funct7Of w &&& funct7Of m) (rs2Of w &&& rs2Of m) (rs1Of w &&& rs1Of m) (funct3Of w &&& funct3Of m)
      (rdOf w &&& rdOf m) (opcodeOf w &&& opcodeOf m) := by
  rw [← funct7Of_and, ← rs2Of_and, ← rs1Of_and, ← funct3Of_and, ← rdOf_and, ← opcodeOf_and, encodeR_fields]

section
variable {w : Word} {op : BitVec 7} {f3 : BitVec 3} {f7 : BitVec 7}

/-! What each of the three kinds of mask of R82 leaves of a word with known fields. -/

theorem masked_of_opcode (hop : opcodeOf w = op) : w &&& 0x0000007F#32 = encodeR 0#7 0#5 0#5 0#3 0#5 op := by
  rw [and_eq_encodeR, hop]
  change encodeR (_ &&& 0#7) (_ &&& 0#5) (_ &&& 0#5) (_ &&& 0#3) (_ &&& 0#5) (_ &&& BitVec.allOnes 7) = _
  simp only [BitVec.and_zero, BitVec.and_allOnes]

theorem masked_of_funct3 (hop : opcodeOf w = op) (hf3 : funct3Of w = f3) :
    w &&& 0x0000707F#32 = encodeR 0#7 0#5 0#5 f3 0#5 op := by
  rw [and_eq_encodeR, hop, hf3]
  change encodeR (_ &&& 0#7) (_ &&& 0#5) (_ &&& 0#5) (_ &&& BitVec.allOnes 3) (_ &&& 0#5) (_ &&& BitVec.allOnes 7) = _
  simp only [BitVec.and_zero, BitVec.and_allOnes]

theorem masked_of_funct7 (hop : opcodeOf w = op) (hf3 : funct3Of w = f3) (hf7 : funct7Of w = f7) :
    w &&& 0xFE00707F#32 = encodeR f7 0#5 0#5 f3 0#5 op := by
  rw [and_eq_encodeR, hop, hf3, hf7]
  change encodeR (_ &&& BitVec.allOnes 7) (_ &&& 0#5) (_ &&& 0#5) (_ &&& BitVec.allOnes 3) (_ &&& 0#5)
    (_ &&& BitVec.allOnes 7) = _
  simp only [BitVec.and_zero, BitVec.and_allOnes]

end

/-- The masked bits of the word are those of the instruction's row. -/
def InItsRow (w : Word) (i : Instr) : Prop := w &&& i.mnemonic.mask = i.mnemonic.pattern

section
variable {w : Word} {i : Instr}

/-! Each family's cases are peeled off in the order of R80; the cases that answer an error cannot be the one taken. -/

theorem inItsRow_of_decodeBranch (hop : opcodeOf w = opBranch) (h : decodeBranch w = .ok i) : InItsRow w i := by
  rw [decodeBranch] at h
  iterate 6
    obtain ⟨hf3, ⟨⟩⟩ | ⟨-, h⟩ := ite_eq_iff.mp h
    · exact masked_of_funct3 hop hf3
  cases h

theorem inItsRow_of_decodeLoad (hop : opcodeOf w = opLoad) (h : decodeLoad w = .ok i) : InItsRow w i := by
  rw [decodeLoad] at h
  iterate 6
    obtain ⟨hf3, ⟨⟩⟩ | ⟨-, h⟩ := ite_eq_iff.mp h
    · exact masked_of_funct3 hop hf3
  cases h

theorem inItsRow_of_decodeStore (hop : opcodeOf w = opStore) (h : decodeStore w = .ok i) : InItsRow w i := by
  rw [decodeStore] at h
  iterate 3
    obtain ⟨hf3, ⟨⟩⟩ | ⟨-, h⟩ := ite_eq_iff.mp h
    · exact masked_of_funct3 hop hf3
  cases h

theorem inItsRow_of_decodeImmediate (hop : opcodeOf w = opImmediate) (h : decodeImmediate w = .ok i) : InItsRow w i := by
  rw [decodeImmediate] at h
  iterate 6
    obtain ⟨hf3, ⟨⟩⟩ | ⟨hne, h⟩ := ite_eq_iff.mp h
    · exact masked_of_funct3 hop hf3
  obtain ⟨hf3, h⟩ | ⟨hne, h⟩ := ite_eq_iff.mp h
  · obtain ⟨hf7, ⟨⟩⟩ | ⟨-, ⟨⟩⟩ := ite_eq_iff.mp h
    exact masked_of_funct7 hop hf3 hf7
  have hf3 : funct3Of w = 5#3 := by bv_omega
  iterate 2
    obtain ⟨hf7, ⟨⟩⟩ | ⟨-, h⟩ := ite_eq_iff.mp h
    · exact masked_of_funct7 hop hf3 hf7
  cases h

theorem inItsRow_of_decodeRegister (hop : opcodeOf w = opRegister) (h : decodeRegister w = .ok i) : InItsRow w i := by
  rw [decodeRegister] at h
  obtain ⟨hf7, h⟩ | ⟨-, h⟩ := ite_eq_iff.mp h
  · iterate 7
      obtain ⟨hf3, ⟨⟩⟩ | ⟨hne, h⟩ := ite_eq_iff.mp h
      · exact masked_of_funct7 hop hf3 hf7
    have hf3 : funct3Of w = 7#3 := by bv_omega
    cases h
    exact masked_of_funct7 hop hf3 hf7
  obtain ⟨hf7, h⟩ | ⟨-, ⟨⟩⟩ := ite_eq_iff.mp h
  iterate 2
    obtain ⟨hf3, ⟨⟩⟩ | ⟨-, h⟩ := ite_eq_iff.mp h
    · exact masked_of_funct7 hop hf3 hf7
  cases h

theorem inItsRow_of_decodeService (h : decodeService w = .ok i) : InItsRow w i := by
  rw [decodeService] at h
  obtain ⟨rfl, ⟨⟩⟩ | ⟨-, h⟩ := ite_eq_iff.mp h
  · rfl
  obtain ⟨rfl, ⟨⟩⟩ | ⟨-, ⟨⟩⟩ := ite_eq_iff.mp h
  rfl

/-- Every word that decodes lies in its instruction's row, family by family in the order of R80. -/
theorem inItsRow_of_decode (h : decode w = .ok i) : InItsRow w i := by
  rw [decode] at h
  iterate 4
    obtain ⟨hop, ⟨⟩⟩ | ⟨-, h⟩ := ite_eq_iff.mp h
    · exact masked_of_opcode hop
  obtain ⟨hop, h⟩ | ⟨-, h⟩ := ite_eq_iff.mp h
  · exact inItsRow_of_decodeBranch hop h
  obtain ⟨hop, h⟩ | ⟨-, h⟩ := ite_eq_iff.mp h
  · exact inItsRow_of_decodeLoad hop h
  obtain ⟨hop, h⟩ | ⟨-, h⟩ := ite_eq_iff.mp h
  · exact inItsRow_of_decodeStore hop h
  obtain ⟨hop, h⟩ | ⟨-, h⟩ := ite_eq_iff.mp h
  · exact inItsRow_of_decodeImmediate hop h
  obtain ⟨hop, h⟩ | ⟨-, h⟩ := ite_eq_iff.mp h
  · exact inItsRow_of_decodeRegister hop h
  obtain ⟨hop, ⟨⟩⟩ | ⟨-, h⟩ := ite_eq_iff.mp h
  · exact masked_of_opcode hop
  obtain ⟨-, h⟩ | ⟨-, ⟨⟩⟩ := ite_eq_iff.mp h
  exact inItsRow_of_decodeService h

end

/-- Settles O11: the masked bits fix the instruction (`decode_of_masked`), and a decoded word lies in its instruction's row. -/
theorem decodingFollowsMatchAndMask : Obligations.DecodingFollowsMatchAndMask := by
  intro w m
  constructor
  · rintro ⟨i, h, rfl⟩
    exact inItsRow_of_decode h
  · intro h
    exact ⟨rowInstr w m, decode_of_masked h, mnemonic_rowInstr w m⟩

end Sys2Proof
end

section
/-! PROOFS. The two outputs of each immediate decoder, spec/30_encoding.md R79: the sign extension and the zero extension of one bit string. -/

namespace Sys2Proof

/-! ### Sign extension -/

/-- Below the field's top bit the sign extension has the field's bits, and from there up it repeats the top bit. -/
theorem getLsbD_signExtend_min {n k : Nat} (x : BitVec (n + 1)) (hk : k < 32) :
    (x.signExtend 32).getLsbD k = x.getLsbD (min k n) := by
  have hmsb : x.msb = x.getLsbD n := BitVec.msb_eq_getLsbD_last x
  rw [BitVec.getLsbD_signExtend, decide_eq_true hk, Bool.true_and, hmsb]
  split
  next hlt => rw [min_eq_left (by omega)]
  next hge => rw [min_eq_right (by omega)]

/-- Reducing the signed output to the field's width gives the field back. -/
theorem setWidth_signExtend {n : Nat} (x : BitVec (n + 1)) (hn : n < 32) : (x.signExtend 32).setWidth (n + 1) = x := by
  apply BitVec.eq_of_getLsbD_eq
  intro k hk
  rw [BitVec.getLsbD_setWidth, getLsbD_signExtend_min x (by omega), min_eq_left (by omega), decide_eq_true hk, Bool.true_and]

/-! ### The two outputs of a decoder (R79) -/

theorem signedUnsigned_extensions {n : Nat} (x : BitVec (n + 1)) (hn : n < 32) :
    SignedUnsigned x (x.signExtend 32) (x.setWidth 32) := by
  have hunsigned : (x.setWidth 32).toNat = x.toNat := BitVec.toNat_setWidth_of_le hn
  have hback : (x.setWidth 32).setWidth (n + 1) = x := by
    rw [BitVec.setWidth_setWidth_of_le x hn, BitVec.setWidth_eq]
  refine ⟨hunsigned, BitVec.toInt_signExtend_of_le hn, ?_, by rw [hback]⟩
  rw [hunsigned, ← BitVec.toNat_setWidth, setWidth_signExtend x hn]

/-- At full width (R77) both outputs are the string itself. -/
theorem signedUnsigned_self (x : Word) : SignedUnsigned x x x := by
  have h := signedUnsigned_extensions x (by decide)
  rwa [BitVec.signExtend_eq, BitVec.setWidth_eq] at h

theorem toNat_shamtOf_eq_uimmI (w : Word) : (shamtOf w).toNat = (uimmI w).toNat % 32 := by
  rw [uimmI, BitVec.toNat_setWidth_of_le (by decide), toNat_immIField, toNat_shamtOf]
  omega

/-- Settles O14: each decoder sign-extends or zero-extends one bit string, the U decoder at full width. -/
theorem signedAndUnsignedImmediatesAgree : Obligations.SignedAndUnsignedImmediatesAgree := by
  intro w
  exact ⟨⟨toNat_shamtOf w, toNat_shamtOf_eq_uimmI w⟩,
    signedUnsigned_extensions (immIField w) (by decide), signedUnsigned_extensions (immSField w) (by decide),
    signedUnsigned_extensions (immBField w) (by decide), signedUnsigned_self (immU w),
    signedUnsigned_extensions (immJField w) (by decide)⟩

end Sys2Proof
end

section
/-! PROOFS. The five signed immediates, spec/30_encoding.md R74 to R78: where each bit comes from, the range and the step. -/

namespace Sys2Proof

/-! ### Ranges and steps of a bit string's signed value -/

/-- A step that divides the width's power of two leaves the same remainder of the signed value as of the unsigned one. -/
theorem toInt_emod_eq_toNat_emod {n : Nat} (x : BitVec n) {d : Nat} (hd : d ∣ 2 ^ n) :
    x.toInt % (d : Int) = (x.toNat : Int) % (d : Int) := by
  have hd' : (d : Int) ∣ ((2 ^ n : Nat) : Int) := Int.natCast_dvd_natCast.mpr hd
  rw [BitVec.toInt_eq_toNat_bmod, ← Int.emod_emod_of_dvd _ hd', Int.bmod_emod, Int.emod_emod_of_dvd _ hd']

theorem toInt_signExtend_range {n : Nat} (x : BitVec (n + 1)) (hn : n < 32) :
    -2 ^ n ≤ (x.signExtend 32).toInt ∧ (x.signExtend 32).toInt < 2 ^ n := by
  rw [BitVec.toInt_signExtend_of_le hn]
  exact ⟨x.le_toInt, x.toInt_lt⟩

/-- An even offset has an even signed value (R76, R78). -/
theorem toInt_signExtend_even {n : Nat} {x : BitVec (n + 1)} (hn : n < 32) (h : evenOffset x = true) :
    (x.signExtend 32).toInt % 2 = 0 := by
  have hnat : x.toNat % 2 = 0 := (evenOffset_iff x).1 h
  have hmod := toInt_emod_eq_toNat_emod x (dvd_pow_self 2 n.succ_ne_zero)
  rw [BitVec.toInt_signExtend_of_le hn]
  omega

theorem toNat_immU (w : Word) : (immU w).toNat = w.toNat / 2 ^ 12 % 2 ^ 20 * 2 ^ 12 + 0 := by
  rw [← toNat_immUField]
  exact toNat_append_add (immUField w) 0#12

theorem toInt_immU_emod (w : Word) : (immU w).toInt % 4096 = 0 := by
  have hmod := toInt_emod_eq_toNat_emod (immU w) (d := 4096) (by norm_num)
  rw [toNat_immU] at hmod
  omega

/-! ### The bits of each immediate -/

theorem getLsbD_immI (w : Word) {k : Nat} (hk : k < 32) : (immI w).getLsbD k = w.getLsbD (20 + min k 11) := by
  rw [immI, getLsbD_signExtend_min _ hk, immIField, BitVec.getLsbD_extractLsb', decide_eq_true (by omega), Bool.true_and]

theorem getLsbD_immS (w : Word) {k : Nat} (hk : k < 32) :
    (immS w).getLsbD k = if k < 5 then w.getLsbD (7 + k) else w.getLsbD (20 + min k 11) := by
  rw [immS, getLsbD_signExtend_min _ hk, getLsbD_immSField]
  grind

theorem getLsbD_immB (w : Word) {k : Nat} (hk : k < 32) :
    (immB w).getLsbD k =
      if k = 0 then false else if k < 5 then w.getLsbD (7 + k) else if k < 11 then w.getLsbD (20 + k)
      else if k = 11 then w.getLsbD 7 else w.getLsbD 31 := by
  rw [immB, getLsbD_signExtend_min _ hk, getLsbD_immBField]
  obtain hle | hge := le_total k 12
  · rw [min_eq_left hle]; grind
  · rw [min_eq_right hge]; grind

theorem getLsbD_immU_low (w : Word) {k : Nat} (hk : k < 12) : (immU w).getLsbD k = false := by
  rw [getLsbD_immU, if_pos hk]

theorem getLsbD_immU_high (w : Word) {k : Nat} (hk : 12 ≤ k) (hk32 : k < 32) : (immU w).getLsbD k = w.getLsbD k := by
  rw [getLsbD_immU, if_neg (by omega), BitVec.getLsbD_extractLsb', decide_eq_true (by omega), Bool.true_and,
    Nat.add_sub_cancel' hk]

theorem getLsbD_immJ (w : Word) {k : Nat} (hk : k < 32) :
    (immJ w).getLsbD k =
      if k = 0 then false else if k < 11 then w.getLsbD (20 + k) else if k = 11 then w.getLsbD 20
      else if k < 20 then w.getLsbD k else w.getLsbD 31 := by
  rw [immJ, getLsbD_signExtend_min _ hk, getLsbD_immJField]
  obtain hle | hge := le_total k 20
  · rw [min_eq_left hle]; grind
  · rw [min_eq_right hge]; grind

/-! ### The range and the step of each immediate -/

theorem immI_range (w : Word) : -2048 ≤ (immI w).toInt ∧ (immI w).toInt ≤ 2047 := by
  have hrange : -2 ^ 11 ≤ (immI w).toInt ∧ (immI w).toInt < 2 ^ 11 := toInt_signExtend_range (immIField w) (by decide)
  omega

theorem immS_range (w : Word) : -2048 ≤ (immS w).toInt ∧ (immS w).toInt ≤ 2047 := by
  have hrange : -2 ^ 11 ≤ (immS w).toInt ∧ (immS w).toInt < 2 ^ 11 := toInt_signExtend_range (immSField w) (by decide)
  omega

theorem immB_range (w : Word) : -4096 ≤ (immB w).toInt ∧ (immB w).toInt ≤ 4094 ∧ (immB w).toInt % 2 = 0 := by
  have hrange : -2 ^ 12 ≤ (immB w).toInt ∧ (immB w).toInt < 2 ^ 12 := toInt_signExtend_range (immBField w) (by decide)
  have heven : (immB w).toInt % 2 = 0 := toInt_signExtend_even (by decide) (evenOffset_immBField w)
  omega

theorem immU_range (w : Word) :
    -2 ^ 31 ≤ (immU w).toInt ∧ (immU w).toInt ≤ 2 ^ 31 - 4096 ∧ (immU w).toInt % 4096 = 0 := by
  have hlow : -2 ^ 31 ≤ (immU w).toInt := BitVec.le_toInt _
  have hhigh : (immU w).toInt < 2 ^ 31 := BitVec.toInt_lt
  have hstep : (immU w).toInt % 4096 = 0 := toInt_immU_emod w
  omega

theorem immJ_range (w : Word) : -1048576 ≤ (immJ w).toInt ∧ (immJ w).toInt ≤ 1048574 ∧ (immJ w).toInt % 2 = 0 := by
  have hrange : -2 ^ 20 ≤ (immJ w).toInt ∧ (immJ w).toInt < 2 ^ 20 := toInt_signExtend_range (immJField w) (by decide)
  have heven : (immJ w).toInt % 2 = 0 := toInt_signExtend_even (by decide) (evenOffset_immJField w)
  omega

/-! ### The obligation -/

/-- Settles O13, format by format: each clause on bits is one branch of the format's `getLsbD` lemma. -/
theorem immediateBitsAndRanges : Obligations.ImmediateBitsAndRanges := by
  intro w
  refine ⟨?I, ?S, ?B, ?U, ?J⟩
  case I =>
    refine ⟨fun k hk => ?_, fun k hk hk32 => ?_, immI_range w⟩
    · rw [getLsbD_immI w (by omega), min_eq_left (by omega)]
    · rw [getLsbD_immI w hk32, min_eq_right (by omega)]
  case S =>
    refine ⟨fun k hk => ?_, fun k hk => ?_, fun k hk hk32 => ?_, immS_range w⟩
    · rw [getLsbD_immS w (by omega), if_pos hk]
    · rw [getLsbD_immS w (by omega), if_neg (by omega), min_eq_left (by omega), ← Nat.add_assoc]
    · rw [getLsbD_immS w hk32, if_neg (by omega), min_eq_right (by omega)]
  case B =>
    refine ⟨getLsbD_immB w (by decide), fun k hk => ?_, fun k hk => ?_, getLsbD_immB w (by decide), fun k hk hk32 => ?_,
      immB_range w⟩
    · rw [getLsbD_immB w (by omega), if_neg (by omega), if_pos (by omega), ← Nat.add_assoc]
    · rw [getLsbD_immB w (by omega), if_neg (by omega), if_neg (by omega), if_pos (by omega), ← Nat.add_assoc]
    · rw [getLsbD_immB w hk32, if_neg (by omega), if_neg (by omega), if_neg (by omega), if_neg (by omega)]
  case U =>
    exact ⟨fun k hk => getLsbD_immU_low w hk, fun k hk hk32 => getLsbD_immU_high w hk hk32, immU_range w⟩
  case J =>
    refine ⟨getLsbD_immJ w (by decide), fun k hk => ?_, getLsbD_immJ w (by decide), fun k hk => ?_, fun k hk hk32 => ?_,
      immJ_range w⟩
    · rw [getLsbD_immJ w (by omega), if_neg (by omega), if_pos (by omega), ← Nat.add_assoc]
    · rw [getLsbD_immJ w (by omega), if_neg (by omega), if_neg (by omega), if_neg (by omega), if_pos (by omega)]
    · rw [getLsbD_immJ w hk32, if_neg (by omega), if_neg (by omega), if_neg (by omega), if_neg (by omega)]

end Sys2Proof
end

section
/-! PROOFS. LUI and AUIPC, spec/40_upper_immediate.md R100 and R101: the immediate's value, and each instruction as one register write. -/

namespace Sys2Proof.Machine

/-! ### The value of the immediate -/

theorem toNat_upper20 (imm : BitVec 20) : (upper20 imm).toNat = imm.toNat * 2 ^ 12 := by
  have happend : (upper20 imm).toNat = imm.toNat * 2 ^ 12 + 0 := toNat_append_add imm 0#12
  rwa [Nat.add_zero] at happend

theorem upper20_eq_ofNat (imm : BitVec 20) : upper20 imm = BitVec.ofNat 32 (imm.toNat * 2 ^ 12) := by
  rw [← toNat_upper20, BitVec.ofNat_toNat, BitVec.setWidth_eq]

/-- Adding the immediate to an address is addition of naturals modulo `2 ^ 32`. -/
theorem add_upper20_eq_ofNat (a : Word) (imm : BitVec 20) :
    a + upper20 imm = BitVec.ofNat 32 (a.toNat + imm.toNat * 2 ^ 12) := by
  rw [BitVec.ofNat_add, ← upper20_eq_ofNat, BitVec.ofNat_toNat, BitVec.setWidth_eq]

/-! ### Each instruction as one register write -/

theorem exec_lui (s : State) (rd : RegIdx) (imm : BitVec 20) :
    exec (.lui rd imm) s = writeBack s rd (BitVec.ofNat 32 (imm.toNat * 2 ^ 12)) := by
  rw [← upper20_eq_ofNat]; rfl

theorem exec_auipc (s : State) (rd : RegIdx) (imm : BitVec 20) :
    exec (.auipc rd imm) s = writeBack s rd (BitVec.ofNat 32 ((ownAddr s).toNat + imm.toNat * 2 ^ 12)) := by
  rw [← add_upper20_eq_ofNat]; rfl

/-! ### The obligation -/

/-- Settles O23: the opcode mask selects the row, and each instruction is one `writeBack`, by whether `rd` is present. -/
theorem upperImmediateRules : Obligations.UpperImmediateRules := by
  refine ⟨fun w h => decode_of_masked (m := .LUI) h, fun w h => decode_of_masked (m := .AUIPC) h, fun s rd imm => ?_⟩
  rw [exec_lui, exec_auipc]
  exact ⟨fun hrd => ⟨writeBack_of_hasReg hrd _, writeBack_of_hasReg hrd _⟩,
    fun hrd => ⟨writeBack_of_not_hasReg hrd _, writeBack_of_not_hasReg hrd _⟩⟩

end Sys2Proof.Machine
end

section
/-! PROOFS. Control transfers, spec/41_jumps.md R112: the targets of the three forms, the instructions as a jump after their reads and
link write, and the pc that every step keeps a multiple of 4. -/

namespace Sys2Proof.Machine

/-! ### Alignment -/

theorem aligned4_iff_toNat_emod (a : Word) : aligned4 a = true ↔ a.toNat % 4 = 0 :=
  decide_eq_true_iff

/-- The pc's advance (10_state.md R17) keeps it aligned, the wrap at the top of the address space included. -/
theorem aligned4_add_four {a : Word} (h : aligned4 a = true) : aligned4 (a + 4#32) = true := by
  rw [aligned4_iff_toNat_emod] at h ⊢
  bv_omega

/-! ### JAL and JALR -/

/-- Clearing bit 0 (R111) is a shift right and back: the mask is all ones shifted left. -/
theorem jalrTarget_eq_shifts (base : Word) (imm : BitVec 12) :
    jalrTarget base imm = ((base + BitVec.ofInt 32 imm.toInt) >>> 1) <<< 1 := by
  rw [BitVec.shiftLeft_ushiftRight]
  rfl

theorem exec_jal_of_hasReg {s : State} {rd : RegIdx} (hrd : s.hasReg rd = true) (off : BitVec 21) :
    exec (.jal rd off) s = jumpTo (s.setReg rd (ownAddr s + 4#32)) (ownAddr s + BitVec.ofInt 32 off.toInt) :=
  thenWrite_of_hasReg hrd _ _

theorem exec_jalr_of_hasReg {s : State} {rd rs1 : RegIdx} (hrs1 : s.hasReg rs1 = true) (hrd : s.hasReg rd = true)
    (imm : BitVec 12) (funct3 : BitVec 3) :
    exec (.jalr rd rs1 imm funct3) s =
      jumpTo (s.setReg rd (ownAddr s + 4#32)) (((s.reg rs1 + BitVec.ofInt 32 imm.toInt) >>> 1) <<< 1) := by
  rw [← jalrTarget_eq_shifts]
  exact (withReg_of_hasReg hrs1 _).trans (thenWrite_of_hasReg hrd _ _)

/-! ### The branches -/

section
variable {a b : Word}

theorem condEq_iff : condEq a b = true ↔ a = b := decide_eq_true_iff
theorem condNe_iff : condNe a b = true ↔ a ≠ b := by simp [condNe]
theorem condLt_iff : condLt a b = true ↔ a.toInt < b.toInt := decide_eq_true_iff
theorem condGe_iff : condGe a b = true ↔ b.toInt ≤ a.toInt := by simp [condGe, ltSigned]
theorem condLtu_iff : condLtu a b = true ↔ a.toNat < b.toNat := decide_eq_true_iff
theorem condGeu_iff : condGeu a b = true ↔ b.toNat ≤ a.toNat := by simp [condGeu, ltUnsigned]

end

theorem branchOp_of_taken {cond : Word → Word → Bool} {s : State} {rs1 rs2 : RegIdx} (h1 : s.hasReg rs1 = true)
    (h2 : s.hasReg rs2 = true) (htaken : cond (s.reg rs1) (s.reg rs2) = true) (off : BitVec 13) :
    branchOp cond rs1 rs2 off s = jumpTo s (branchGoal s off) := by
  rw [branchOp, withReg_of_hasReg h1, withReg_of_hasReg h2, if_pos htaken]
  rfl

/-- Every row of the table is executed by `branchOp`, with a test that decides the row's condition. -/
theorem exec_eq_branchOp_of_mem_branchTable {row : (RegIdx → RegIdx → BitVec 13 → Instr) × (Word → Word → Prop)}
    (hrow : row ∈ branchTable) :
    ∃ cond : Word → Word → Bool, (∀ a b, cond a b = true ↔ row.2 a b) ∧
      ∀ rs1 rs2 off s, exec (row.1 rs1 rs2 off) s = branchOp cond rs1 rs2 off s := by
  simp only [branchTable, List.mem_cons, List.not_mem_nil, or_false] at hrow
  obtain rfl | rfl | rfl | rfl | rfl | rfl := hrow
  · exact ⟨condEq, fun _ _ => condEq_iff, fun _ _ _ _ => rfl⟩
  · exact ⟨condNe, fun _ _ => condNe_iff, fun _ _ _ _ => rfl⟩
  · exact ⟨condLt, fun _ _ => condLt_iff, fun _ _ _ _ => rfl⟩
  · exact ⟨condGe, fun _ _ => condGe_iff, fun _ _ _ _ => rfl⟩
  · exact ⟨condLtu, fun _ _ => condLtu_iff, fun _ _ _ _ => rfl⟩
  · exact ⟨condGeu, fun _ _ => condGeu_iff, fun _ _ _ _ => rfl⟩

/-! ### One transfer -/

/-- R112, for an instruction that ends in a jump from a state with the same pc and status, its link written or not. -/
theorem transfersTo_of_exec_eq_jumpTo {i : Instr} {s u : State} {target : Word} (h : exec i s = jumpTo u target)
    (hpc : u.pc = s.pc) (hstatus : u.status = s.status) : TransfersTo i s target := by
  rw [TransfersTo, h]
  refine ⟨fun ha => ?aligned, fun hne => ?misaligned⟩
  case aligned =>
    exact ⟨_, jumpTo_of_aligned ((aligned4_iff_toNat_emod _).mpr ha), rfl, hstatus⟩
  case misaligned =>
    have ha : aligned4 target = false := Bool.eq_false_iff.mpr (mt (aligned4_iff_toNat_emod _).mp hne)
    exact ⟨_, jumpTo_of_misaligned ha, hpc, rfl⟩

/-! ### The step -/

/-- R197: a fetch error is the whole step. -/
theorem step_of_fetch_error {s : State} {e : FatalError} (hrun : s.status = .running) (h : fetch s = .error e) :
    step s = .next (s.raise e) := by
  rw [step_running hrun, cycle, h]
  rfl

@[simp] theorem haltTests_pc (i : Instr) (s : State) : (haltTests i s).pc = s.pc := by
  rw [haltTests_frame]

/-- An instruction leaves the pc where the advance put it, or moves it to an aligned target. -/
theorem exec_pc_eq_or_aligned {i : Instr} {s t : State} (h : exec i s = .next t) : t.pc = s.pc ∨ aligned4 t.pc = true := by
  cases exec_effect h with
  | branch _ _ _ _ ha | jump _ _ _ _ _ _ ha => exact .inr ha
  | store _ _ _ _ hok => rw [memWrite_frame hok]; exact .inl rfl
  | write | jumpMisaligned => exact .inl (by simp)
  | noReg | nothing | branchMisaligned | loadError | storeError | service => exact .inl rfl

/-- By what the step did: a fetch error or a zero word leaves the pc, a decode error comes after the advance, and an executed instruction
moves it only to an aligned target. -/
theorem step_keeps_pc_aligned {s t : State} (hs : aligned4 s.pc = true) (h : step s = .next t) : aligned4 t.pc = true := by
  have hadv : aligned4 (s.pc + 4#32) = true := aligned4_add_four hs
  obtain ⟨-, ⟨_, -, rfl⟩ | ⟨-, rfl⟩ | ⟨_, _, -, -, -, rfl⟩ | ⟨_, i, u, -, -, -, hexec, rfl⟩⟩ := step_next_cases h
  · exact hs
  · exact hs
  · exact hadv
  · rw [haltTests_pc]
    obtain hpc | ha := exec_pc_eq_or_aligned hexec
    · rwa [hpc]
    · exact ha

/-! ### The obligation -/

/-- Settles O25: JAL, JALR and the taken branches each end in `jumpTo`, the unmapped pc is a fetch error, and the pc's alignment is
kept by every step (`step_keeps_pc_aligned`). -/
theorem controlTransferTargetsAreAligned : Obligations.ControlTransferTargetsAreAligned := by
  refine ⟨?jal, ?jalr, ?branch, ?unmapped, ?step⟩
  case jal =>
    intro s rd off hrd
    exact transfersTo_of_exec_eq_jumpTo (exec_jal_of_hasReg hrd off) (State.setReg_pc ..) (State.setReg_status ..)
  case jalr =>
    intro s rd rs1 imm funct3 hrs1 hrd
    exact transfersTo_of_exec_eq_jumpTo (exec_jalr_of_hasReg hrs1 hrd imm funct3) (State.setReg_pc ..) (State.setReg_status ..)
  case branch =>
    intro row hrow s rs1 rs2 off h1 h2 htaken
    obtain ⟨cond, hcond, hexec⟩ := exec_eq_branchOp_of_mem_branchTable hrow
    have hjump := branchOp_of_taken h1 h2 ((hcond _ _).mpr htaken) off
    exact transfersTo_of_exec_eq_jumpTo ((hexec rs1 rs2 off s).trans hjump) rfl rfl
  case unmapped =>
    intro s hrun hnone
    exact step_of_fetch_error hrun (memRead_of_uncovered 4 hnone)
  case step =>
    intro s t hs h
    exact (aligned4_iff_toNat_emod _).mp (step_keeps_pc_aligned ((aligned4_iff_toNat_emod _).mpr hs) h)

end Sys2Proof.Machine
end

section
/-! PROOFS. The six branches, spec/42_branches.md R121 to R126: the words of each row, and the branch taken and not taken. -/

namespace Sys2Proof.Machine

/-! ### A branch with both sources present -/

/-- The target is not looked at (D16). -/
theorem branchOp_of_not_taken {cond : Word → Word → Bool} {s : State} {rs1 rs2 : RegIdx} (h1 : s.hasReg rs1 = true)
    (h2 : s.hasReg rs2 = true) (hnot : cond (s.reg rs1) (s.reg rs2) ≠ true) (off : BitVec 13) :
    branchOp cond rs1 rs2 off s = .next s := by
  rw [branchOp, withReg_of_hasReg h1, withReg_of_hasReg h2, if_neg hnot]

section
variable {row : (RegIdx → RegIdx → BitVec 13 → Instr) × (Word → Word → Prop)} {s : State} {rs1 rs2 : RegIdx}

theorem exec_branch_of_taken (hrow : row ∈ branchTable) (h1 : s.hasReg rs1 = true) (h2 : s.hasReg rs2 = true)
    (htaken : row.2 (s.reg rs1) (s.reg rs2)) (off : BitVec 13) :
    exec (row.1 rs1 rs2 off) s = jumpTo s (branchGoal s off) := by
  obtain ⟨cond, hcond, hexec⟩ := exec_eq_branchOp_of_mem_branchTable hrow
  rw [hexec, branchOp_of_taken h1 h2 ((hcond _ _).mpr htaken)]

theorem exec_branch_of_not_taken (hrow : row ∈ branchTable) (h1 : s.hasReg rs1 = true) (h2 : s.hasReg rs2 = true)
    (hnot : ¬ row.2 (s.reg rs1) (s.reg rs2)) (off : BitVec 13) : exec (row.1 rs1 rs2 off) s = .next s := by
  obtain ⟨cond, hcond, hexec⟩ := exec_eq_branchOp_of_mem_branchTable hrow
  rw [hexec, branchOp_of_not_taken h1 h2 (mt (hcond _ _).mp hnot)]

end

/-! ### One branch -/

/-- The rule of a row of `branchTable` whose words are those of the mnemonic `m`. -/
theorem branchRule_of_mem_branchTable {ctor : RegIdx → RegIdx → BitVec 13 → Instr} {cond : Word → Word → Prop} (m : Mnemonic)
    (hrow : (ctor, cond) ∈ branchTable) (hmask : m.mask = 0x0000707F#32)
    (hinstr : ∀ w, rowInstr w m = ctor (rs1Of w) (rs2Of w) (immBField w)) : BranchRule ctor m.pattern cond := by
  refine ⟨?words, ?meaning⟩
  case words =>
    intro w hw
    rw [← hmask] at hw
    exact (decode_of_masked hw).trans (congrArg _ (hinstr w))
  case meaning =>
    intro s rs1 rs2 off h1 h2 haligned
    refine ⟨fun htaken => ?_, fun hnot => exec_branch_of_not_taken hrow h1 h2 hnot off⟩
    exact (exec_branch_of_taken hrow h1 h2 htaken off).trans (jumpTo_of_aligned ((aligned4_iff_toNat_emod _).mpr haligned))

/-! ### The obligation -/

/-- Settles O26: each branch is a row of `branchTable`, with the words of its mnemonic. -/
theorem branchRules : Obligations.BranchRules :=
  ⟨branchRule_of_mem_branchTable .BEQ (List.mem_of_getElem? (i := 0) rfl) rfl fun _ => rfl,
    branchRule_of_mem_branchTable .BNE (List.mem_of_getElem? (i := 1) rfl) rfl fun _ => rfl,
    branchRule_of_mem_branchTable .BLT (List.mem_of_getElem? (i := 2) rfl) rfl fun _ => rfl,
    branchRule_of_mem_branchTable .BGE (List.mem_of_getElem? (i := 3) rfl) rfl fun _ => rfl,
    branchRule_of_mem_branchTable .BLTU (List.mem_of_getElem? (i := 4) rfl) rfl fun _ => rfl,
    branchRule_of_mem_branchTable .BGEU (List.mem_of_getElem? (i := 5) rfl) rfl fun _ => rfl⟩

end Sys2Proof.Machine
end

section
/-! PROOFS. ADDI, SLTI, XORI, ORI and ANDI, spec/45_immediate_alu.md R150, R151, R153 to R155: the words of a row, the errors in order
and the result that the instructions of R159 share, and each one's function in the terms of its rule. -/

namespace Sys2Proof.Machine

/-! ### The common shape (R159) -/

/-- An instruction that runs as `immOp` reads rs1 first, so an absent rs1 is raised before an absent rd. -/
theorem immOutcome_of_exec_eq_immOp {i : Instr} {rd rs1 : RegIdx} {f : Word → Word} (hexec : ∀ s, exec i s = immOp f rd rs1 s) :
    ImmOutcome i rd rs1 f := by
  intro s
  rw [hexec, immOp]
  refine ⟨?present, ?noSource, ?noDest⟩
  case present =>
    intro h1 hd
    rw [withReg_of_hasReg h1, writeBack_of_hasReg hd]
  case noSource =>
    intro h1
    exact withReg_of_not_hasReg h1 _
  case noDest =>
    intro h1 hd
    rw [withReg_of_hasReg h1, writeBack_of_not_hasReg hd]

/-- The rule of an instruction that runs as `immOp` on the sign-extended immediate and whose words are those of the mnemonic `m`. -/
theorem regImmRule_of_exec_eq_immOp {ctor : RegIdx → RegIdx → BitVec 12 → Instr} {f : Word → Word → Word} (m : Mnemonic)
    (hmask : m.mask = 0x0000707F#32) (hinstr : ∀ w, rowInstr w m = ctor (rdOf w) (rs1Of w) (immIField w))
    (hexec : ∀ rd rs1 imm s, exec (ctor rd rs1 imm) s = immOp (fun a => f a (sext12 imm)) rd rs1 s) :
    RegImmRule ctor m.pattern f := by
  refine ⟨?words, ?meaning⟩
  case words =>
    intro w hw
    rw [← hmask] at hw
    exact (decode_of_masked hw).trans (congrArg _ (hinstr w))
  case meaning =>
    intro rd rs1 imm
    exact immOutcome_of_exec_eq_immOp (hexec rd rs1 imm)

/-! ### The functions that a rule states as integers -/

/-- R150: addition of words is addition of their signed values, stored modulo 2^32. -/
theorem add_eq_ofInt_toInt (a b : Word) : a + b = BitVec.ofInt 32 (a.toInt + b.toInt) := by
  rw [BitVec.ofInt_add, BitVec.ofInt_toInt, BitVec.ofInt_toInt]

/-- R151. -/
theorem setWord_ltSigned (a b : Word) : setWord (ltSigned a b) = if a.toInt < b.toInt then 1#32 else 0#32 := by
  simp only [setWord, ltSigned, decide_eq_true_eq]

theorem exec_addi (rd rs1 : RegIdx) (imm : BitVec 12) (s : State) :
    exec (.addi rd rs1 imm) s = immOp (fun a => BitVec.ofInt 32 (a.toInt + (sext12 imm).toInt)) rd rs1 s :=
  congrArg (immOp · rd rs1 s) (funext fun a => add_eq_ofInt_toInt a (sext12 imm))

theorem exec_slti (rd rs1 : RegIdx) (imm : BitVec 12) (s : State) :
    exec (.slti rd rs1 imm) s = immOp (fun a => if a.toInt < (sext12 imm).toInt then 1#32 else 0#32) rd rs1 s :=
  congrArg (immOp · rd rs1 s) (funext fun a => setWord_ltSigned a (sext12 imm))

/-! ### The obligation -/

/-- Settles O33: each instruction runs as `immOp` on its own function of the source and the sign-extended immediate; the bitwise three
are stated as the model computes them, and ADDI and SLTI by their integer values. -/
theorem registerImmediateRules : Obligations.RegisterImmediateRules :=
  ⟨regImmRule_of_exec_eq_immOp .ADDI rfl (fun _ => rfl) exec_addi,
    regImmRule_of_exec_eq_immOp .SLTI rfl (fun _ => rfl) exec_slti,
    regImmRule_of_exec_eq_immOp .XORI rfl (fun _ => rfl) fun _ _ _ _ => rfl,
    regImmRule_of_exec_eq_immOp .ORI rfl (fun _ => rfl) fun _ _ _ _ => rfl,
    regImmRule_of_exec_eq_immOp .ANDI rfl (fun _ => rfl) fun _ _ _ _ => rfl⟩

end Sys2Proof.Machine
end

section
/-! PROOFS. ADD, SUB, SLT, SLTU, XOR, OR and AND, spec/46_register_alu.md R165, R166, R168 to R170, R173, R174: the words of a row, the
errors in order and the result that the instructions of R175 share, and each one's function in the terms of its rule. -/

namespace Sys2Proof.Machine

/-! ### The common shape (R175) -/

/-- The rule of an instruction that runs as `regOp` and whose words are those of the mnemonic `m`: rs1 is read before rs2, and both before
rd is written, so the errors come in that order. -/
theorem regRegRule_of_exec_eq_regOp {ctor : RegIdx → RegIdx → RegIdx → Instr} {f : Word → Word → Word} (m : Mnemonic)
    (hmask : m.mask = 0xFE00707F#32) (hinstr : ∀ w, rowInstr w m = ctor (rdOf w) (rs1Of w) (rs2Of w))
    (hexec : ∀ rd rs1 rs2 s, exec (ctor rd rs1 rs2) s = regOp f rd rs1 rs2 s) : RegRegRule ctor m.pattern f := by
  refine ⟨?words, ?meaning⟩
  case words =>
    intro w hw
    rw [← hmask] at hw
    exact (decode_of_masked hw).trans (congrArg _ (hinstr w))
  case meaning =>
    intro s rd rs1 rs2
    rw [hexec, regOp]
    refine ⟨?present, ?noFirst, ?noSecond, ?noDest⟩
    case present =>
      intro h1 h2 hd
      rw [withReg_of_hasReg h1, withReg_of_hasReg h2, writeBack_of_hasReg hd]
    case noFirst =>
      intro h1
      exact withReg_of_not_hasReg h1 _
    case noSecond =>
      intro h1 h2
      rw [withReg_of_hasReg h1, withReg_of_not_hasReg h2]
    case noDest =>
      intro h1 h2 hd
      rw [withReg_of_hasReg h1, withReg_of_hasReg h2, writeBack_of_not_hasReg hd]

/-- An instruction that runs as `regOp` on a function equal to `f` at every two words runs as `regOp` on `f`. -/
theorem regOp_congr {f g : Word → Word → Word} (h : ∀ a b, g a b = f a b) (rd rs1 rs2 : RegIdx) (s : State) :
    regOp g rd rs1 rs2 s = regOp f rd rs1 rs2 s :=
  congrArg (regOp · rd rs1 rs2 s) (funext₂ h)

/-! ### The functions that a rule states as integers -/

/-- R165: addition of words is addition of their unsigned values, stored modulo 2^32. -/
theorem add_eq_ofNat_toNat (a b : Word) : a + b = BitVec.ofNat 32 (a.toNat + b.toNat) := by
  simp only [BitVec.ofNat_add, BitVec.ofNat_toNat, BitVec.setWidth_eq]

/-- R166: the difference of the unsigned values may be negative, and a borrow wraps modulo 2^32. -/
theorem sub_eq_ofInt_toNat (a b : Word) : a - b = BitVec.ofInt 32 (a.toNat - b.toNat) := by
  rw [sub_eq_add_neg, sub_eq_add_neg, BitVec.ofInt_add, BitVec.ofInt_neg]
  simp only [BitVec.ofInt_natCast, BitVec.ofNat_toNat, BitVec.setWidth_eq]

/-- R169. -/
theorem setWord_ltUnsigned (a b : Word) : setWord (ltUnsigned a b) = if a.toNat < b.toNat then 1#32 else 0#32 := by
  simp only [setWord, ltUnsigned, decide_eq_true_eq]

/-! ### The obligation -/

/-- Settles O36: each instruction runs as `regOp` on its own function of the two sources; the bitwise three are stated as the model
computes them, and ADD, SUB, SLT and SLTU by their integer values. -/
theorem registerRegisterRules : Obligations.RegisterRegisterRules :=
  ⟨regRegRule_of_exec_eq_regOp .ADD rfl (fun _ => rfl) (regOp_congr add_eq_ofNat_toNat),
    regRegRule_of_exec_eq_regOp .SUB rfl (fun _ => rfl) (regOp_congr sub_eq_ofInt_toNat),
    regRegRule_of_exec_eq_regOp .SLT rfl (fun _ => rfl) (regOp_congr setWord_ltSigned),
    regRegRule_of_exec_eq_regOp .SLTU rfl (fun _ => rfl) (regOp_congr setWord_ltUnsigned),
    regRegRule_of_exec_eq_regOp .XOR rfl (fun _ => rfl) fun _ _ _ _ => rfl,
    regRegRule_of_exec_eq_regOp .OR rfl (fun _ => rfl) fun _ _ _ _ => rfl,
    regRegRule_of_exec_eq_regOp .AND rfl (fun _ => rfl) fun _ _ _ _ => rfl⟩

end Sys2Proof.Machine
end

section
/-! PROOFS. The round trips of the codec, spec/30_encoding.md R72, R73 and R82: an encoded word lies in its instruction's row and has its
operands in the row's fields, and a word of a row is put together again from those fields. -/

namespace Sys2Proof

/-! ### From the instruction to the word -/

/-- The encoder writes the opcode and funct fields of the instruction's row. -/
theorem inItsRow_encode (i : Instr) : InItsRow (encode i) i := by
  cases i with
  | lui | auipc => exact masked_of_opcode (opcodeOf_encodeU ..)
  | jal => exact masked_of_opcode (opcodeOf_encodeJ ..)
  | jalr => exact masked_of_opcode (opcodeOf_encodeI ..)
  | beq | bne | blt | bge | bltu | bgeu => exact masked_of_funct3 (opcodeOf_encodeB ..) (funct3Of_encodeB ..)
  | lb | lh | lw | lbu | lhu | lwu => exact masked_of_funct3 (opcodeOf_encodeI ..) (funct3Of_encodeI ..)
  | sb | sh | sw => exact masked_of_funct3 (opcodeOf_encodeS ..) (funct3Of_encodeS ..)
  | addi | slti | sltiu | xori | ori | andi => exact masked_of_funct3 (opcodeOf_encodeI ..) (funct3Of_encodeI ..)
  | slli | srli | srai => exact masked_of_funct7 (opcodeOf_encodeR ..) (funct3Of_encodeR ..) (funct7Of_encodeR ..)
  | add | sub | sll | slt | sltu | xor | srl | sra | or | and =>
    exact masked_of_funct7 (opcodeOf_encodeR ..) (funct3Of_encodeR ..) (funct7Of_encodeR ..)
  | fence => exact masked_of_opcode (opcodeOf_encodeFence _)
  | ecall | ebreak => rfl

/-- The fields of an encoded word are the instruction's operands; the B and J formats have no bit for an odd offset. -/
theorem rowInstr_encode {i : Instr} (h : i.wf = true) : rowInstr (encode i) i.mnemonic = i := by
  cases i with
  | lui | auipc | jalr => simp [rowInstr, encode, Instr.mnemonic]
  | jal rd off =>
    simp only [Instr.mnemonic, encode, rowInstr, rdOf_encodeJ, immJField_encodeJ off rd opJal h]
  | beq rs1 rs2 off | bne rs1 rs2 off | blt rs1 rs2 off | bge rs1 rs2 off | bltu rs1 rs2 off | bgeu rs1 rs2 off =>
    simp only [Instr.mnemonic, encode, rowInstr, rs1Of_encodeB, rs2Of_encodeB, immBField_encodeB off rs2 rs1 _ opBranch h]
  | lb | lh | lw | lbu | lhu | lwu => simp [rowInstr, encode, Instr.mnemonic]
  | sb | sh | sw => simp [rowInstr, encode, Instr.mnemonic]
  | addi | slti | sltiu | xori | ori | andi | slli | srli | srai => simp [rowInstr, encode, Instr.mnemonic]
  | add | sub | sll | slt | sltu | xor | srl | sra | or | and => simp [rowInstr, encode, Instr.mnemonic]
  | fence x => exact congrArg Instr.fence (unexamined_encodeFence x)
  | ecall | ebreak => rfl

theorem decode_encode {i : Instr} (h : i.wf = true) : decode (encode i) = .ok i := by
  rw [decode_of_masked (inItsRow_encode i), rowInstr_encode h]

/-- A word's four bytes decode as the word does, with no byte left (R53). -/
theorem decodeBytes_leBytes {w : Word} {i : Instr} (h : decode w = .ok i) : decodeBytes (leBytes 4 w) = .ok (i, []) := by
  have hword : leWord [byteOf w 0, byteOf w 1, byteOf w 2, byteOf w 3] = w := Machine.leWord_leBytes_four w
  change decodeBytes [byteOf w 0, byteOf w 1, byteOf w 2, byteOf w 3] = _
  rw [decodeBytes, hword, h]

/-- Settles O9: an encoded word lies in its instruction's row, so it decodes to the row's instruction, whose operands are the fields
that the encoder wrote. -/
theorem decodeGivesBackEncode : Obligations.DecodeGivesBackEncode :=
  fun _ h => ⟨decode_encode h, decodeBytes_leBytes (decode_encode h)⟩

/-! ### From the word to the instruction -/

theorem eq_rowInstr_of_decode {w : Word} {i : Instr} (h : decode w = .ok i) : i = rowInstr w i.mnemonic :=
  Except.ok.inj (h.symm.trans (decode_of_masked (inItsRow_of_decode h)))

/-- For a row whose mask and instruction are known by other names. -/
theorem decode_of_masked_eq {w mask : Word} {m : Mnemonic} {i : Instr} (hmask : m.mask = mask) (hinstr : rowInstr w m = i)
    (h : w &&& mask = m.pattern) : decode w = .ok i := by
  rw [← hmask] at h
  rw [decode_of_masked h, hinstr]

theorem wf_rowInstr (w : Word) (m : Mnemonic) : (rowInstr w m).wf = true := by
  cases m with
  | JAL => exact evenOffset_immJField w
  | BEQ | BNE | BLT | BGE | BLTU | BGEU => exact evenOffset_immBField w
  | _ => rfl

/-- A word of a row is the encoding of its fields: what the mask keeps are the row's constants. -/
theorem encode_rowInstr {w : Word} {m : Mnemonic} (h : w &&& m.mask = m.pattern) : encode (rowInstr w m) = w := by
  cases m with
  | LUI | AUIPC =>
    have hw := encodeU_fields w
    rwa [opcodeOf_of_mask h] at hw
  | JAL =>
    have hw := encodeJ_fields w
    rwa [opcodeOf_of_mask h] at hw
  | JALR =>
    have hw := encodeI_fields w
    rwa [opcodeOf_of_mask h] at hw
  | BEQ | BNE | BLT | BGE | BLTU | BGEU =>
    have hw := encodeB_fields w
    obtain ⟨hop, hf3⟩ := fields_of_mask h
    rwa [hop, hf3] at hw
  | LB | LH | LW | LBU | LHU | LWU | ADDI | SLTI | SLTIU | XORI | ORI | ANDI =>
    have hw := encodeI_fields w
    obtain ⟨hop, hf3⟩ := fields_of_mask h
    rwa [hop, hf3] at hw
  | SB | SH | SW =>
    have hw := encodeS_fields w
    obtain ⟨hop, hf3⟩ := fields_of_mask h
    rwa [hop, hf3] at hw
  | SLLI | SRLI | SRAI | ADD | SUB | SLL | SLT | SLTU | XOR | SRL | SRA | OR | AND =>
    have hw := encodeR_fields w
    obtain ⟨hop, hf3, hf7⟩ := fields_of_long_mask h
    rwa [hop, hf3, hf7] at hw
  | FENCE =>
    have hw := encodeFence_fields w
    rwa [opcodeOf_of_mask h] at hw
  | ECALL | EBREAK => exact ((BitVec.and_allOnes (x := w)).symm.trans h).symm

/-- Settles O10: a decoded word lies in its instruction's row and is put together from the row's fields. -/
theorem encodeGivesBackDecode : Obligations.EncodeGivesBackDecode := by
  intro w i h
  rw [eq_rowInstr_of_decode h]
  exact ⟨wf_rowInstr w _, encode_rowInstr (inItsRow_of_decode h)⟩

/-! ### The operands of a decoded word -/

theorem dest_rowInstr (w : Word) (m : Mnemonic) : (rowInstr w m).dest = none ∨ (rowInstr w m).dest = some (rdOf w) := by
  cases m with
  | BEQ | BNE | BLT | BGE | BLTU | BGEU | SB | SH | SW | FENCE | ECALL | EBREAK => exact .inl rfl
  | _ => exact .inr rfl

theorem sources_rowInstr (w : Word) (m : Mnemonic) :
    (rowInstr w m).sources = [] ∨ (rowInstr w m).sources = [rs1Of w] ∨ (rowInstr w m).sources = [rs1Of w, rs2Of w] := by
  cases m with
  | LUI | AUIPC | JAL | FENCE | ECALL | EBREAK => exact .inl rfl
  | JALR | LB | LH | LW | LBU | LHU | LWU => exact .inr (.inl rfl)
  | ADDI | SLTI | SLTIU | XORI | ORI | ANDI | SLLI | SRLI | SRAI => exact .inr (.inl rfl)
  | _ => exact .inr (.inr rfl)

theorem operandValue_rowInstr (w : Word) (m : Mnemonic) : operandValue (rowInstr w m) = formatValue w m := by
  cases m <;> rfl

/-- Settles O12: a decoded instruction is its row's instruction, whose operands are the word's fields. -/
theorem decodedOperandsAreTheFields : Obligations.DecodedOperandsAreTheFields := by
  intro w i h
  rw [eq_rowInstr_of_decode h, mnemonic_rowInstr]
  refine ⟨fun r hr => ?_, sources_rowInstr w _, operandValue_rowInstr w _⟩
  obtain hnone | hsome := dest_rowInstr w i.mnemonic
  · cases hnone.symm.trans hr
  · exact Option.some.inj (hr.symm.trans hsome)

end Sys2Proof
end

section
/-! PROOFS. The table of illegal words, spec/30_encoding.md R84: each family's decoder, by the funct fields that select nothing. -/

namespace Sys2Proof

section
variable {w : Word}

/-! ### The family of an opcode (R81) -/

theorem decode_of_opBranch (h : opcodeOf w = opBranch) : decode w = decodeBranch w := by
  rw [decode, h]; rfl

theorem decode_of_opLoad (h : opcodeOf w = opLoad) : decode w = decodeLoad w := by
  rw [decode, h]; rfl

theorem decode_of_opStore (h : opcodeOf w = opStore) : decode w = decodeStore w := by
  rw [decode, h]; rfl

theorem decode_of_opImmediate (h : opcodeOf w = opImmediate) : decode w = decodeImmediate w := by
  rw [decode, h]; rfl

theorem decode_of_opRegister (h : opcodeOf w = opRegister) : decode w = decodeRegister w := by
  rw [decode, h]; rfl

theorem decode_of_opService (h : opcodeOf w = opService) : decode w = decodeService w := by
  rw [decode, h]; rfl

/-- The eleven opcodes of R81. -/
def opcodes : List (BitVec 7) :=
  [opLui, opAuipc, opJal, opJalr, opBranch, opLoad, opStore, opImmediate, opRegister, opFence, opService]

theorem decode_of_unknown_opcode (h : opcodeOf w ∉ opcodes) : decode w = .error (.invalidOpcode (opcodeOf w)) := by
  simp only [opcodes, List.mem_cons, List.not_mem_nil, or_false, not_or] at h
  simp only [decode, h, if_false]

/-! ### The errors of each family -/

theorem decodeBranch_error (h : funct3Of w = 2#3 ∨ funct3Of w = 3#3) : decodeBranch w = badFunct w := by
  obtain hf3 | hf3 := h <;> rw [decodeBranch, hf3] <;> rfl

theorem decodeLoad_error (h : funct3Of w = 3#3 ∨ funct3Of w = 7#3) : decodeLoad w = .error (.invalidWidth (funct3Of w)) := by
  obtain hf3 | hf3 := h <;> rw [decodeLoad, hf3] <;> rfl

theorem decodeStore_error (h0 : funct3Of w ≠ 0#3) (h1 : funct3Of w ≠ 1#3) (h2 : funct3Of w ≠ 2#3) :
    decodeStore w = .error (.invalidWidth (funct3Of w)) := by
  rw [decodeStore, if_neg h0, if_neg h1, if_neg h2]

theorem decodeImmediate_slli_error (hf3 : funct3Of w = 1#3) (hf7 : funct7Of w ≠ 0x00#7) : decodeImmediate w = badFunct w := by
  rw [decodeImmediate, hf3]
  exact if_neg hf7

theorem decodeImmediate_right_shift_error (hf3 : funct3Of w = 5#3) (hf7 : funct7Of w ≠ 0x00#7) (hf7' : funct7Of w ≠ 0x20#7) :
    decodeImmediate w = badFunct w := by
  rw [decodeImmediate, hf3]
  exact (if_neg hf7).trans (if_neg hf7')

theorem decodeRegister_error (hf7 : funct7Of w ≠ 0x00#7) (hf7' : ¬ (funct7Of w = 0x20#7 ∧ (funct3Of w = 0#3 ∨ funct3Of w = 5#3))) :
    decodeRegister w = badFunct w := by
  rw [decodeRegister, if_neg hf7]
  split
  next h20 =>
    have hf3 : funct3Of w ≠ 0#3 ∧ funct3Of w ≠ 5#3 := not_or.mp fun h => hf7' ⟨h20, h⟩
    rw [if_neg hf3.1, if_neg hf3.2]
  next => rfl

theorem decodeService_error (h : w ≠ 0x00000073#32) (h' : w ≠ 0x00100073#32) : decodeService w = badFunct w := by
  rw [decodeService, if_neg h, if_neg h']

/-! ### The words of each family that are instructions -/

theorem decodeBranch_ok (h : ¬ (funct3Of w = 2#3 ∨ funct3Of w = 3#3)) : ∃ i, decodeBranch w = .ok i := by
  rw [decodeBranch]
  split_ifs
  iterate 6 exact ⟨_, rfl⟩
  exact absurd (by bv_omega) h

theorem decodeLoad_ok (h : ¬ (funct3Of w = 3#3 ∨ funct3Of w = 7#3)) : ∃ i, decodeLoad w = .ok i := by
  rw [decodeLoad]
  split_ifs
  iterate 6 exact ⟨_, rfl⟩
  exact absurd (by bv_omega) h

theorem decodeStore_ok (h : ¬ (funct3Of w ≠ 0#3 ∧ funct3Of w ≠ 1#3 ∧ funct3Of w ≠ 2#3)) : ∃ i, decodeStore w = .ok i := by
  rw [decodeStore]
  split_ifs with h0 h1 h2
  iterate 3 exact ⟨_, rfl⟩
  exact absurd ⟨h0, h1, h2⟩ h

theorem decodeImmediate_ok (hleft : ¬ (funct3Of w = 1#3 ∧ funct7Of w ≠ 0x00#7))
    (hright : ¬ (funct3Of w = 5#3 ∧ funct7Of w ≠ 0x00#7 ∧ funct7Of w ≠ 0x20#7)) : ∃ i, decodeImmediate w = .ok i := by
  rw [decodeImmediate]
  split_ifs with _ _ _ _ _ _ hf3 hf7 hf7 hf7'
  iterate 7 exact ⟨_, rfl⟩
  · exact absurd ⟨hf3, hf7⟩ hleft
  iterate 2 exact ⟨_, rfl⟩
  · exact absurd ⟨by bv_omega, hf7, hf7'⟩ hright

theorem decodeRegister_ok (h : ¬ (funct7Of w ≠ 0x00#7 ∧ ¬ (funct7Of w = 0x20#7 ∧ (funct3Of w = 0#3 ∨ funct3Of w = 5#3)))) :
    ∃ i, decodeRegister w = .ok i := by
  rw [decodeRegister]
  split_ifs with hf7 _ _ _ _ _ _ _ h20 hadd hsra
  iterate 10 exact ⟨_, rfl⟩
  · exact absurd ⟨hf7, fun ⟨_, hf3⟩ => hf3.elim hadd hsra⟩ h
  · exact absurd ⟨hf7, fun ⟨hf7', _⟩ => h20 hf7'⟩ h

theorem decodeService_ok (h : ¬ (w ≠ 0x00000073#32 ∧ w ≠ 0x00100073#32)) : ∃ i, decodeService w = .ok i := by
  rw [decodeService]
  split_ifs with hecall hebreak
  iterate 2 exact ⟨_, rfl⟩
  exact absurd ⟨hecall, hebreak⟩ h

end

/-! ### The obligations -/

/-- Settles O15: each class of R84 is one family's error case, and outside the classes each family's decoder answers an instruction. -/
theorem illegalWordsAndTheirErrors : Obligations.IllegalWordsAndTheirErrors := by
  intro w
  refine ⟨?unknown, ?badFunct, ?badWidth, ?legal⟩
  case unknown => exact decode_of_unknown_opcode
  case badFunct =>
    rintro (⟨hop, hf3⟩ | ⟨hop, ⟨hf3, hf7⟩ | ⟨hf3, hf7, hf7'⟩⟩ | ⟨hop, hf7, hf7'⟩ | ⟨hop, hw, hw'⟩)
    · exact (decode_of_opBranch hop).trans (decodeBranch_error hf3)
    · exact (decode_of_opImmediate hop).trans (decodeImmediate_slli_error hf3 hf7)
    · exact (decode_of_opImmediate hop).trans (decodeImmediate_right_shift_error hf3 hf7 hf7')
    · exact (decode_of_opRegister hop).trans (decodeRegister_error hf7 hf7')
    · exact (decode_of_opService hop).trans (decodeService_error hw hw')
  case badWidth =>
    rintro (⟨hop, hf3⟩ | ⟨hop, h0, h1, h2⟩)
    · exact (decode_of_opLoad hop).trans (decodeLoad_error hf3)
    · exact (decode_of_opStore hop).trans (decodeStore_error h0 h1 h2)
  case legal =>
    intro hknown hfunct hwidth
    simp only [not_or] at hfunct hwidth
    obtain ⟨hbranch, himm, hreg, hservice⟩ := hfunct
    obtain ⟨hload, hstore⟩ := hwidth
    simp only [List.mem_cons, List.not_mem_nil, or_false] at hknown
    obtain hop | hop | hop | hop | hop | hop | hop | hop | hop | hop | hop := hknown
    · exact ⟨_, decode_of_masked (m := .LUI) (masked_of_opcode hop)⟩
    · exact ⟨_, decode_of_masked (m := .AUIPC) (masked_of_opcode hop)⟩
    · exact ⟨_, decode_of_masked (m := .JAL) (masked_of_opcode hop)⟩
    · exact ⟨_, decode_of_masked (m := .JALR) (masked_of_opcode hop)⟩
    · rw [decode_of_opBranch hop]
      exact decodeBranch_ok fun h => hbranch ⟨hop, h⟩
    · rw [decode_of_opLoad hop]
      exact decodeLoad_ok fun h => hload ⟨hop, h⟩
    · rw [decode_of_opStore hop]
      exact decodeStore_ok fun h => hstore ⟨hop, h⟩
    · rw [decode_of_opImmediate hop]
      exact decodeImmediate_ok (fun h => himm ⟨hop, .inl h⟩) fun h => himm ⟨hop, .inr h⟩
    · rw [decode_of_opRegister hop]
      exact decodeRegister_ok fun h => hreg ⟨hop, h⟩
    · exact ⟨_, decode_of_masked (m := .FENCE) (masked_of_opcode hop)⟩
    · rw [decode_of_opService hop]
      exact decodeService_ok fun h => hservice ⟨hop, h⟩

/-- Settles O16: each word is a closed term that the decoder evaluates. -/
theorem exampleWordsDecode : Obligations.ExampleWordsDecode := by
  unfold Obligations.ExampleWordsDecode
  decide

end Sys2Proof
end

section
/-! PROOFS. The devices, spec/20_memory.md sections 3 to 5: the little-endian value of a run of bytes, the memory device's accesses
inside and outside its range, and the output device. -/

namespace Sys2Proof.Machine

/-! ### The value of a run of bytes -/

/-- R45: `b0 + b1 * 2^8 + …`. -/
theorem leNat_readBytes (m : Memory) (a n : Nat) :
    leNat (m.readBytes a n) = ∑ k ∈ Finset.range n, (m.read (a + k)).toNat * 2 ^ (8 * k) := by
  induction n generalizing a with
  | zero => rfl
  | succ n ih =>
    rw [Memory.readBytes, leNat, ih, Finset.sum_range_succ', Finset.mul_sum, add_comm]
    congr 1
    · refine Finset.sum_congr rfl fun k _ => ?_
      rw [show a + 1 + k = a + (k + 1) by omega, show 8 * (k + 1) = 8 * k + 8 by omega, pow_add]
      ring
    · simp

theorem toNat_leWord {bs : List Byte} (h : bs.length ≤ 4) : (leWord bs).toNat = leNat bs := by
  have hlt : leNat bs < 2 ^ 32 := calc
    leNat bs < 256 ^ bs.length := leNat_lt bs
    _ ≤ 256 ^ 4 := Nat.pow_le_pow_right (by decide) h
  rw [leWord, BitVec.toNat_ofNat, Nat.mod_eq_of_lt hlt]

theorem toNat_leWord_readBytes (m : Memory) (a : Nat) {n : Nat} (h : n ≤ 4) :
    (leWord (m.readBytes a n)).toNat = ∑ k ∈ Finset.range n, (m.read (a + k)).toNat * 2 ^ (8 * k) := by
  rw [toNat_leWord (by simpa using h), leNat_readBytes]

theorem le_four_of_validWidth {n : Nat} (h : validWidth n = true) : n ≤ 4 := by
  obtain rfl | rfl | rfl := validWidth_iff.mp h <;> decide

/-! ### The memory device, inside and outside its range -/

section
variable {d : MemoryDevice} {a : Word} {n : Nat}

theorem MemoryDevice.load_of_inside (hn : validWidth n = true) (h : d.outside a n = false) :
    d.load a n = .ok (leWord (d.buf.readBytes a.toNat n)) :=
  MemoryDevice.load_ok_iff.mpr ⟨hn, h, rfl⟩

theorem MemoryDevice.store_of_inside (hn : validWidth n = true) (h : d.outside a n = false) (v : Word) :
    d.store a n v = .ok { d with buf := d.buf.writeBytes a.toNat (leBytes n v) } :=
  MemoryDevice.store_ok_iff.mpr ⟨hn, h, rfl⟩

theorem MemoryDevice.outside_of_end_lt (h : d.base + d.size < a.toNat + n) : d.outside a n = true := by
  rw [← Bool.not_eq_false, MemoryDevice.outside_eq_false_iff]
  omega

theorem MemoryDevice.load_of_outside (hn : validWidth n = true) (h : d.outside a n = true) :
    d.load a n = .error (.outOfRange a) := by
  rw [MemoryDevice.load, if_neg (by simp [hn]), if_pos h]

theorem MemoryDevice.store_of_outside (hn : validWidth n = true) (h : d.outside a n = true) (v : Word) :
    d.store a n v = .error (.outOfRange a) := by
  rw [MemoryDevice.store, if_neg (by simp [hn]), if_pos h]

end

/-- The bytes of a store, least significant first (R46). -/
theorem Memory.read_writeBytes_leBytes {m : Memory} (hm : m.wf = true) (a : Nat) (v : Word) {n k : Nat} (hk : k < n) :
    (m.writeBytes a (leBytes n v)).read (a + k) = byteOf v k := by
  rw [Memory.read_writeBytes_inside hm a _ (by simpa using hk), getElem_leBytes]

theorem Memory.read_writeBytes_leBytes_outside (m : Memory) {a n : Nat} (v : Word) {x : Nat} (h : x < a ∨ a + n ≤ x) :
    (m.writeBytes a (leBytes n v)).read x = m.read x :=
  Memory.read_writeBytes_outside m a _ (by simpa using h)

/-- Settles O5, by whether all bytes of the access are inside the device. -/
theorem memoryDeviceBytesAndBounds : Obligations.MemoryDeviceBytesAndBounds := by
  intro d a v n hn
  have hw : validWidth n = true := validWidth_iff.mpr hn
  refine ⟨fun hbase hend => ?inside, fun hout => ?outside⟩
  case inside =>
    have hin : d.outside a n = false := MemoryDevice.outside_eq_false_iff.mpr ⟨hbase, hend⟩
    refine ⟨⟨_, MemoryDevice.load_of_inside hw hin, toNat_leWord_readBytes _ _ (le_four_of_validWidth hw)⟩,
      _, MemoryDevice.store_of_inside hw hin v, fun hm => ⟨Memory.wf_writeBytes hm _ _, fun k hk => ?_⟩, fun x hx => ?_⟩
    · exact Memory.read_writeBytes_leBytes hm a.toNat v hk
    · exact Memory.read_writeBytes_leBytes_outside d.buf v hx
  case outside =>
    have hout' : d.outside a n = true := by
      rw [← Bool.not_eq_false, MemoryDevice.outside_eq_false_iff]
      exact hout
    exact ⟨MemoryDevice.load_of_outside hw hout', MemoryDevice.store_of_outside hw hout' v⟩

/-! ### Slices of a stored word -/

/-- Two neighbouring bytes of a word are its halfword there. -/
theorem leWord_byteOf_two (v : Word) (k : Nat) :
    leWord [byteOf v k, byteOf v (k + 1)] = (v.extractLsb' (8 * k) 16).setWidth 32 := by
  apply BitVec.eq_of_toNat_eq
  rw [toNat_leWord (by simp), BitVec.toNat_setWidth_of_le (by decide), toNat_extract]
  simp only [leNat, toNat_byteOf]
  rw [show 8 * (k + 1) = 8 * k + 8 by omega, pow_add, ← Nat.div_div_eq_div_mul]
  omega

theorem leWord_one (b : Byte) : leWord [b] = b.setWidth 32 := by
  apply BitVec.eq_of_toNat_eq
  rw [toNat_leWord (by simp), BitVec.toNat_setWidth_of_le (by decide)]
  simp [leNat]

theorem leWord_two (b0 b1 : Byte) : leWord [b0, b1] = (b1 ++ b0 : BitVec 16).setWidth 32 := by
  apply BitVec.eq_of_toNat_eq
  have happend := toNat_append_add b1 b0
  rw [toNat_leWord (by simp), BitVec.toNat_setWidth_of_le (by decide), happend]
  simp only [leNat]
  omega

theorem leWord_four (b0 b1 b2 b3 : Byte) : leWord [b0, b1, b2, b3] = b3 ++ b2 ++ b1 ++ b0 := by
  apply BitVec.eq_of_toNat_eq
  have h1 := toNat_append_add b3 b2
  have h2 := toNat_append_add (b3 ++ b2) b1
  have h3 := toNat_append_add (b3 ++ b2 ++ b1) b0
  refine (toNat_leWord (by simp)).trans (Eq.trans ?_ h3.symm)
  rw [h2, h1]
  simp only [leNat]
  omega

/-- The upper three bytes of a word with a byte above them. -/
theorem leWord_byteOf_upper (v : Word) (b : Byte) :
    leWord [byteOf v 1, byteOf v 2, byteOf v 3, b] = b ++ v.extractLsb' 8 24 := by
  apply BitVec.eq_of_toNat_eq
  have happend := toNat_append_add b (v.extractLsb' 8 24)
  refine (toNat_leWord (by simp)).trans (Eq.trans ?_ happend.symm)
  rw [toNat_extract]
  simp only [leNat, toNat_byteOf]
  omega

/-- An address inside a legal device does not wrap. -/
theorem toNat_add_ofNat {a : Word} {k : Nat} (h : a.toNat + k < 2 ^ 32) : (a + BitVec.ofNat 32 k).toNat = a.toNat + k := by
  rw [BitVec.toNat_add, BitVec.toNat_ofNat, Nat.add_mod_mod, Nat.mod_eq_of_lt h]

section
variable {d d' : MemoryDevice} {a v : Word}

/-- A load of `n` bytes from `k` bytes above `a` reads the bytes there. -/
theorem MemoryDevice.load_add_ofNat (hd : d.wf = true) {n k : Nat} (hn : validWidth n = true) (hbase : d.base ≤ a.toNat)
    (hend : a.toNat + k + n ≤ d.base + d.size) :
    d.load (a + BitVec.ofNat 32 k) n = .ok (leWord (d.buf.readBytes (a.toNat + k) n)) := by
  obtain ⟨-, hsize, -, -⟩ := MemoryDevice.wf_iff.mp hd
  have hpos : 1 ≤ n := by obtain rfl | rfl | rfl := validWidth_iff.mp hn <;> decide
  have ha : (a + BitVec.ofNat 32 k).toNat = a.toNat + k := toNat_add_ofNat (by omega)
  rw [MemoryDevice.load_of_inside hn (MemoryDevice.outside_eq_false_iff.mpr (by omega)), ha]

theorem MemoryDevice.wf_store (hd : d.wf = true) {n : Nat} (h : d.store a n v = .ok d') : d'.wf = true := by
  obtain ⟨-, hin, rfl⟩ := MemoryDevice.store_ok_iff.mp h
  exact MemoryDevice.wf_writeBytes hd v hin

theorem MemoryDevice.read_store (hd : d.wf = true) {n : Nat} (h : d.store a n v = .ok d') {k : Nat} (hk : k < n) :
    d'.buf.read (a.toNat + k) = byteOf v k := by
  obtain ⟨-, -, hcanon, -⟩ := MemoryDevice.wf_iff.mp hd
  obtain ⟨-, -, rfl⟩ := MemoryDevice.store_ok_iff.mp h
  exact Memory.read_writeBytes_leBytes hcanon a.toNat v hk

theorem MemoryDevice.read_store_outside {n : Nat} (h : d.store a n v = .ok d') {x : Nat}
    (hx : x < a.toNat ∨ a.toNat + n ≤ x) : d'.buf.read x = d.buf.read x := by
  obtain ⟨-, -, rfl⟩ := MemoryDevice.store_ok_iff.mp h
  exact Memory.read_writeBytes_leBytes_outside d.buf v hx

end

/-- Settles O6: each load reads bytes of the stored word, or the next byte, which the store left. -/
theorem storedWordReadsBackInSlices : Obligations.StoredWordReadsBackInSlices := by
  intro d d' a v hd h
  have hd' : d'.wf = true := MemoryDevice.wf_store hd h
  obtain ⟨-, -, hcanon, -⟩ := MemoryDevice.wf_iff.mp hd
  obtain ⟨hbase, hsize⟩ := MemoryDevice.store_params h
  obtain ⟨-, hin, -⟩ := MemoryDevice.store_ok_iff.mp h
  obtain ⟨hlow, hhigh⟩ := MemoryDevice.outside_eq_false_iff.mp hin
  rw [← hbase] at hlow
  rw [← hbase, ← hsize] at hhigh
  refine ⟨MemoryDevice.load_store_four hcanon h, fun k hk => ?byte, fun k hk => ?half, fun hnext => ?upper⟩
  case byte =>
    rw [MemoryDevice.load_add_ofNat hd' (by decide) hlow (by omega)]
    simp only [Memory.readBytes, MemoryDevice.read_store hd h hk]
    exact congrArg _ (leWord_one _)
  case half =>
    rw [MemoryDevice.load_add_ofNat hd' (by decide) hlow (by omega)]
    have hnext := MemoryDevice.read_store hd h (show k + 1 < 4 by omega)
    simp only [Memory.readBytes, MemoryDevice.read_store hd h (show k < 4 by omega), Nat.add_assoc, hnext]
    exact congrArg _ (leWord_byteOf_two v k)
  case upper =>
    rw [← hbase, ← hsize] at hnext
    have h1 := MemoryDevice.read_store hd h (show 1 < 4 by decide)
    have h2 := MemoryDevice.read_store hd h (show 2 < 4 by decide)
    have h3 := MemoryDevice.read_store hd h (show 3 < 4 by decide)
    have h4 := MemoryDevice.read_store_outside h (x := a.toNat + 4) (by omega)
    rw [MemoryDevice.load_add_ofNat hd' (by decide) hlow (by omega)]
    simp only [Memory.readBytes, Nat.add_assoc, Nat.reduceAdd, h1, h2, h3, h4]
    exact congrArg _ (leWord_byteOf_upper v _)

/-! ### The output device -/

section
variable {n : Nat}

theorem outputLoad_of_validWidth (h : validWidth n = true) : outputLoad n = .ok 0#32 := by
  rw [outputLoad, if_neg (by simp [h])]

theorem outputStore_of_validWidth (h : validWidth n = true) (port v : Word) :
    outputStore port n v = .ok [{ port := port, n := n, bytes := leBytes n v }] := by
  rw [outputStore, if_neg (by simp [h])]

end

theorem Peripheral.store_output {n : Nat} (h : validWidth n = true) (port a v : Word) :
    (Peripheral.output port).store a n v = .ok (.output port, [{ port := port, n := n, bytes := leBytes n v }]) := by
  rw [Peripheral.store, outputStore_of_validWidth h]

/-- Settles O7, from the device's definition at a legal width. -/
theorem outputDeviceRule : Obligations.OutputDeviceRule := by
  intro port a v n
  refine ⟨decide_eq_true_iff, fun hn => ?_⟩
  have hw : validWidth n = true := validWidth_iff.mpr hn
  exact ⟨outputLoad_of_validWidth hw, Peripheral.store_output hw port a v⟩

end Sys2Proof.Machine
end

section
/-! PROOFS. The step, spec/10_state.md R19 and spec/60_exceptions.md R190 to R197: that every instruction and every running state gives a
next state, the two stops before the execution, the halt tests after it, and the parameters that no instruction changes. -/

namespace Sys2Proof.Machine

/-! ### Every instruction gives a next state -/

section
variable (s : State)

theorem writeBack_next (rd : RegIdx) (v : Word) : ∃ t, writeBack s rd v = .next t := by
  obtain ⟨-, e⟩ | ⟨-, e⟩ := writeBack_cases s rd v <;> exact ⟨_, e⟩

theorem linkJump_next (rd : RegIdx) (link target : Word) : ∃ t, thenWrite s rd link (fun s' => jumpTo s' target) = .next t := by
  obtain ⟨-, -, e⟩ | ⟨-, -, e⟩ | ⟨-, e⟩ := linkJump_cases s rd link target <;> exact ⟨_, e⟩

theorem execJalr_next (rd rs1 : RegIdx) (imm : BitVec 12) : ∃ t, execJalr rd rs1 imm s = .next t := by
  cases h1 : s.hasReg rs1 with
  | false => exact ⟨_, withReg_of_not_hasReg h1 _⟩
  | true =>
    rw [execJalr, withReg_of_hasReg h1]
    exact linkJump_next s rd _ _

theorem branchOp_next (cond : Word → Word → Bool) (rs1 rs2 : RegIdx) (off : BitVec 13) :
    ∃ t, branchOp cond rs1 rs2 off s = .next t := by
  obtain ⟨-, -, -, e⟩ | ⟨-, -, -, -, e⟩ | ⟨-, -, -, -, e⟩ | ⟨-, e⟩ | ⟨-, -, e⟩ := branchOp_cases cond rs1 rs2 off s <;>
    exact ⟨_, e⟩

theorem loadOp_next (n : Nat) (ext : Word → Word) (rd rs1 : RegIdx) (imm : BitVec 12) :
    ∃ t, loadOp n ext rd rs1 imm s = .next t := by
  obtain ⟨-, -, _, -, e⟩ | ⟨-, e⟩ | ⟨-, _, -, e⟩ | ⟨-, -, -, e⟩ := loadOp_cases n ext rd rs1 imm s <;> exact ⟨_, e⟩

theorem storeOp_next (n : Nat) (rs1 rs2 : RegIdx) (imm : BitVec 12) : ∃ t, storeOp n rs1 rs2 imm s = .next t := by
  obtain ⟨-, -, _, -, e⟩ | ⟨-, e⟩ | ⟨-, -, e⟩ | ⟨-, -, _, -, e⟩ := storeOp_cases n rs1 rs2 imm s <;> exact ⟨_, e⟩

theorem immOp_next (f : Word → Word) (rd rs1 : RegIdx) : ∃ t, immOp f rd rs1 s = .next t := by
  obtain ⟨-, -, e⟩ | ⟨-, e⟩ | ⟨-, -, e⟩ := immOp_cases f rd rs1 s <;> exact ⟨_, e⟩

theorem regOp_next (f : Word → Word → Word) (rd rs1 rs2 : RegIdx) : ∃ t, regOp f rd rs1 rs2 s = .next t := by
  obtain ⟨-, -, -, e⟩ | ⟨-, e⟩ | ⟨-, -, e⟩ | ⟨-, -, -, e⟩ := regOp_cases f rd rs1 rs2 s <;> exact ⟨_, e⟩

/-- R228, family by family. -/
theorem exec_next (i : Instr) : ∃ t, exec i s = .next t := by
  cases i with
  | lui | auipc => exact writeBack_next s ..
  | jal => exact linkJump_next s ..
  | jalr => exact execJalr_next s ..
  | beq | bne | blt | bge | bltu | bgeu => exact branchOp_next s ..
  | lb | lh | lw | lbu | lhu | lwu => exact loadOp_next s ..
  | sb | sh | sw => exact storeOp_next s ..
  | addi | slti | sltiu | xori | ori | andi | slli | srli | srai => exact immOp_next s ..
  | add | sub | sll | slt | sltu | xor | srl | sra | or | and => exact regOp_next s ..
  | fence | ecall | ebreak => exact ⟨_, rfl⟩

end

/-! ### The step, by what was fetched -/

section
variable {s : State} {w : Word}

theorem step_of_zero_word (hrun : s.status = .running) (h : fetch s = .ok 0x00000000#32) :
    step s = .next (s.halt .zeroWord) := by
  rw [step_running hrun, cycle, h]
  rfl

theorem step_of_word (hrun : s.status = .running) (h : fetch s = .ok w) (h0 : w ≠ 0#32) : step s = runWord w s := by
  rw [step_running hrun, cycle, h]
  exact if_neg h0

theorem step_of_decode_error {e : DecodeError} (hrun : s.status = .running) (h : fetch s = .ok w) (h0 : w ≠ 0#32)
    (hd : decode w = .error e) : step s = .next ((s.setPc (s.pc + 4#32)).raise (fatalOf e)) := by
  rw [step_of_word hrun h h0, runWord, hd]
  rfl

theorem step_of_exec {i : Instr} {t : State} (hrun : s.status = .running) (h : fetch s = .ok w) (h0 : w ≠ 0#32)
    (hd : decode w = .ok i) (hexec : exec i (s.setPc (s.pc + 4#32)) = .next t) : step s = .next (haltTests i t) := by
  rw [step_of_word hrun h h0, runWord, hd]
  exact congrArg (finish i) hexec

/-- Every running state gives a next state, whatever the fetch and the decoder answer. -/
theorem step_next (hrun : s.status = .running) : ∃ t, step s = .next t := by
  cases hf : fetch s with
  | error e => exact ⟨_, step_of_fetch_error hrun hf⟩
  | ok w =>
    by_cases h0 : w = 0#32
    · exact ⟨_, step_of_zero_word hrun (h0 ▸ hf)⟩
    · cases hd : decode w with
      | error e => exact ⟨_, step_of_decode_error hrun hf h0 hd⟩
      | ok i =>
        obtain ⟨t, ht⟩ := exec_next (s.setPc (s.pc + 4#32)) i
        exact ⟨_, step_of_exec hrun hf h0 hd ht⟩

end

theorem serviceHalts_iff {i : Instr} {s : State} :
    serviceHalts i s = true ↔ s.haltOnService = true ∧ (i = .ecall ∨ i = .ebreak) := by
  simp [serviceHalts]

/-- The halt tests run only when the instruction raised nothing (R192). -/
theorem haltTests_of_not_running {i : Instr} {s : State} (h : s.status ≠ .running) : haltTests i s = s := by
  unfold haltTests
  split
  next hrun => exact absurd hrun h
  next => rfl
  next => rfl

/-! ### The parameters of the step -/

section
variable {i : Instr} {s t : State}

theorem exec_fixedParams (h : exec i s = .next t) : t.fixedParams = s.fixedParams := by
  cases exec_effect h with
  | store _ _ _ _ hok =>
    have hparams := memWrite_params hok
    rw [memWrite_frame hok]
    simp only [State.fixedParams, hparams]
  | write | jump | jumpMisaligned => simp [State.fixedParams]
  | noReg | nothing | branch | branchMisaligned | loadError | storeError | service => rfl

theorem exec_haltOnService (h : exec i s = .next t) : t.haltOnService = s.haltOnService :=
  congrArg (·.2.1) (exec_fixedParams h)

theorem exec_nregs (h : exec i s = .next t) : t.nregs = s.nregs :=
  congrArg (·.1) (exec_fixedParams h)

end

/-! ### The obligations -/

/-- Settles O17: the execution gives a next state (`exec_next`), and the step is that state after the halt tests. -/
theorem stepRunsTheDecodedInstruction : Obligations.StepRunsTheDecodedInstruction := by
  intro s w i hrun hf h0 hd
  obtain ⟨t, ht⟩ := exec_next (s.setPc (s.pc + 4#32)) i
  have hhalt : t.haltOnService = s.haltOnService :=
    (exec_haltOnService ht).trans (State.setPc_haltOnService ..)
  refine ⟨t, ht, ?_⟩
  rw [step_of_exec hrun hf h0 hd ht]
  by_cases hstatus : t.status = .running
  · rw [if_neg (by simpa using hstatus), haltTests_running hstatus, ← hhalt]
    simp only [serviceHalts_iff]
    rfl
  · rw [if_pos hstatus, haltTests_of_not_running hstatus]

/-- Settles O18: the zero word is tested before the advance. -/
theorem zeroWordHaltsBeforeTheAdvance : Obligations.ZeroWordHaltsBeforeTheAdvance :=
  fun _ hrun hf => step_of_zero_word hrun hf

/-- Settles O19: the first two are the two errors of the fetch's read, the third comes after the advance. -/
theorem fetchAndDecodeErrors : Obligations.FetchAndDecodeErrors := by
  intro s hrun
  refine ⟨fun hnone => ?unmapped, fun pre post d hfirst hend => ?outOfRange, fun w e hf h0 hd => ?undecoded⟩
  case unmapped => exact step_of_fetch_error hrun (memRead_of_uncovered 4 hnone)
  case outOfRange =>
    have hout : d.outside s.pc 4 = true := MemoryDevice.outside_of_end_lt hend
    exact step_of_fetch_error hrun ((memRead_of_firstCovering hfirst 4).trans (MemoryDevice.load_of_outside (by decide) hout))
  case undecoded => exact step_of_decode_error hrun hf h0 hd

/-- Settles O20, from the definition of the step at each stopped status. -/
theorem stoppedMachineTakesNoStep : Obligations.StoppedMachineTakesNoStep := by
  intro s
  refine ⟨fun r h => ?_, fun e h => ?_⟩ <;> rw [step, h]

/-- Settles O21: every instruction's family answers a next state, and so does every way a running step can go. -/
theorem runningMachineAlwaysSteps : Obligations.RunningMachineAlwaysSteps :=
  ⟨fun i s => exec_next s i, fun _ hrun => step_next hrun⟩

end Sys2Proof.Machine
end

section
/-! PROOFS. What every instruction leaves unchanged and which errors it can raise, spec/10_state.md sections 1 to 4 and
spec/60_exceptions.md R191 and R193, read off the inversion lemma `exec_effect`. -/

namespace Sys2Proof.Machine

/-! ### Widths of accesses -/

theorem validWidth_loadWidth {i : Instr} (h : i.loadWidth ≠ 0) : validWidth i.loadWidth = true := by
  cases i with
  | lb | lh | lw | lbu | lhu | lwu => rfl
  | _ => exact absurd rfl h

theorem validWidth_storeWidth {i : Instr} (h : i.storeWidth ≠ 0) : validWidth i.storeWidth = true := by
  cases i with
  | sb | sh | sw => rfl
  | _ => exact absurd rfl h

/-- A one-byte access is inside the device that covers it. -/
theorem MemoryDevice.two_le_of_outside {d : MemoryDevice} {a : Word} {n : Nat} (hn : validWidth n = true)
    (hcov : d.covers a = true) (hout : d.outside a n = true) : 2 ≤ n := by
  by_contra hlt
  obtain rfl : n = 1 := by obtain rfl | rfl | rfl := validWidth_iff.mp hn <;> omega
  have hin : d.outside a 1 = false := MemoryDevice.outside_eq_false_iff.mpr (MemoryDevice.covers_iff.mp hcov)
  rw [hin] at hout
  cases hout

/-- An absent register is one of x16 to x31 of a machine with 16 (R12). -/
theorem State.embedded_of_not_hasReg {s : State} {r : RegIdx} (h : s.hasReg r = false) :
    r ≠ 0#5 ∧ s.nregs = .embedded ∧ 16 ≤ r.toNat := by
  cases hn : s.nregs with
  | full => simp [State.hasReg_full hn] at h
  | embedded => simpa [State.hasReg, hn, RegCount.count] using h

/-! ### One instruction -/

section
variable {i : Instr} {s t : State}

/-- A raise that leaves the status as it was changed nothing. -/
theorem State.raise_eq_self {e : FatalError} (h : (s.raise e).status = s.status) : s.raise e = s := by
  rw [State.raise, ← State.raise_status s e, h]

/-- An instruction that is no store leaves the bus and the output events. -/
theorem exec_bus_out_of_no_store (h : exec i s = .next t) (hw : i.storeWidth = 0) : t.bus = s.bus ∧ t.out = s.out := by
  cases exec_effect h with
  | store _ _ _ hne => exact absurd hw hne
  | write | jump | jumpMisaligned => simp
  | noReg | nothing | branch | branchMisaligned | loadError | storeError | service => exact ⟨rfl, rfl⟩

theorem exec_svc_of_no_service (h : exec i s = .next t) (hv : i.isService = false) : t.svc = s.svc := by
  cases exec_effect h with
  | service _ hs => cases hs.symm.trans hv
  | store _ _ _ _ hok => rw [memWrite_frame hok]
  | write | jump | jumpMisaligned => simp
  | noReg | nothing | branch | branchMisaligned | loadError | storeError => rfl

theorem State.byteAt_congr (h : t.bus = s.bus) (x : Word) : t.byteAt x = s.byteAt x := by
  rw [State.byteAt, State.byteAt, memRead_congr h]

theorem State.deviceByte_congr (h : t.bus = s.bus) (k x : Nat) : t.deviceByte k x = s.deviceByte k x := by
  rw [State.deviceByte, State.deviceByte, h]

/-! ### Errors -/

theorem emod_ne_zero_of_misaligned {a : Word} (h : aligned4 a = false) : a.toNat % 4 ≠ 0 := by
  intro h0
  rw [(aligned4_iff_toNat_emod a).mpr h0] at h
  cases h

/-- The two errors of an access (R45, R46, R36), as R191 lists them. -/
theorem canRaise_of_access_error {a : Word} {e : FatalError} {n : Nat} (hn : validWidth n = true)
    (hwidth : n = i.loadWidth ∨ n = i.storeWidth)
    (h : (e = .unmappedAddress a ∧ ∀ p ∈ s.bus, p.covers a = false) ∨
      (e = .outOfRange a ∧ ∃ d, locate s.bus a = some (.memory d) ∧ d.outside a n = true)) : CanRaise i s e := by
  obtain ⟨rfl, hnone⟩ | ⟨rfl, d, hloc, hout⟩ := h
  · have hpos : n ≠ 0 := by obtain rfl | rfl | rfl := validWidth_iff.mp hn <;> decide
    exact ⟨by omega, hnone⟩
  · obtain ⟨hmem, hcov⟩ := locate_mem hloc
    have htwo : 2 ≤ n := MemoryDevice.two_le_of_outside hn hcov hout
    exact ⟨by omega, _, hmem, hcov⟩

/-- The halt tests change the status alone, which is no parameter. -/
theorem haltTests_fixedParams (i : Instr) (s : State) : (haltTests i s).fixedParams = s.fixedParams := by
  rw [haltTests_frame]
  rfl

end

/-! ### Frames -/

/-- Settles O39: only a write, or the link of a jump, reaches the register file, and it goes to the instruction's rd. -/
theorem onlyTheDestinationRegisterChanges : Obligations.OnlyTheDestinationRegisterChanges := by
  intro i s t h
  cases exec_effect h with
  | write rd _ hd | jump rd _ _ hd | jumpMisaligned rd _ _ hd =>
    refine ⟨fun r hr => ?_, fun hnone => ?_⟩
    · have hne : r ≠ rd := fun heq => hr (heq ▸ hd)
      simp [State.reg_setReg_other s _ hne]
    · cases hd.symm.trans hnone
  | store _ _ _ _ hok => rw [memWrite_frame hok]; exact ⟨fun _ _ => rfl, fun _ => rfl⟩
  | noReg | nothing | branch | branchMisaligned | loadError | storeError | service => exact ⟨fun _ _ => rfl, fun _ => rfl⟩

/-- Settles O40: a write to x0 is discarded, so what is left of each effect is a raise or the pc of a jump. -/
theorem writesToRegisterZeroAreDiscarded : Obligations.WritesToRegisterZeroAreDiscarded := by
  intro i s t hdest h hstatus
  cases exec_effect h with
  | noReg | branchMisaligned | loadError | storeError =>
    rw [State.raise_eq_self hstatus]
    exact ⟨rfl, fun _ => rfl⟩
  | write rd _ hd =>
    cases hdest.symm.trans hd
    rw [State.setReg_zero]
    exact ⟨rfl, fun _ => rfl⟩
  | jump rd _ hj hd =>
    cases hdest.symm.trans hd
    rw [State.setReg_zero]
    exact ⟨rfl, fun hnot => absurd (hj.symm.trans hnot) (by decide)⟩
  | jumpMisaligned rd _ hj hd =>
    cases hdest.symm.trans hd
    rw [State.setReg_zero] at hstatus ⊢
    rw [State.raise_eq_self hstatus]
    exact ⟨rfl, fun _ => rfl⟩
  | nothing hd | branch _ _ hd | store _ _ _ _ _ hd | service _ _ hd => cases hdest.symm.trans hd

/-- Settles O41: bytes are read from the bus alone, which only a store changes. -/
theorem onlyStoresChangeMemoryAndOutput : Obligations.OnlyStoresChangeMemoryAndOutput := by
  intro i s t h
  refine ⟨fun hw => ?_, exec_svc_of_no_service h⟩
  obtain ⟨hbus, hout⟩ := exec_bus_out_of_no_store h hw
  exact ⟨hbus, hout, State.byteAt_congr hbus, State.deviceByte_congr hbus⟩

/-- Settles O42: the effects that set the pc belong to branches and jumps. -/
theorem onlyControlTransfersWriteThePc : Obligations.OnlyControlTransfersWriteThePc := by
  intro i s t h hnb hnj
  cases exec_effect h with
  | branch _ hb => cases hb.symm.trans hnb
  | jump _ _ hj => cases hj.symm.trans hnj
  | store _ _ _ _ hok => rw [memWrite_frame hok]
  | write | jumpMisaligned => simp
  | noReg | nothing | branchMisaligned | loadError | storeError | service => rfl

/-! ### The errors -/

/-- Settles O43, effect by effect. -/
theorem onlyListedErrorsAreRaised : Obligations.OnlyListedErrorsAreRaised := by
  intro i s t e hrun h he
  cases exec_effect h with
  | noReg r hnamed habsent =>
    cases he
    obtain ⟨-, hregs, hhigh⟩ := State.embedded_of_not_hasReg habsent
    exact ⟨hnamed, hregs, hhigh⟩
  | branchMisaligned target hb ha =>
    cases he
    exact ⟨.inr hb, emod_ne_zero_of_misaligned ha⟩
  | jumpMisaligned rd target hj hd hr ha =>
    cases he
    exact ⟨.inl hj, emod_ne_zero_of_misaligned ha⟩
  | loadError a x hw herr =>
    cases he
    exact canRaise_of_access_error (validWidth_loadWidth hw) (.inl rfl) (memRead_error (validWidth_loadWidth hw) herr)
  | storeError a v x hw herr =>
    cases he
    exact canRaise_of_access_error (validWidth_storeWidth hw) (.inr rfl) (memWrite_error (validWidth_storeWidth hw) herr)
  | store _ _ _ _ hok =>
    rw [memWrite_frame hok] at he
    cases hrun.symm.trans he
  | write | jump =>
    simp only [State.setPc_status, State.setReg_status] at he
    cases hrun.symm.trans he
  | nothing | branch | service => cases hrun.symm.trans he

/-- Settles O44: an effect that raises is a raise from the state before, or from the state with the link written. -/
theorem faultingInstructionsChangeNothingElse : Obligations.FaultingInstructionsChangeNothingElse := by
  intro i s t e hrun h he
  cases exec_effect h with
  | noReg | branchMisaligned | loadError | storeError =>
    cases he
    exact .inl rfl
  | jumpMisaligned rd target hj hd =>
    cases he
    exact .inr ⟨hj, ⟨target, rfl⟩, rd, hd, rfl⟩
  | store _ _ _ _ hok =>
    rw [memWrite_frame hok] at he
    cases hrun.symm.trans he
  | write | jump =>
    simp only [State.setPc_status, State.setReg_status] at he
    cases hrun.symm.trans he
  | nothing | branch | service => cases hrun.symm.trans he

/-! ### The parameters -/

/-- Settles O45: what a step does beside executing an instruction changes the pc and the status alone. -/
theorem parametersNeverChange : Obligations.ParametersNeverChange := by
  intro s t h
  obtain ⟨-, ⟨_, -, rfl⟩ | ⟨-, rfl⟩ | ⟨_, _, -, -, -, rfl⟩ | ⟨_, i, u, -, -, -, hexec, rfl⟩⟩ := step_next_cases h
  · rfl
  · rfl
  · rfl
  · exact (haltTests_fixedParams i u).trans ((exec_fixedParams hexec).trans rfl)

/-! ### Other widths -/

section
variable {n : Nat}

theorem Peripheral.load_of_not_validWidth (h : validWidth n = false) (p : Peripheral) (a : Word) :
    p.load a n = .error (.invalidWidth (8 * n)) := by
  cases p with
  | memory d => exact if_pos h
  | output port => exact if_pos h

theorem Peripheral.store_of_not_validWidth (h : validWidth n = false) (p : Peripheral) (a v : Word) :
    p.store a n v = .error (.invalidWidth (8 * n)) := by
  cases p with
  | memory d => rw [Peripheral.store, MemoryDevice.store, if_pos h]
  | output port => rw [Peripheral.store, outputStore, if_pos h]

end

/-- Settles O8: a peripheral tests the width first, and InvalidWidth is not among the errors that R191 lists for an execution. -/
theorem unsupportedWidthIsUnreachable : Obligations.UnsupportedWidthIsUnreachable := by
  refine ⟨fun p a v n h1 h2 h4 => ?peripheral, fun i s t k hrun h hstatus => onlyListedErrorsAreRaised i s t _ hrun h hstatus⟩
  case peripheral =>
    have hw : validWidth n = false := by simp [validWidth, h1, h2, h4]
    exact ⟨Peripheral.load_of_not_validWidth hw p a, Peripheral.store_of_not_validWidth hw p a v⟩

end Sys2Proof.Machine
end

section
/-! PROOFS. The machine's invariant, `State.inv`: what each update of the state keeps of it, that every instruction and every step keeps
it, and that the reset state meets it. -/

namespace Sys2Proof.Machine

/-! ### The invariant in two parts -/

/-- 10_state.md R11, in terms of register reads. -/
theorem State.absentRegsZero_iff {s : State} :
    s.absentRegsZero = true ↔ ∀ r : RegIdx, s.hasReg r = false → s.reg r = 0#32 := by
  simp only [State.absentRegsZero, List.all_eq_true, List.mem_range, Bool.or_eq_true, decide_eq_true_eq]
  constructor
  · intro h r habsent
    obtain ⟨h0, hregs, hhigh⟩ := State.embedded_of_not_hasReg habsent
    have hlt := r.isLt
    have hcount : s.nregs.count = 16 := by rw [hregs]; rfl
    rw [State.reg_of_ne_zero s h0]
    obtain hpresent | hzero := h (r.toNat - 1) (by omega)
    · omega
    · exact hzero
  · intro h k hk
    by_cases hlt : k + 1 < s.nregs.count
    · exact .inl hlt
    · have hr : (BitVec.ofNat 5 (k + 1)).toNat = k + 1 := by rw [BitVec.toNat_ofNat, Nat.mod_eq_of_lt (by omega)]
      have h0 : BitVec.ofNat 5 (k + 1) ≠ 0#5 := fun heq => by rw [heq] at hr; simp at hr
      have hread := h _ (State.not_hasReg_of_le h0 (by omega))
      rw [State.reg_of_ne_zero s h0, hr] at hread
      exact .inr hread

/-- The clauses of the invariant that do not speak of the status. -/
structure State.CoreInv (s : State) : Prop where
  pc : aligned4 s.pc = true
  bus : s.busWf = true
  regs : ∀ r : RegIdx, s.hasReg r = false → s.reg r = 0#32
  out : ∀ e ∈ s.out, e.wf = true
  svc : ∀ e ∈ s.svc, aligned4 e.addr = true

theorem State.inv_iff {s : State} : s.inv = true ↔ s.CoreInv ∧ s.statusOk = true := by
  simp only [State.inv, Bool.and_eq_true, List.all_eq_true, State.absentRegsZero_iff]
  constructor
  · rintro ⟨⟨⟨⟨⟨hpc, hbus⟩, hregs⟩, hout⟩, hsvc⟩, hstatus⟩
    exact ⟨⟨hpc, hbus, hregs, hout, hsvc⟩, hstatus⟩
  · rintro ⟨⟨hpc, hbus, hregs, hout, hsvc⟩, hstatus⟩
    exact ⟨⟨⟨⟨⟨hpc, hbus⟩, hregs⟩, hout⟩, hsvc⟩, hstatus⟩

/-! ### What each update keeps -/

theorem aligned4_sub_four {a : Word} (h : aligned4 a = true) : aligned4 (a - 4#32) = true := by
  rw [aligned4_iff_toNat_emod] at h ⊢
  bv_omega

theorem OutEvent.wf_leBytes {n : Nat} (h : validWidth n = true) (port v : Word) :
    OutEvent.wf { port := port, n := n, bytes := leBytes n v } = true := by
  simp [OutEvent.wf, h]

section
variable {s t : State} (h : s.CoreInv)
include h

theorem State.CoreInv.withStatus (x : Status) : ({ s with status := x } : State).CoreInv :=
  ⟨h.pc, h.bus, h.regs, h.out, h.svc⟩

theorem State.CoreInv.setPc {a : Word} (ha : aligned4 a = true) : (s.setPc a).CoreInv :=
  ⟨ha, h.bus, h.regs, h.out, h.svc⟩

theorem State.CoreInv.setReg {rd : RegIdx} (hrd : s.hasReg rd = true) (v : Word) : (s.setReg rd v).CoreInv where
  pc := by simpa using h.pc
  bus := by simpa [State.busWf] using h.bus
  regs := by
    intro r hr
    rw [State.setReg_hasReg] at hr
    have hne : r ≠ rd := fun heq => by rw [heq, hrd] at hr; cases hr
    rw [State.reg_setReg_other s v hne, h.regs r hr]
  out := by simpa using h.out
  svc := by simpa using h.svc

theorem State.CoreInv.pushSvc (k : SvcKind) : (s.pushSvc k).CoreInv where
  pc := h.pc
  bus := h.bus
  regs := h.regs
  out := h.out
  svc := by
    intro e he
    rw [State.pushSvc_svc, List.mem_append, List.mem_singleton] at he
    obtain hold | rfl := he
    · exact h.svc e hold
    · exact aligned4_sub_four h.pc

theorem State.CoreInv.memWrite {a v : Word} {n : Nat} (hw : memWrite s a n v = .ok t) : t.CoreInv := by
  have hbus : t.busWf = true := memWrite_busWf h.bus hw
  obtain ⟨hn, ⟨pre, d, post, -, -, -, -, rfl⟩ | ⟨pre, post, -, -, rfl⟩⟩ := memWrite_cases hw
  · exact ⟨h.pc, hbus, h.regs, h.out, h.svc⟩
  · refine ⟨h.pc, hbus, h.regs, fun e he => ?_, h.svc⟩
    obtain hold | rfl := List.mem_append.mp he |>.imp_right List.mem_singleton.mp
    · exact h.out e hold
    · exact OutEvent.wf_leBytes hn a v

/-- Every instruction keeps it, effect by effect. -/
theorem State.CoreInv.exec {i : Instr} (hexec : exec i s = .next t) : t.CoreInv := by
  cases exec_effect hexec with
  | noReg | branchMisaligned | loadError | storeError => exact h.withStatus _
  | nothing => exact h
  | write rd v hd hr => exact h.setReg hr v
  | branch target _ _ _ ha => exact h.setPc ha
  | jump rd target _ _ hr _ ha => exact (h.setReg hr _).setPc ha
  | jumpMisaligned rd target _ _ hr => exact (h.setReg hr _).withStatus _
  | store _ _ _ _ hok => exact h.memWrite hok
  | service k => exact h.pushSvc k

end

/-! ### The status of a stopped machine -/

section
variable {s t : State}

theorem State.statusOk_of_running (h : s.status = .running) : s.statusOk = true := by
  rw [State.statusOk, h]

/-- An instruction raises or leaves the status; it halts nothing. -/
theorem exec_status_cases {i : Instr} (hrun : s.status = .running) (h : exec i s = .next t) :
    t.status = .running ∨ ∃ e, t.status = .faulted e := by
  cases exec_effect h with
  | noReg | branchMisaligned | loadError | storeError | jumpMisaligned => exact .inr ⟨_, rfl⟩
  | store _ _ _ _ hok => rw [memWrite_frame hok]; exact .inl hrun
  | write | jump => exact .inl (by simpa using hrun)
  | nothing | branch | service => exact .inl hrun

/-- What R191 lists agrees with what the status says of the rest. -/
theorem State.statusOk_of_canRaise {i : Instr} {e : FatalError} (h : CanRaise i s e) (hstatus : t.status = .faulted e)
    (hregs : t.nregs = s.nregs) : t.statusOk = true := by
  rw [State.statusOk, hstatus]
  cases e with
  | unmappedAddress | outOfRange => rfl
  | invalidRegister r =>
    obtain ⟨-, hembedded, hhigh⟩ := h
    have h0 : r ≠ 0#5 := by rintro rfl; simp at hhigh
    simp [hregs, hembedded, RegCount.count, hhigh, h0]
  | misalignedTarget target =>
    obtain ⟨-, hne⟩ := h
    simp [aligned4, hne]
  | invalidOpcode | invalidFunct | invalidWidth => exact h.elim

theorem State.statusOk_exec {i : Instr} (hrun : s.status = .running) (h : exec i s = .next t) : t.statusOk = true := by
  obtain hrun' | ⟨e, he⟩ := exec_status_cases hrun h
  · exact State.statusOk_of_running hrun'
  · exact State.statusOk_of_canRaise (onlyListedErrorsAreRaised i s t e hrun h he) he (exec_nregs h)

/-- A service instruction leaves an event behind. -/
theorem exec_svc_ne_nil {i : Instr} (hi : i = .ecall ∨ i = .ebreak) (h : exec i s = .next t) : t.svc ≠ [] := by
  obtain rfl | rfl := hi
  · have hpush : exec .ecall s = .next (s.pushSvc .ecall) := rfl
    cases hpush.symm.trans h
    simp
  · have hpush : exec .ebreak s = .next (s.pushSvc .ebreak) := rfl
    cases hpush.symm.trans h
    simp

/-- The halt tests' two reasons agree with the rest of the state. -/
theorem State.statusOk_haltTests {i : Instr} (hrun : s.status = .running) (h : exec i s = .next t) :
    (haltTests i t).statusOk = true := by
  have hok : t.statusOk = true := State.statusOk_exec hrun h
  by_cases hrun' : t.status = .running
  · rw [haltTests_running hrun']
    split
    next hservice =>
      obtain ⟨hhalt, hi⟩ := serviceHalts_iff.mp hservice
      simp [State.statusOk, hhalt, exec_svc_ne_nil hi h]
    next =>
      split
      next hpc => simp [State.statusOk, hpc]
      next => exact hok
  · rwa [haltTests_of_not_running hrun']

theorem State.statusOk_raise_fatalOf (s : State) (e : DecodeError) : (s.raise (fatalOf e)).statusOk = true := by
  cases e with
  | invalidOpcode | invalidFunct => rfl
  | invalidWidth f3 => exact decide_eq_true f3.isLt

theorem State.statusOk_raise_fetch_error {e : FatalError} (h : fetch s = .error e) : (s.raise e).statusOk = true := by
  obtain ⟨rfl, -⟩ | ⟨rfl, -⟩ := memRead_error (by decide) h <;> rfl

end

/-! ### The obligations -/

theorem step_keeps_inv {s t : State} (hs : s.inv = true) (h : step s = .next t) : t.inv = true := by
  obtain ⟨hcore, -⟩ := State.inv_iff.mp hs
  have hadv : (s.setPc (s.pc + 4#32)).CoreInv := hcore.setPc (aligned4_add_four hcore.pc)
  rw [State.inv_iff]
  obtain ⟨hrun, ⟨e, hf, rfl⟩ | ⟨-, rfl⟩ | ⟨w, e, -, -, -, rfl⟩ | ⟨w, i, u, -, -, -, hexec, rfl⟩⟩ := step_next_cases h
  · exact ⟨hcore.withStatus _, State.statusOk_raise_fetch_error hf⟩
  · exact ⟨hcore.withStatus _, rfl⟩
  · exact ⟨hadv.withStatus _, State.statusOk_raise_fatalOf _ e⟩
  · have hrun' : (s.setPc (s.pc + 4#32)).status = .running := hrun
    refine ⟨?_, State.statusOk_haltTests hrun' hexec⟩
    rw [haltTests_frame]
    exact (hadv.exec hexec).withStatus _

/-- Settles O46: each update keeps the clauses on the storage (`State.CoreInv`), and the errors of R191 and the halt tests set a status
that agrees with them. -/
theorem everyStepKeepsTheInvariant : Obligations.EveryStepKeepsTheInvariant :=
  fun _ _ hs h => step_keeps_inv hs h

/-- Settles O47: the reset state is closed, and the invariant evaluates on it. -/
theorem resetMeetsTheInvariant : Obligations.ResetMeetsTheInvariant := by
  unfold Obligations.ResetMeetsTheInvariant
  decide

end Sys2Proof.Machine
end

section
/-! PROOFS. Maps of the state under which the machine runs alike: what the map must keep, and that then every instruction and every step
keeps it. Two uses: earlier events put before a machine's own (spec/10_state.md R21), and 32 registers in the place of 16 (R12, R13). -/

namespace Sys2Proof.Machine

/-! ### What a map must keep -/

/-- `φ` keeps what execution reads and commutes with what it writes. Where `φ` gives the machine a register that it lacked, the error that
the lack raises is `excused`: from there on nothing is claimed. -/
structure Simulates (φ : State → State) (excused : FatalError → Prop) : Prop where
  pc (s : State) : (φ s).pc = s.pc
  status (s : State) : (φ s).status = s.status
  haltOnService (s : State) : (φ s).haltOnService = s.haltOnService
  reg (s : State) (r : RegIdx) : (φ s).reg r = s.reg r
  memRead (s : State) (a : Word) (n : Nat) : memRead (φ s) a n = memRead s a n
  memWrite (s : State) (a : Word) (n : Nat) (v : Word) : memWrite (φ s) a n v = (memWrite s a n v).map φ
  setPc (s : State) (a : Word) : φ (s.setPc a) = (φ s).setPc a
  setReg (s : State) (r : RegIdx) (v : Word) : φ (s.setReg r v) = (φ s).setReg r v
  raise (s : State) (e : FatalError) : φ (s.raise e) = (φ s).raise e
  halt (s : State) (x : HaltReason) : φ (s.halt x) = (φ s).halt x
  pushSvc (s : State) (k : SvcKind) : φ (s.pushSvc k) = (φ s).pushSvc k
  present {s : State} {r : RegIdx} : s.hasReg r = true → (φ s).hasReg r = true
  absent {s : State} {r : RegIdx} : s.hasReg r = false → (φ s).hasReg r = false ∨ excused (.invalidRegister r)

/-- `r'` answers the image of what `r` answers, unless `r` raises an excused error. -/
def MapsTo (φ : State → State) (excused : FatalError → Prop) (r r' : Result) : Prop :=
  ∀ t, r = .next t → (∀ e, t.status = .faulted e → ¬ excused e) → r' = .next (φ t)

section
variable {φ : State → State} {excused : FatalError → Prop}

theorem mapsTo_next (t : State) : MapsTo φ excused (.next t) (.next (φ t)) := by
  rintro _ ⟨⟩ _
  rfl

variable (hφ : Simulates φ excused) {s : State}
include hφ

/-! ### The sequencing operations -/

theorem mapsTo_raise (e : FatalError) : MapsTo φ excused (.next (s.raise e)) (.next ((φ s).raise e)) := by
  rw [← hφ.raise]
  exact mapsTo_next _

theorem mapsTo_noReg {r : RegIdx} (habsent : s.hasReg r = false) {r' : Result}
    (h : (φ s).hasReg r = false → r' = .next ((φ s).raise (.invalidRegister r))) :
    MapsTo φ excused (.next (s.raise (.invalidRegister r))) r' := by
  obtain habsent' | hexcused := hφ.absent habsent
  · rw [h habsent']
    exact mapsTo_raise hφ _
  · rintro _ ⟨⟩ hnot
    exact absurd hexcused (hnot _ rfl)

theorem mapsTo_withReg {r : RegIdx} {k k' : Word → Result} (hk : MapsTo φ excused (k (s.reg r)) (k' (s.reg r))) :
    MapsTo φ excused (withReg s r k) (withReg (φ s) r k') := by
  cases hr : s.hasReg r with
  | true => rwa [withReg_of_hasReg hr, withReg_of_hasReg (hφ.present hr), hφ.reg]
  | false =>
    rw [withReg_of_not_hasReg hr]
    exact mapsTo_noReg hφ hr fun hr' => withReg_of_not_hasReg hr' _

theorem mapsTo_thenWrite {r : RegIdx} {v : Word} {k k' : State → Result}
    (hk : MapsTo φ excused (k (s.setReg r v)) (k' (φ (s.setReg r v)))) :
    MapsTo φ excused (thenWrite s r v k) (thenWrite (φ s) r v k') := by
  cases hr : s.hasReg r with
  | true => rwa [thenWrite_of_hasReg hr, thenWrite_of_hasReg (hφ.present hr), ← hφ.setReg]
  | false =>
    rw [thenWrite_of_not_hasReg hr]
    exact mapsTo_noReg hφ hr fun hr' => thenWrite_of_not_hasReg hr' _ _

theorem mapsTo_writeBack (r : RegIdx) (v : Word) : MapsTo φ excused (writeBack s r v) (writeBack (φ s) r v) :=
  mapsTo_thenWrite hφ (mapsTo_next _)

theorem mapsTo_withLoad {a : Word} {n : Nat} {k k' : Word → Result} (hk : ∀ v, MapsTo φ excused (k v) (k' v)) :
    MapsTo φ excused (withLoad s a n k) (withLoad (φ s) a n k') := by
  have hread := hφ.memRead s a n
  cases hm : memRead s a n with
  | ok v =>
    rw [withLoad_of_ok hm, withLoad_of_ok (hread.trans hm)]
    exact hk v
  | error e =>
    rw [withLoad_of_error hm, withLoad_of_error (hread.trans hm)]
    exact mapsTo_raise hφ e

theorem mapsTo_storeLast (a : Word) (n : Nat) (v : Word) :
    MapsTo φ excused (storeLast s a n v) (storeLast (φ s) a n v) := by
  have hwrite := hφ.memWrite s a n v
  cases hm : memWrite s a n v with
  | ok t =>
    rw [hm] at hwrite
    rw [storeLast_of_ok hm, storeLast_of_ok hwrite]
    exact mapsTo_next t
  | error e =>
    rw [hm] at hwrite
    rw [storeLast_of_error hm, storeLast_of_error hwrite]
    exact mapsTo_raise hφ e

theorem mapsTo_jumpTo (target : Word) : MapsTo φ excused (jumpTo s target) (jumpTo (φ s) target) := by
  cases ha : aligned4 target with
  | true =>
    rw [jumpTo_of_aligned ha, jumpTo_of_aligned ha, ← hφ.setPc]
    exact mapsTo_next _
  | false =>
    rw [jumpTo_of_misaligned ha, jumpTo_of_misaligned ha]
    exact mapsTo_raise hφ _

/-! ### The families -/

theorem mapsTo_linkJump (rd : RegIdx) (link target : Word) :
    MapsTo φ excused (thenWrite s rd link fun s' => jumpTo s' target) (thenWrite (φ s) rd link fun s' => jumpTo s' target) :=
  mapsTo_thenWrite hφ (mapsTo_jumpTo hφ target)

theorem mapsTo_branchOp (cond : Word → Word → Bool) (rs1 rs2 : RegIdx) (off : BitVec 13) :
    MapsTo φ excused (branchOp cond rs1 rs2 off s) (branchOp cond rs1 rs2 off (φ s)) := by
  refine mapsTo_withReg hφ (mapsTo_withReg hφ ?_)
  have htarget : branchTarget (φ s) off = branchTarget s off := by rw [branchTarget, State.instrAddr, hφ.pc]; rfl
  rw [htarget]
  split
  next => exact mapsTo_jumpTo hφ _
  next => exact mapsTo_next s

theorem mapsTo_loadOp (n : Nat) (ext : Word → Word) (rd rs1 : RegIdx) (imm : BitVec 12) :
    MapsTo φ excused (loadOp n ext rd rs1 imm s) (loadOp n ext rd rs1 imm (φ s)) :=
  mapsTo_withReg hφ (mapsTo_withLoad hφ fun v => mapsTo_writeBack hφ rd (ext v))

theorem mapsTo_storeOp (n : Nat) (rs1 rs2 : RegIdx) (imm : BitVec 12) :
    MapsTo φ excused (storeOp n rs1 rs2 imm s) (storeOp n rs1 rs2 imm (φ s)) :=
  mapsTo_withReg hφ (mapsTo_withReg hφ (mapsTo_storeLast hφ _ n _))

theorem mapsTo_immOp (f : Word → Word) (rd rs1 : RegIdx) : MapsTo φ excused (immOp f rd rs1 s) (immOp f rd rs1 (φ s)) :=
  mapsTo_withReg hφ (mapsTo_writeBack hφ rd _)

theorem mapsTo_regOp (f : Word → Word → Word) (rd rs1 rs2 : RegIdx) :
    MapsTo φ excused (regOp f rd rs1 rs2 s) (regOp f rd rs1 rs2 (φ s)) :=
  mapsTo_withReg hφ (mapsTo_withReg hφ (mapsTo_writeBack hφ rd _))

theorem mapsTo_pushSvc (k : SvcKind) : MapsTo φ excused (.next (s.pushSvc k)) (.next ((φ s).pushSvc k)) := by
  rw [← hφ.pushSvc]
  exact mapsTo_next _

theorem mapsTo_exec (i : Instr) : MapsTo φ excused (exec i s) (exec i (φ s)) := by
  have haddr : (φ s).instrAddr = s.instrAddr := by rw [State.instrAddr, hφ.pc]; rfl
  have hlink : linkAddr (φ s) = linkAddr s := by rw [linkAddr, haddr]; rfl
  cases i with
  | lui => exact mapsTo_writeBack hφ _ _
  | auipc rd imm =>
    rw [exec, exec, execAuipc, execAuipc, haddr]
    exact mapsTo_writeBack hφ rd _
  | jal rd off =>
    have htarget : jalTarget (φ s) off = jalTarget s off := by rw [jalTarget, haddr]; rfl
    rw [exec, exec, execJal, execJal, hlink, htarget]
    exact mapsTo_linkJump hφ rd _ _
  | jalr rd rs1 imm funct3 =>
    rw [exec, exec, execJalr, execJalr, hlink]
    exact mapsTo_withReg hφ (mapsTo_linkJump hφ rd _ _)
  | beq | bne | blt | bge | bltu | bgeu => exact mapsTo_branchOp hφ _ _ _ _
  | lb | lh | lw | lbu | lhu | lwu => exact mapsTo_loadOp hφ _ _ _ _ _
  | sb | sh | sw => exact mapsTo_storeOp hφ _ _ _ _
  | addi | slti | sltiu | xori | ori | andi | slli | srli | srai => exact mapsTo_immOp hφ _ _ _
  | add | sub | sll | slt | sltu | xor | srl | sra | or | and => exact mapsTo_regOp hφ _ _ _ _
  | fence => exact mapsTo_next s
  | ecall => exact mapsTo_pushSvc hφ .ecall
  | ebreak => exact mapsTo_pushSvc hφ .ebreak

/-! ### The step -/

theorem haltTests_map (i : Instr) (t : State) : haltTests i (φ t) = φ (haltTests i t) := by
  by_cases hrun : t.status = .running
  · have hservice : serviceHalts i (φ t) = serviceHalts i t := by rw [serviceHalts, hφ.haltOnService]; rfl
    rw [haltTests_running hrun, haltTests_running ((hφ.status t).trans hrun), hservice, hφ.pc]
    split
    next => exact (hφ.halt t _).symm
    next =>
      split
      next => exact (hφ.halt t _).symm
      next => rfl
  · rw [haltTests_of_not_running hrun, haltTests_of_not_running fun h => hrun ((hφ.status t).symm.trans h)]

/-- By what the step did; an executed instruction's error is the step's. -/
theorem mapsTo_step : MapsTo φ excused (step s) (step (φ s)) := by
  intro t h hnot
  have hfetch : fetch (φ s) = fetch s := by rw [fetch, hφ.pc, hφ.memRead]; rfl
  have hadv : (φ s).setPc ((φ s).pc + 4#32) = φ (s.setPc (s.pc + 4#32)) := by rw [hφ.setPc, hφ.pc]
  obtain ⟨hrun, hcases⟩ := step_next_cases h
  have hrun' : (φ s).status = .running := (hφ.status s).trans hrun
  obtain ⟨e, hf, rfl⟩ | ⟨hf, rfl⟩ | ⟨w, e, hf, h0, hd, rfl⟩ | ⟨w, i, u, hf, h0, hd, hexec, rfl⟩ := hcases
  · rw [step_of_fetch_error hrun' (hfetch.trans hf), hφ.raise]
  · rw [step_of_zero_word hrun' (hfetch.trans hf), hφ.halt]
  · rw [step_of_decode_error hrun' (hfetch.trans hf) h0 hd, hadv, hφ.raise]
  · have hnot' : ∀ e, u.status = .faulted e → ¬ excused e := fun e he =>
      hnot e (by rw [haltTests_faulted he]; exact he)
    have hexec' : exec i (φ (s.setPc (s.pc + 4#32))) = .next (φ u) := mapsTo_exec hφ i u hexec hnot'
    rw [← hadv] at hexec'
    rw [step_of_exec hrun' (hfetch.trans hf) h0 hd hexec', haltTests_map hφ]

end

/-! ### The events before a machine's own -/

/-- The same machine with earlier events before its own. -/
def State.prependEvents (out : List OutEvent) (svc : List SvcEvent) (s : State) : State :=
  { s with out := out ++ s.out, svc := svc ++ s.svc }

/-- Execution never reads the two sequences and only appends to them, so no error is excused. -/
theorem simulates_prependEvents (out : List OutEvent) (svc : List SvcEvent) :
    Simulates (State.prependEvents out svc) fun _ => False where
  pc _ := rfl
  status _ := rfl
  haltOnService _ := rfl
  reg _ _ := rfl
  memRead _ _ _ := rfl
  memWrite s a n v := by
    have hbus : (s.prependEvents out svc).bus = s.bus := rfl
    rw [memWrite, memWrite, hbus]
    cases locate s.bus a with
    | none => rfl
    | some p =>
      cases hstore : p.store a n v with
      | error e => simp only [hstore]; rfl
      | ok r => simp [hstore, Except.map, State.prependEvents]
  setPc _ _ := rfl
  setReg s r v := by
    unfold State.setReg
    split <;> rfl
  raise _ _ := rfl
  halt _ _ := rfl
  pushSvc s k := by simp [State.prependEvents, State.pushSvc, State.instrAddr]
  present h := h
  absent h := .inl h

/-- A write to the bus emits at most one output event. -/
theorem memWrite_events_length {s t : State} {a v : Word} {n : Nat} (h : memWrite s a n v = .ok t) :
    t.out.length + t.svc.length ≤ s.out.length + s.svc.length + 1 := by
  obtain ⟨-, ⟨pre, d, post, -, -, -, -, rfl⟩ | ⟨pre, post, -, -, rfl⟩⟩ := memWrite_cases h
  · simp
  · simp only [List.length_append, List.length_singleton]
    omega

theorem exec_events_length {i : Instr} {s t : State} (h : exec i s = .next t) :
    t.out.length + t.svc.length ≤ s.out.length + s.svc.length + 1 := by
  cases exec_effect h with
  | store _ _ _ _ hok => exact memWrite_events_length hok
  | service => simp only [State.pushSvc_out, State.pushSvc_svc, List.length_append, List.length_singleton]; omega
  | write | jump | jumpMisaligned => simp
  | noReg | nothing | branch | branchMisaligned | loadError | storeError => exact Nat.le_succ _

theorem step_events_length {s t : State} (h : step s = .next t) :
    t.out.length + t.svc.length ≤ s.out.length + s.svc.length + 1 := by
  obtain ⟨-, ⟨_, -, rfl⟩ | ⟨-, rfl⟩ | ⟨_, _, -, -, -, rfl⟩ | ⟨_, i, u, -, -, -, hexec, rfl⟩⟩ := step_next_cases h
  · exact Nat.le_succ _
  · exact Nat.le_succ _
  · exact Nat.le_succ _
  · have hlength := exec_events_length hexec
    rw [State.setPc_out, State.setPc_svc] at hlength
    rwa [haltTests_frame]

/-- Settles O48: the step of the machine with no events yet is the step of every machine that differs in its events alone, with those
events put before (`mapsTo_step`). -/
theorem eventSequencesAreAppendedAndNeverRead : Obligations.EventSequencesAreAppendedAndNeverRead := by
  intro s t h
  obtain ⟨hrun, -⟩ := step_next_cases h
  obtain ⟨t₀, ht₀⟩ := step_next (s := { s with out := [], svc := [] }) hrun
  have hany (out : List OutEvent) (svc : List SvcEvent) :
      step { s with out := out, svc := svc } = .next (t₀.prependEvents out svc) := by
    have hstep := mapsTo_step (simulates_prependEvents out svc) t₀ ht₀ fun _ _ => id
    simpa [State.prependEvents] using hstep
  cases h.symm.trans (hany s.out s.svc)
  have hlength := step_events_length ht₀
  exact ⟨t₀.out, t₀.svc, by simpa using hlength, rfl, rfl, hany⟩

/-! ### Thirty-two registers -/

/-- The same machine with 32 registers. -/
def State.withAllRegisters (s : State) : State := { s with nregs := .full }

/-- NREGS decides only which registers exist, and with 32 all do. -/
theorem simulates_withAllRegisters :
    Simulates State.withAllRegisters fun e => ∃ r, e = .invalidRegister r where
  pc _ := rfl
  status _ := rfl
  haltOnService _ := rfl
  reg _ _ := rfl
  memRead _ _ _ := rfl
  memWrite s a n v := by
    have hbus : s.withAllRegisters.bus = s.bus := rfl
    rw [memWrite, memWrite, hbus]
    cases locate s.bus a with
    | none => rfl
    | some p =>
      cases hstore : p.store a n v with
      | error e => simp only [hstore]; rfl
      | ok r => simp only [hstore]; rfl
  setPc _ _ := rfl
  setReg s r v := by
    unfold State.setReg
    split <;> rfl
  raise _ _ := rfl
  halt _ _ := rfl
  pushSvc _ _ := rfl
  present _ := State.hasReg_full rfl _
  absent _ := .inr ⟨_, rfl⟩

/-- Settles O49: the machine with 32 registers runs alike until the other raises InvalidRegister. -/
theorem sixteenRegistersRefineThirtyTwo : Obligations.SixteenRegistersRefineThirtyTwo := by
  intro s t _ h hnot
  refine mapsTo_step simulates_withAllRegisters t h ?_
  rintro e he ⟨r, rfl⟩
  exact hnot r he

end Sys2Proof.Machine
end

section
/-! PROOFS. The six loads, spec/43_loads.md: the bytes that an access inside a device reads, the value each load makes of them, and the
errors in order. -/

namespace Sys2Proof.Machine

/-! ### An access at the first covering device -/

section
variable {s : State} {a : Word} {n : Nat} {pre post : List Peripheral} {d : MemoryDevice}

theorem outside_of_inDevice (h : InDevice s a n pre d post) : d.outside a n = false := by
  obtain ⟨⟨-, -, hcov⟩, hend⟩ := h
  obtain ⟨hbase, -⟩ := MemoryDevice.covers_iff.mp hcov
  exact MemoryDevice.outside_eq_false_iff.mpr ⟨hbase, hend⟩

theorem memRead_of_inDevice (hn : validWidth n = true) (h : InDevice s a n pre d post) :
    memRead s a n = .ok (leWord (d.buf.readBytes a.toNat n)) :=
  (memRead_of_firstCovering h.1 n).trans (MemoryDevice.load_of_inside hn (outside_of_inDevice h))

theorem memRead_of_output (hn : validWidth n = true) {port : Word} (h : FirstCovering s a pre (.output port) post) :
    memRead s a n = .ok 0#32 :=
  (memRead_of_firstCovering h n).trans (outputLoad_of_validWidth hn)

theorem memRead_of_end_lt (hn : validWidth n = true) (h : FirstCovering s a pre (.memory d) post)
    (hend : d.base + d.size < a.toNat + n) : memRead s a n = .error (.outOfRange a) :=
  (memRead_of_firstCovering h n).trans (MemoryDevice.load_of_outside hn (MemoryDevice.outside_of_end_lt hend))

end

/-! ### The value of the bytes (00_scope.md R7) -/

theorem sextLow_setWidth {n : Nat} (v : BitVec n) (hn : n ≤ 32) : sextLow n (v.setWidth 32) = v.signExtend 32 := by
  rw [sextLow, BitVec.setWidth_setWidth_of_le v hn, BitVec.setWidth_eq]

theorem zextLow_setWidth {n : Nat} (v : BitVec n) (hn : n ≤ 32) : zextLow n (v.setWidth 32) = v.setWidth 32 := by
  rw [zextLow, BitVec.setWidth_setWidth_of_le v hn, BitVec.setWidth_eq]

theorem zextLow_word (v : Word) : zextLow 32 v = v := by
  rw [zextLow, BitVec.setWidth_eq, BitVec.setWidth_eq]

section
variable (m : Memory) (x : Nat)

theorem sextLow_readBytes_one : sextLow 8 (leWord (m.readBytes x 1)) = (m.read x).signExtend 32 :=
  (congrArg _ (leWord_one _)).trans (sextLow_setWidth _ (by decide))

theorem sextLow_readBytes_two :
    sextLow 16 (leWord (m.readBytes x 2)) = (m.read (x + 1) ++ m.read x : BitVec 16).signExtend 32 :=
  (congrArg _ (leWord_two _ _)).trans (sextLow_setWidth _ (by decide))

theorem zextLow_readBytes_one : zextLow 8 (leWord (m.readBytes x 1)) = (m.read x).setWidth 32 :=
  (congrArg _ (leWord_one _)).trans (zextLow_setWidth _ (by decide))

theorem zextLow_readBytes_two :
    zextLow 16 (leWord (m.readBytes x 2)) = (m.read (x + 1) ++ m.read x : BitVec 16).setWidth 32 :=
  (congrArg _ (leWord_two _ _)).trans (zextLow_setWidth _ (by decide))

theorem zextLow_readBytes_four :
    zextLow 32 (leWord (m.readBytes x 4)) = m.read (x + 3) ++ m.read (x + 2) ++ m.read (x + 1) ++ m.read x :=
  (zextLow_word _).trans (leWord_four _ _ _ _)

end

/-! ### One load (R137) -/

section
variable {s : State} {n : Nat} {ext : Word → Word} {rd rs1 : RegIdx} {imm : BitVec 12}

theorem loadOp_of_ok {v : Word} (h1 : s.hasReg rs1 = true) (hread : memRead s (dataAddr s rs1 imm) n = .ok v) :
    loadOp n ext rd rs1 imm s = writeBack s rd (ext v) :=
  (withReg_of_hasReg h1 _).trans (withLoad_of_ok hread _)

theorem loadOp_of_error {e : FatalError} (h1 : s.hasReg rs1 = true)
    (hread : memRead s (dataAddr s rs1 imm) n = .error e) : loadOp n ext rd rs1 imm s = .next (s.raise e) :=
  (withReg_of_hasReg h1 _).trans (withLoad_of_error hread _)

end

section
variable {ctor : RegIdx → RegIdx → BitVec 12 → Instr} {n : Nat} {ext : Word → Word}

/-- The rule of an instruction that runs as `loadOp`, whose words are those of the mnemonic `m` and whose extension makes `value` of the
bytes. -/
theorem loadRule_of_exec_eq_loadOp {value : (Nat → Byte) → Word} (m : Mnemonic) (hmask : m.mask = 0x0000707F#32)
    (hinstr : ∀ w, rowInstr w m = ctor (rdOf w) (rs1Of w) (immIField w)) (hn : validWidth n = true)
    (hexec : ∀ rd rs1 imm s, exec (ctor rd rs1 imm) s = loadOp n ext rd rs1 imm s)
    (hvalue : ∀ (buf : Memory) (x : Nat), ext (leWord (buf.readBytes x n)) = value fun k => buf.read (x + k))
    (hzero : ext 0#32 = 0#32) : LoadRule ctor m.pattern n value := by
  refine ⟨?words, ?memory, ?output⟩
  case words => exact fun w => decode_of_masked_eq hmask (hinstr w)
  case memory =>
    intro s rd rs1 imm pre post d h1 hd hdev
    rw [hexec, loadOp_of_ok h1 (memRead_of_inDevice hn hdev), writeBack_of_hasReg hd, hvalue]
  case output =>
    intro s rd rs1 imm pre post port h1 hd hfirst
    rw [hexec, loadOp_of_ok h1 (memRead_of_output hn hfirst), writeBack_of_hasReg hd, hzero]

theorem loadErrorRule_of_exec_eq_loadOp (hexec : ∀ rd rs1 imm s, exec (ctor rd rs1 imm) s = loadOp n ext rd rs1 imm s) :
    LoadErrorRule ctor n := by
  intro s rd rs1 imm
  rw [hexec]
  refine ⟨fun h1 => withReg_of_not_hasReg h1 _, fun h1 hnone => loadOp_of_error h1 (memRead_of_uncovered n hnone),
    fun v h1 hread hd => ?_⟩
  rw [loadOp_of_ok h1 hread, writeBack_of_not_hasReg hd]

theorem loadRangeRule_of_exec_eq_loadOp (hn : validWidth n = true)
    (hexec : ∀ rd rs1 imm s, exec (ctor rd rs1 imm) s = loadOp n ext rd rs1 imm s) : LoadRangeRule ctor n := by
  intro s rd rs1 imm pre post d h1 hfirst hend
  rw [hexec, loadOp_of_error h1 (memRead_of_end_lt hn hfirst hend)]

end

/-! ### The obligations -/

/-- Settles O28: each load runs as `loadOp`, and its extension of the little-endian value is the rule's value of the bytes. -/
theorem loadRules : Obligations.LoadRules :=
  ⟨loadRule_of_exec_eq_loadOp .LB rfl (fun _ => rfl) (by decide) (fun _ _ _ _ => rfl) sextLow_readBytes_one (by decide),
    loadRule_of_exec_eq_loadOp .LH rfl (fun _ => rfl) (by decide) (fun _ _ _ _ => rfl) sextLow_readBytes_two (by decide),
    loadRule_of_exec_eq_loadOp .LW rfl (fun _ => rfl) (by decide) (fun _ _ _ _ => rfl) zextLow_readBytes_four (by decide),
    loadRule_of_exec_eq_loadOp .LBU rfl (fun _ => rfl) (by decide) (fun _ _ _ _ => rfl) zextLow_readBytes_one (by decide),
    loadRule_of_exec_eq_loadOp .LHU rfl (fun _ => rfl) (by decide) (fun _ _ _ _ => rfl) zextLow_readBytes_two (by decide),
    loadRule_of_exec_eq_loadOp .LWU rfl (fun _ => rfl) (by decide) (fun _ _ _ _ => rfl) zextLow_readBytes_four (by decide)⟩

/-- Settles O29: each load runs as `loadOp`, which reads rs1, then makes the access, then writes rd. -/
theorem loadErrorOrder : Obligations.LoadErrorOrder :=
  ⟨loadErrorRule_of_exec_eq_loadOp fun _ _ _ _ => rfl, loadErrorRule_of_exec_eq_loadOp fun _ _ _ _ => rfl,
    loadErrorRule_of_exec_eq_loadOp fun _ _ _ _ => rfl, loadErrorRule_of_exec_eq_loadOp fun _ _ _ _ => rfl,
    loadErrorRule_of_exec_eq_loadOp fun _ _ _ _ => rfl, loadErrorRule_of_exec_eq_loadOp fun _ _ _ _ => rfl,
    loadRangeRule_of_exec_eq_loadOp (by decide) fun _ _ _ _ => rfl,
    loadRangeRule_of_exec_eq_loadOp (by decide) fun _ _ _ _ => rfl,
    loadRangeRule_of_exec_eq_loadOp (by decide) fun _ _ _ _ => rfl,
    loadRangeRule_of_exec_eq_loadOp (by decide) fun _ _ _ _ => rfl⟩

end Sys2Proof.Machine
end

section
/-! PROOFS. The three stores, spec/44_stores.md and spec/20_memory.md R46, R52 and R57: what a store to the first covering device does, the
bytes that it leaves, and the read that sees it. -/

namespace Sys2Proof.Machine

/-! ### A write to the first covering device -/

section
variable {s : State} {a v : Word} {n : Nat} {pre post : List Peripheral}

theorem memWrite_of_inDevice {d : MemoryDevice} (hn : validWidth n = true) (h : InDevice s a n pre d post) :
    memWrite s a n v =
      .ok { s with bus := pre ++ .memory { d with buf := d.buf.writeBytes a.toNat (leBytes n v) } :: post } := by
  have hstore : (Peripheral.memory d).store a n v =
      .ok (.memory { d with buf := d.buf.writeBytes a.toNat (leBytes n v) }, []) := by
    rw [Peripheral.store, MemoryDevice.store_of_inside hn (outside_of_inDevice h)]
  rw [memWrite_of_firstCovering_store_ok h.1 hstore, List.append_nil]

theorem memWrite_of_output {port : Word} (hn : validWidth n = true) (h : FirstCovering s a pre (.output port) post) :
    memWrite s a n v = .ok { s with out := s.out ++ [{ port := port, n := n, bytes := leBytes n v }] } := by
  rw [memWrite_of_firstCovering_store_ok h (Peripheral.store_output hn port a v), ← h.1]

theorem memWrite_of_end_lt {d : MemoryDevice} (hn : validWidth n = true) (h : FirstCovering s a pre (.memory d) post)
    (hend : d.base + d.size < a.toNat + n) : memWrite s a n v = .error (.outOfRange a) := by
  refine memWrite_of_firstCovering_store_error h ?_
  rw [Peripheral.store, MemoryDevice.store_of_outside hn (MemoryDevice.outside_of_end_lt hend)]

/-- A word written is read back at its address (R57). -/
theorem memRead_memWrite_four {t : State} {d : MemoryDevice} (hbus : s.busWf = true) (hdev : InDevice s a 4 pre d post)
    (h : memWrite s a 4 v = .ok t) : memRead t a 4 = .ok v := by
  obtain ⟨hsplit, hpre, hcov⟩ := hdev.1
  obtain ⟨-, -, hcanon, -⟩ := MemoryDevice.wf_iff.mp (State.busWf_mem hbus (d := d) (by simp [hsplit]))
  have hstore := MemoryDevice.store_of_inside (by decide) (outside_of_inDevice hdev) v
  cases (memWrite_of_inDevice (by decide) hdev).symm.trans h
  exact (memRead_of_split (p := .memory { d with buf := d.buf.writeBytes a.toNat (leBytes 4 v) }) 4 rfl hpre hcov).trans
    (MemoryDevice.load_store_four hcanon hstore)

end

/-! ### A device in the place of another -/

section
variable {s : State} {pre post : List Peripheral}

/-- The bus reads as before where a peripheral that covers the same addresses answers the read as before. -/
theorem memRead_replace {p p' : Peripheral} {x : Word} {n : Nat} (hbus : s.bus = pre ++ p :: post)
    (hcov : p'.covers x = p.covers x) (hload : p'.load x n = p.load x n) :
    memRead { s with bus := pre ++ p' :: post } x n = memRead s x n := by
  simp only [memRead, locate, hbus, List.find?_append, List.find?_cons, hcov]
  cases pre.find? fun q => q.covers x with
  | some q => rfl
  | none =>
    cases p.covers x with
    | true => exact hload
    | false => rfl

theorem deviceByte_replace_other {p p' : Peripheral} {k : Nat} (hbus : s.bus = pre ++ p :: post) (hk : k ≠ pre.length) (x : Nat) :
    ({ s with bus := pre ++ p' :: post } : State).deviceByte k x = s.deviceByte k x := by
  simp only [State.deviceByte, hbus]
  obtain hlt | hgt := Nat.lt_or_gt_of_ne hk
  · rw [List.getElem?_append_left hlt, List.getElem?_append_left hlt]
  · obtain ⟨j, rfl⟩ : ∃ j, k = pre.length + (j + 1) := ⟨k - pre.length - 1, by omega⟩
    simp [List.getElem?_append_right]

theorem deviceByte_at {d : MemoryDevice} (hbus : s.bus = pre ++ .memory d :: post) (x : Nat) :
    s.deviceByte pre.length x = some (d.buf.read x) := by
  simp [State.deviceByte, hbus]

theorem deviceByte_replace {d d' : MemoryDevice} {x : Nat} (hbus : s.bus = pre ++ .memory d :: post)
    (hread : d'.buf.read x = d.buf.read x) (k : Nat) :
    ({ s with bus := pre ++ .memory d' :: post } : State).deviceByte k x = s.deviceByte k x := by
  by_cases hk : k = pre.length
  · rw [hk, deviceByte_at hbus, deviceByte_at rfl, hread]
  · exact deviceByte_replace_other hbus hk x

/-- A byte load looks at one cell. -/
theorem MemoryDevice.load_one_congr {d : MemoryDevice} {buf : Memory} {x : Word} (h : buf.read x.toNat = d.buf.read x.toNat) :
    ({ d with buf := buf } : MemoryDevice).load x 1 = d.load x 1 := by
  have hbytes : buf.readBytes x.toNat 1 = d.buf.readBytes x.toNat 1 := congrArg (fun b => [b]) h
  simp only [MemoryDevice.load, hbytes]
  rfl

end

/-- A write leaves every byte outside its own, as the bus reads it and as each device holds it (R46). -/
theorem memWrite_bytes_outside {s t : State} {a v : Word} {n : Nat} (h : memWrite s a n v = .ok t) :
    (∀ x : Word, x.toNat < a.toNat ∨ a.toNat + n ≤ x.toNat → t.byteAt x = s.byteAt x) ∧
      ∀ k x : Nat, x < a.toNat ∨ a.toNat + n ≤ x → t.deviceByte k x = s.deviceByte k x := by
  obtain ⟨-, ⟨pre, d, post, hbus, -, -, -, rfl⟩ | ⟨pre, post, -, -, rfl⟩⟩ := memWrite_cases h
  · refine ⟨fun x hx => ?_, fun k x hx => deviceByte_replace hbus (Memory.read_writeBytes_leBytes_outside d.buf v hx) k⟩
    have hload : (Peripheral.memory { d with buf := d.buf.writeBytes a.toNat (leBytes n v) }).load x 1 =
        (Peripheral.memory d).load x 1 :=
      MemoryDevice.load_one_congr (Memory.read_writeBytes_leBytes_outside d.buf v hx)
    rw [State.byteAt, State.byteAt, memRead_replace hbus (by rfl) hload]
  · exact ⟨fun x _ => State.byteAt_congr rfl x, fun k x _ => State.deviceByte_congr rfl k x⟩

/-! ### One store (R144) -/

section
variable {s : State} {n : Nat} {rs1 rs2 : RegIdx} {imm : BitVec 12}

theorem storeOp_of_ok {t : State} (h1 : s.hasReg rs1 = true) (h2 : s.hasReg rs2 = true)
    (hwrite : memWrite s (dataAddr s rs1 imm) n (s.reg rs2) = .ok t) : storeOp n rs1 rs2 imm s = .next t :=
  (withReg_of_hasReg h1 _).trans ((withReg_of_hasReg h2 _).trans (storeLast_of_ok hwrite))

theorem storeOp_of_error {e : FatalError} (h1 : s.hasReg rs1 = true) (h2 : s.hasReg rs2 = true)
    (hwrite : memWrite s (dataAddr s rs1 imm) n (s.reg rs2) = .error e) : storeOp n rs1 rs2 imm s = .next (s.raise e) :=
  (withReg_of_hasReg h1 _).trans ((withReg_of_hasReg h2 _).trans (storeLast_of_error hwrite))

end

section
variable {ctor : RegIdx → RegIdx → BitVec 12 → Instr} {n : Nat}

/-- The rule of an instruction that runs as `storeOp` and whose words are those of the mnemonic `m`. -/
theorem storeRule_of_exec_eq_storeOp (m : Mnemonic) (hmask : m.mask = 0x0000707F#32)
    (hinstr : ∀ w, rowInstr w m = ctor (rs1Of w) (rs2Of w) (immSField w)) (hn : validWidth n = true)
    (hexec : ∀ rs1 rs2 imm s, exec (ctor rs1 rs2 imm) s = storeOp n rs1 rs2 imm s) : StoreRule ctor m.pattern n := by
  refine ⟨?words, ?memory, ?output⟩
  case words => exact fun w => decode_of_masked_eq hmask (hinstr w)
  case memory =>
    intro s rs1 rs2 imm pre post d h1 h2 hcanon hdev
    refine ⟨_, (hexec ..).trans (storeOp_of_ok h1 h2 (memWrite_of_inDevice hn hdev)), Memory.wf_writeBytes hcanon _ _,
      fun k hk => ?_, fun x hx => ?_⟩
    · exact Memory.read_writeBytes_leBytes hcanon _ _ hk
    · exact Memory.read_writeBytes_leBytes_outside d.buf _ hx
  case output =>
    intro s rs1 rs2 imm pre post port h1 h2 hfirst
    exact (hexec ..).trans (storeOp_of_ok h1 h2 (memWrite_of_output hn hfirst))

theorem storeErrorRule_of_exec_eq_storeOp (hexec : ∀ rs1 rs2 imm s, exec (ctor rs1 rs2 imm) s = storeOp n rs1 rs2 imm s) :
    StoreErrorRule ctor := by
  intro s rs1 rs2 imm
  rw [hexec]
  refine ⟨fun h1 => withReg_of_not_hasReg h1 _, fun h1 h2 => ?_,
    fun h1 h2 hnone => storeOp_of_error h1 h2 (memWrite_of_uncovered n _ hnone)⟩
  exact (withReg_of_hasReg h1 _).trans (withReg_of_not_hasReg h2 _)

theorem storeRangeRule_of_exec_eq_storeOp (hn : validWidth n = true)
    (hexec : ∀ rs1 rs2 imm s, exec (ctor rs1 rs2 imm) s = storeOp n rs1 rs2 imm s) : StoreRangeRule ctor n := by
  intro s rs1 rs2 imm pre post d h1 h2 hfirst hend
  rw [hexec, storeOp_of_error h1 h2 (memWrite_of_end_lt hn hfirst hend)]

theorem storeFrameRule_of_exec_eq_storeOp (hexec : ∀ rs1 rs2 imm s, exec (ctor rs1 rs2 imm) s = storeOp n rs1 rs2 imm s) :
    StoreFrameRule ctor n := by
  intro s t rs1 rs2 imm h
  rw [hexec] at h
  obtain ⟨-, -, u, hwrite, hnext⟩ | ⟨-, hnext⟩ | ⟨-, -, hnext⟩ | ⟨-, -, e, -, hnext⟩ := storeOp_cases n rs1 rs2 imm s <;>
    cases hnext.symm.trans h
  · refine ⟨?_, memWrite_bytes_outside hwrite⟩
    rw [memWrite_frame hwrite]
  iterate 3 exact ⟨rfl, fun _ _ => rfl, fun _ _ _ => rfl⟩

end

/-! ### The obligations -/

/-- Settles O30: each store runs as `storeOp`, whose write reaches the first covering device. -/
theorem storeRules : Obligations.StoreRules :=
  ⟨storeRule_of_exec_eq_storeOp .SB rfl (fun _ => rfl) (by decide) fun _ _ _ _ => rfl,
    storeRule_of_exec_eq_storeOp .SH rfl (fun _ => rfl) (by decide) fun _ _ _ _ => rfl,
    storeRule_of_exec_eq_storeOp .SW rfl (fun _ => rfl) (by decide) fun _ _ _ _ => rfl⟩

/-- Settles O31: each store runs as `storeOp`, which reads rs1, then rs2, then makes the access. -/
theorem storeErrorOrder : Obligations.StoreErrorOrder :=
  ⟨storeErrorRule_of_exec_eq_storeOp fun _ _ _ _ => rfl, storeErrorRule_of_exec_eq_storeOp fun _ _ _ _ => rfl,
    storeErrorRule_of_exec_eq_storeOp fun _ _ _ _ => rfl,
    storeRangeRule_of_exec_eq_storeOp (by decide) fun _ _ _ _ => rfl,
    storeRangeRule_of_exec_eq_storeOp (by decide) fun _ _ _ _ => rfl⟩

/-- Settles O32: a store that is made is one bus write, which leaves every other byte, and one that is not only raises. -/
theorem storeFrame : Obligations.StoreFrame :=
  ⟨storeFrameRule_of_exec_eq_storeOp fun _ _ _ _ => rfl, storeFrameRule_of_exec_eq_storeOp fun _ _ _ _ => rfl,
    storeFrameRule_of_exec_eq_storeOp fun _ _ _ _ => rfl⟩

/-- Settles O50: a running state after SW means that the write was made, and the fetch reads at its address. -/
theorem fetchSeesTheStore : Obligations.FetchSeesTheStore := by
  intro s t rs1 rs2 imm pre post d hbus hdev _ h hrun
  have hexec : exec (.sw rs1 rs2 imm) s = storeOp 4 rs1 rs2 imm s := rfl
  rw [hexec] at h
  obtain ⟨-, -, u, hwrite, hnext⟩ | ⟨-, hnext⟩ | ⟨-, -, hnext⟩ | ⟨-, -, e, -, hnext⟩ := storeOp_cases 4 rs1 rs2 imm s <;>
    cases hnext.symm.trans h
  · exact (memRead_congr (s := t) rfl _ 4).trans (memRead_memWrite_four hbus hdev hwrite)
  iterate 3 cases hrun

/-! ### A word placed for the next fetch -/

theorem tableWord_toNat (w : Word) : tableWord 32 w.toNat = w := by
  rw [tableWord, Nat.mod_eq_of_lt w.isLt, BitVec.ofNat_toNat, BitVec.setWidth_eq]

/-- Placing a word at the pc is the bus write of the word there. -/
theorem memWrite_eq_withFetchWord {s : State} {w : Word} {pre post : List Peripheral} {d : MemoryDevice}
    (h : InDevice s s.pc 4 pre d post) : memWrite s s.pc 4 w = .ok (s.withFetchWord 32 w.toNat) := by
  obtain ⟨hsplit, hpre, hcov⟩ := h.1
  have hplace : (Peripheral.memory d).placeWord s.pc w =
      .memory { d with buf := d.buf.writeBytes s.pc.toNat (leBytes 4 w) } := by
    rw [Peripheral.placeWord, MemoryDevice.store_of_inside (by decide) (outside_of_inDevice h)]
  have hloc : locate s.bus s.pc = some (.memory d) := hsplit ▸ locate_of_split hpre hcov
  rw [State.withFetchWord, tableWord_toNat, placeAtPc, hloc]
  refine (memWrite_of_inDevice (by decide) h).trans ?_
  simp only [hplace, hsplit, replaceFirst_of_split hpre hcov]

/-- Settles O22: the placed word is a bus write, so the read after it, its frame, the well-formed bus and the parameters are those of
`memWrite`. -/
theorem placedWordIsTheNextFetch : Obligations.PlacedWordIsTheNextFetch := by
  intro s w pre post d hbus hdev
  have hwrite := memWrite_eq_withFetchWord (w := w) hdev
  have hframe : s.withFetchWord 32 w.toNat = { s with bus := (s.withFetchWord 32 w.toNat).bus } := by
    rw [← Except.ok.inj ((memWrite_of_inDevice (by decide) hdev).symm.trans hwrite)]
  refine ⟨?_, hframe, memWrite_busWf hbus hwrite, ?_⟩
  · have hpc : (s.withFetchWord 32 w.toNat).pc = s.pc := by rw [hframe]
    rw [fetch, hpc]
    exact memRead_memWrite_four hbus hdev hwrite
  · have hparams := memWrite_params hwrite
    rw [hframe]
    simp only [State.fixedParams, hparams]

end Sys2Proof.Machine
end

section
/-! PROOFS. JAL, JALR and the branches in the cases that R112's statement leaves out, spec/41_jumps.md R110 and R111 and
spec/42_branches.md R120: the link before the target's check, the errors in order, and the branch not taken. -/

namespace Sys2Proof.Machine

/-! ### One transfer, by the target's remainder -/

section
variable {s : State} {target : Word}

theorem jumpTo_of_emod_eq_zero (h : target.toNat % 4 = 0) : jumpTo s target = .next (s.setPc target) :=
  jumpTo_of_aligned ((aligned4_iff_toNat_emod _).mpr h)

theorem jumpTo_of_emod_ne_zero (h : target.toNat % 4 ≠ 0) : jumpTo s target = .next (s.raise (.misalignedTarget target)) :=
  jumpTo_of_misaligned (Bool.eq_false_iff.mpr (mt (aligned4_iff_toNat_emod _).mp h))

end

/-- Settles O24: with its registers present each jump is `jumpTo` from the state with the link written; an absent one is met before. -/
theorem jumpRules : Obligations.JumpRules := by
  refine ⟨fun s rd off => ?jal, fun s rd rs1 imm funct3 => ?jalr⟩
  case jal =>
    refine ⟨fun hd ha => ?_, fun hd ha => ?_, fun hd => thenWrite_of_not_hasReg hd _ _⟩
    · exact (exec_jal_of_hasReg hd off).trans (jumpTo_of_emod_eq_zero ha)
    · exact (exec_jal_of_hasReg hd off).trans (jumpTo_of_emod_ne_zero ha)
  case jalr =>
    refine ⟨fun h1 hd ha => ?_, fun h1 hd ha => ?_, fun h1 => withReg_of_not_hasReg h1 _, fun h1 hd => ?_⟩
    · exact (exec_jalr_of_hasReg h1 hd imm funct3).trans (jumpTo_of_emod_eq_zero ha)
    · exact (exec_jalr_of_hasReg h1 hd imm funct3).trans (jumpTo_of_emod_ne_zero ha)
    · exact (withReg_of_hasReg h1 _).trans (thenWrite_of_not_hasReg hd _ _)

/-- Settles O27: every row of the table runs as `branchOp`, which reads rs1, then rs2, and looks at the target only when taken. -/
theorem branchErrorsAndUntakenBranches : Obligations.BranchErrorsAndUntakenBranches := by
  intro row hrow s rs1 rs2 off
  obtain ⟨cond, -, hexec⟩ := exec_eq_branchOp_of_mem_branchTable hrow
  refine ⟨fun h1 h2 ha => ⟨fun htaken => ?taken, fun hnot => exec_branch_of_not_taken hrow h1 h2 hnot off⟩,
    fun h1 => (hexec ..).trans (withReg_of_not_hasReg h1 _), fun h1 h2 => (hexec ..).trans ?noSecond⟩
  case taken => exact (exec_branch_of_taken hrow h1 h2 htaken off).trans (jumpTo_of_emod_ne_zero ha)
  case noSecond => exact (withReg_of_hasReg h1 _).trans (withReg_of_not_hasReg h2 _)

end Sys2Proof.Machine
end

section
/-! PROOFS. The shifts and SLTIU, spec/45_immediate_alu.md R152, R156 to R158 and spec/46_register_alu.md R167, R171, R172: each shift as
a multiplication or a floor division by a power of two, and the words of the shifts whose funct7 selects nothing. -/

namespace Sys2Proof.Machine

/-! ### The shifts as arithmetic -/

theorem shiftLeft_eq_ofNat (a : Word) (k : Nat) : a <<< k = BitVec.ofNat 32 (a.toNat * 2 ^ k) := by
  apply BitVec.eq_of_toNat_eq
  rw [BitVec.toNat_shiftLeft, BitVec.toNat_ofNat, Nat.shiftLeft_eq]

theorem ushiftRight_eq_ofNat (a : Word) (k : Nat) : a >>> k = BitVec.ofNat 32 (a.toNat / 2 ^ k) := by
  apply BitVec.eq_of_toNat_eq
  have hlt : a.toNat / 2 ^ k < 2 ^ 32 := (Nat.div_le_self _ _).trans_lt a.isLt
  rw [BitVec.toNat_ushiftRight, BitVec.toNat_ofNat, Nat.shiftRight_eq_div_pow, Nat.mod_eq_of_lt hlt]

theorem sshiftRight_eq_ofInt (a : Word) (k : Nat) : a.sshiftRight k = BitVec.ofInt 32 (a.toInt / 2 ^ k) := by
  have hdiv : a.toInt >>> k = a.toInt / 2 ^ k := by
    rw [Int.shiftRight_eq_div_pow]
    norm_cast
  rw [BitVec.sshiftRight, hdiv]

/-- R175: the five low bits are the remainder by 32. -/
theorem toNat_shiftAmount (b : Word) : (shiftAmount b).toNat = b.toNat % 32 := by
  have hfield := toNat_extract b 0 5
  rwa [pow_zero, Nat.div_one] at hfield

/-! ### The immediate shifts and SLTIU -/

/-- The rule of an instruction that runs as `immOp` on the shift amount and whose words are those of the mnemonic `m`. -/
theorem regShamtRule_of_exec_eq_immOp {ctor : RegIdx → RegIdx → BitVec 5 → Instr} {f : Word → Nat → Word} (m : Mnemonic)
    (hmask : m.mask = 0xFE00707F#32) (hinstr : ∀ w, rowInstr w m = ctor (rdOf w) (rs1Of w) (shamtOf w))
    (hexec : ∀ rd rs1 shamt s, exec (ctor rd rs1 shamt) s = immOp (fun a => f a shamt.toNat) rd rs1 s) :
    RegShamtRule ctor m.pattern f := by
  refine ⟨?words, ?meaning⟩
  case words => exact fun w => decode_of_masked_eq hmask (hinstr w)
  case meaning =>
    intro rd rs1 shamt
    exact immOutcome_of_exec_eq_immOp (hexec rd rs1 shamt)

theorem exec_slli (rd rs1 : RegIdx) (shamt : BitVec 5) (s : State) :
    exec (.slli rd rs1 shamt) s = immOp (fun a => BitVec.ofNat 32 (a.toNat * 2 ^ shamt.toNat)) rd rs1 s :=
  congrArg (immOp · rd rs1 s) (funext fun a => shiftLeft_eq_ofNat a shamt.toNat)

theorem exec_srli (rd rs1 : RegIdx) (shamt : BitVec 5) (s : State) :
    exec (.srli rd rs1 shamt) s = immOp (fun a => BitVec.ofNat 32 (a.toNat / 2 ^ shamt.toNat)) rd rs1 s :=
  congrArg (immOp · rd rs1 s) (funext fun a => ushiftRight_eq_ofNat a shamt.toNat)

theorem exec_srai (rd rs1 : RegIdx) (shamt : BitVec 5) (s : State) :
    exec (.srai rd rs1 shamt) s = immOp (fun a => BitVec.ofInt 32 (a.toInt / 2 ^ shamt.toNat)) rd rs1 s :=
  congrArg (immOp · rd rs1 s) (funext fun a => sshiftRight_eq_ofInt a shamt.toNat)

theorem exec_sltiu (rd rs1 : RegIdx) (imm : BitVec 12) (s : State) :
    exec (.sltiu rd rs1 imm) s = immOp (fun a => if a.toNat < (sext12 imm).toNat then 1#32 else 0#32) rd rs1 s :=
  congrArg (immOp · rd rs1 s) (funext fun a => setWord_ltUnsigned a (sext12 imm))

theorem badFunct_of_fields {w : Word} {op : BitVec 7} {f3 : BitVec 3} (hop : opcodeOf w = op) (hf3 : funct3Of w = f3) :
    badFunct w = .error (.invalidFunct op f3 (funct7Of w)) := by
  rw [badFunct, hop, hf3]

/-- Settles O34: each shift runs as `immOp` on its arithmetic function, and the other words of the two funct3 values are the family's
errors. -/
theorem immediateShiftRules : Obligations.ImmediateShiftRules := by
  refine ⟨regShamtRule_of_exec_eq_immOp .SLLI rfl (fun _ => rfl) exec_slli,
    regShamtRule_of_exec_eq_immOp .SRLI rfl (fun _ => rfl) exec_srli,
    regShamtRule_of_exec_eq_immOp .SRAI rfl (fun _ => rfl) exec_srai, fun w hw hf7 => ?left, fun w hw hf7 hf7' => ?right⟩
  case left =>
    obtain ⟨hop, hf3⟩ := fields_of_mask hw
    rw [decode_of_opImmediate hop, decodeImmediate_slli_error hf3 hf7]
    exact badFunct_of_fields hop hf3
  case right =>
    obtain ⟨hop, hf3⟩ := fields_of_mask hw
    rw [decode_of_opImmediate hop, decodeImmediate_right_shift_error hf3 hf7 hf7']
    exact badFunct_of_fields hop hf3

/-- Settles O35: SLTIU runs as `immOp` on the unsigned comparison. -/
theorem sltiuRule : Obligations.SltiuRule :=
  regImmRule_of_exec_eq_immOp .SLTIU rfl (fun _ => rfl) exec_sltiu

/-! ### The register shifts -/

theorem sll_eq_ofNat (a b : Word) : a <<< (shiftAmount b).toNat = BitVec.ofNat 32 (a.toNat * 2 ^ (b.toNat % 32)) := by
  rw [shiftLeft_eq_ofNat, toNat_shiftAmount]

theorem srl_eq_ofNat (a b : Word) : a >>> (shiftAmount b).toNat = BitVec.ofNat 32 (a.toNat / 2 ^ (b.toNat % 32)) := by
  rw [ushiftRight_eq_ofNat, toNat_shiftAmount]

theorem sra_eq_ofInt (a b : Word) : a.sshiftRight (shiftAmount b).toNat = BitVec.ofInt 32 (a.toInt / 2 ^ (b.toNat % 32)) := by
  rw [sshiftRight_eq_ofInt, toNat_shiftAmount]

/-- Settles O37: each shift runs as `regOp` on its arithmetic function of the remainder by 32. -/
theorem registerShiftRules : Obligations.RegisterShiftRules :=
  ⟨regRegRule_of_exec_eq_regOp .SLL rfl (fun _ => rfl) (regOp_congr sll_eq_ofNat),
    regRegRule_of_exec_eq_regOp .SRL rfl (fun _ => rfl) (regOp_congr srl_eq_ofNat),
    regRegRule_of_exec_eq_regOp .SRA rfl (fun _ => rfl) (regOp_congr sra_eq_ofInt)⟩

end Sys2Proof.Machine
end

section
/-! PROOFS. FENCE, ECALL and EBREAK, spec/47_fence_service.md R181 to R183. -/

namespace Sys2Proof.Machine

/-- Settles O38: FENCE's row is its opcode alone, and the three meanings are one state or one event by definition. -/
theorem fenceAndServiceRules : Obligations.FenceAndServiceRules :=
  ⟨fun _ hw => decode_of_masked (m := .FENCE) hw, fun _ _ => rfl, fun _ => ⟨rfl, rfl⟩⟩

end Sys2Proof.Machine
end

section
/-! PROOFS. Reset and launch, spec/10_state.md R28 and spec/70_reset_and_hazards.md R222: the fresh devices, the image in its device, and
the invariant along every run of a launched machine. -/

namespace Sys2Proof.Machine

/-! ### The machine as constructed -/

@[simp] theorem Peripheral.params_ofParams (q : PeripheralParams) : (Peripheral.ofParams q).params = q := by
  cases q <;> rfl

theorem State.construct_fixedParams (cfg : Config) :
    (State.construct cfg).fixedParams = (cfg.nregs, cfg.haltOnService, cfg.bus) := by
  simp [State.fixedParams, State.construct, Function.comp_def]

@[simp] theorem State.construct_reg (cfg : Config) (i : RegIdx) : (State.construct cfg).reg i = 0#32 := by
  by_cases h0 : i = 0#5
  · rw [h0, State.reg_zero]
  · rw [State.reg_of_ne_zero _ h0]
    simp [State.construct, Vector.getD, RegIdx.slot_lt h0]

/-- A legal memory device is well formed while its buffer is empty. -/
theorem Peripheral.wf_ofParams {q : PeripheralParams} (h : q.wf = true) : (Peripheral.ofParams q).wf = true := by
  cases q with
  | memory base size =>
    simp only [PeripheralParams.wf, Bool.and_eq_true, decide_eq_true_eq] at h
    exact MemoryDevice.wf_iff.mpr ⟨h.1, h.2, rfl, by simp⟩
  | output port => rfl

/-- D4: a fresh memory device holds 0x00 everywhere. -/
theorem State.construct_deviceByte {cfg : Config} {k x : Nat} {b : Byte} (h : (State.construct cfg).deviceByte k x = some b) :
    b = 0x00#8 := by
  simp only [State.deviceByte, State.construct, List.getElem?_map] at h
  cases hq : cfg.bus[k]? with
  | none => simp [hq] at h
  | some q =>
    cases q with
    | memory base size =>
      rw [hq] at h
      exact (Option.some.inj h).symm
    | output port => simp [hq, Peripheral.ofParams] at h

/-- Settles O51: reset is the machine constructed for REF. -/
theorem resetState : Obligations.ResetState := by
  refine ⟨fun i => ?_, rfl, rfl, rfl, rfl, fun k x b h => State.construct_deviceByte h, State.construct_fixedParams Config.ref⟩
  rw [State.readReg_of_hasReg (State.hasReg_full rfl i)]
  exact congrArg _ (State.construct_reg Config.ref i)

/-! ### The image (R48, D21) -/

theorem installImage_of_fits (pre post : List Peripheral) {d : MemoryDevice} {img : List Byte} (h : img.length ≤ d.size) :
    installImage (pre ++ .memory d :: post) pre.length img = some (pre ++ .memory (d.install img) :: post) := by
  induction pre with
  | nil => exact if_pos h
  | cons p ps ih =>
    rw [List.cons_append, List.length_cons, installImage, ih]
    rfl

/-- An install that is made puts the image into the memory device at the position, and changes no other peripheral. -/
theorem installImage_eq_some {bus bus' : List Peripheral} {k : Nat} {img : List Byte} (h : installImage bus k img = some bus') :
    ∃ pre d post, bus = pre ++ .memory d :: post ∧ pre.length = k ∧ img.length ≤ d.size ∧
      bus' = pre ++ .memory (d.install img) :: post := by
  induction bus generalizing k bus' with
  | nil => cases k <;> cases h
  | cons p ps ih =>
    cases k with
    | zero =>
      cases p with
      | output port => cases h
      | memory d =>
        rw [installImage] at h
        obtain ⟨hfit, ⟨⟩⟩ | ⟨-, ⟨⟩⟩ := ite_eq_iff.mp h
        exact ⟨[], d, ps, rfl, rfl, hfit, rfl⟩
    | succ k =>
      rw [installImage] at h
      obtain ⟨ps', hps, rfl⟩ := Option.map_eq_some_iff.mp h
      obtain ⟨pre, d, post, rfl, rfl, hfit, rfl⟩ := ih hps
      exact ⟨p :: pre, d, post, rfl, rfl, hfit, rfl⟩

theorem MemoryDevice.wf_install {d : MemoryDevice} (hd : d.wf = true) {img : List Byte} (h : img.length ≤ d.size) :
    (d.install img).wf = true := by
  obtain ⟨hpos, hsize, hcanon, hrange⟩ := MemoryDevice.wf_iff.mp hd
  refine MemoryDevice.wf_iff.mpr ⟨hpos, hsize, Memory.wf_writeBytes hcanon _ _, fun c hc => ?_⟩
  obtain hold | ⟨hlow, hhigh⟩ := Memory.mem_writeBytes hc
  · exact hrange c hold
  · exact ⟨hlow, Nat.lt_of_lt_of_le hhigh (Nat.add_le_add_left h d.base)⟩

/-- The image from the base up, and the empty buffer's 0x00 elsewhere. -/
theorem MemoryDevice.read_install_empty {d : MemoryDevice} (hd : d.buf = []) (img : List Byte) (x : Nat) :
    (d.install img).buf.read x = if d.base ≤ x then img.getD (x - d.base) 0x00#8 else 0x00#8 := by
  have hempty (y : Nat) : d.buf.read y = 0x00#8 := by rw [hd]; rfl
  rw [MemoryDevice.install]
  split
  next hbase =>
    obtain ⟨off, rfl⟩ := Nat.exists_eq_add_of_le hbase
    rw [Nat.add_sub_cancel_left]
    by_cases hoff : off < img.length
    · rw [Memory.read_writeBytes_inside (by rw [hd]; rfl) _ _ hoff, List.getD_eq_getElem _ _ hoff]
    · rw [Memory.read_writeBytes_outside _ _ _ (by omega), hempty, List.getD_eq_default _ _ (by omega)]
  next hbase => rw [Memory.read_writeBytes_outside _ _ _ (by omega), hempty]

/-! ### The launch state -/

/-- The constructed machine with the image installed in the fresh device between `pre` and `post`. -/
def State.installed (cfg : Config) (pre : List PeripheralParams) (base size : Nat) (post : List PeripheralParams) : State :=
  { State.construct cfg with
    bus := pre.map Peripheral.ofParams ++ .memory (MemoryDevice.install ⟨base, size, []⟩ cfg.image) ::
      post.map Peripheral.ofParams }

theorem exists_split_of_getElem? {α : Type} {l : List α} {k : Nat} {x : α} (h : l[k]? = some x) :
    ∃ pre post, l = pre ++ x :: post ∧ pre.length = k := by
  obtain ⟨hk, rfl⟩ := List.getElem?_eq_some_iff.mp h
  refine ⟨l.take k, l.drop (k + 1), ?_, List.length_take_of_le hk.le⟩
  rw [← List.drop_eq_getElem_cons hk, List.take_append_drop]

section
variable {cfg : Config} {s : State}

theorem State.construct_bus_of_split {pre post : List PeripheralParams} {base size : Nat}
    (hbus : cfg.bus = pre ++ .memory base size :: post) :
    (State.construct cfg).bus =
      pre.map Peripheral.ofParams ++ .memory ⟨base, size, []⟩ :: post.map Peripheral.ofParams := by
  simp [State.construct, hbus, Peripheral.ofParams]

/-- A launch is admitted when the parameters are legal and the image fits (D21, D25). -/
theorem launch_of_fits {pre post : List PeripheralParams} {base size : Nat} (hlegal : cfg.bus.all PeripheralParams.wf = true)
    (hbus : cfg.bus = pre ++ .memory base size :: post) (hrom : pre.length = cfg.rom) (hfit : cfg.image.length ≤ size) :
    State.launch cfg = some (presetSp (State.installed cfg pre base size post) cfg.initSp) := by
  have hinstall := installImage_of_fits (pre.map Peripheral.ofParams) (post.map Peripheral.ofParams)
    (d := ⟨base, size, []⟩) hfit
  rw [List.length_map, hrom, ← State.construct_bus_of_split hbus] at hinstall
  rw [State.launch, if_pos hlegal, hinstall]
  rfl

/-- What an admitted launch did. -/
theorem launch_eq_some (h : State.launch cfg = some s) :
    cfg.bus.all PeripheralParams.wf = true ∧ ∃ pre base size post, cfg.bus = pre ++ .memory base size :: post ∧
      pre.length = cfg.rom ∧ cfg.image.length ≤ size ∧ s = presetSp (State.installed cfg pre base size post) cfg.initSp := by
  have h' := h
  rw [State.launch] at h'
  obtain ⟨hlegal, h'⟩ | ⟨-, ⟨⟩⟩ := ite_eq_iff.mp h'
  cases hinstall : installImage (State.construct cfg).bus cfg.rom cfg.image with
  | none => rw [hinstall] at h'; cases h'
  | some bus =>
    obtain ⟨pre', d, post', hbus', hlen, hfit, -⟩ := installImage_eq_some hinstall
    have hq : (cfg.bus.map Peripheral.ofParams)[cfg.rom]? = some (.memory d) := by
      change (State.construct cfg).bus[cfg.rom]? = _
      simp [hbus', ← hlen]
    rw [List.getElem?_map, Option.map_eq_some_iff] at hq
    obtain ⟨q, hrom, hd⟩ := hq
    cases q with
    | output port => cases hd
    | memory base size =>
      cases hd
      obtain ⟨pre, post, hbus, hpre⟩ := exists_split_of_getElem? hrom
      refine ⟨hlegal, pre, base, size, post, hbus, hpre, hfit, ?_⟩
      exact Option.some.inj (h.symm.trans (launch_of_fits hlegal hbus hpre hfit))

end

/-! ### The stack pointer (D20) -/

/-- `INIT_SP` reaches the register file alone. -/
theorem presetSp_frame (s : State) (sp : Option Word) : presetSp s sp = { s with regs := (presetSp s sp).regs } := by
  cases sp with
  | none => rfl
  | some v => exact State.setReg_frame s 2#5 v

theorem presetSp_reg (s : State) (sp : Option Word) (i : RegIdx) :
    (presetSp s sp).reg i = if i = 2#5 then sp.getD (s.reg i) else s.reg i := by
  cases sp with
  | none => simp [presetSp]
  | some v => simp [presetSp, State.reg_setReg]

/-- Both register counts have an x2. -/
theorem State.hasReg_two (s : State) : s.hasReg 2#5 = true := by
  refine State.hasReg_of_lt ?_
  cases s.nregs <;> decide

theorem State.CoreInv.presetSp {s : State} (h : s.CoreInv) (sp : Option Word) : (presetSp s sp).CoreInv := by
  cases sp with
  | none => exact h
  | some v => exact h.setReg s.hasReg_two v

/-! ### The installed machine -/

section
variable {cfg : Config} {pre post : List PeripheralParams} {base size : Nat} (hbus : cfg.bus = pre ++ .memory base size :: post)
include hbus

theorem State.installed_fixedParams :
    (State.installed cfg pre base size post).fixedParams = (cfg.nregs, cfg.haltOnService, cfg.bus) := by
  have hdevice : (Peripheral.memory (MemoryDevice.install ⟨base, size, []⟩ cfg.image)).params = .memory base size := rfl
  simp [State.fixedParams, State.installed, State.construct, hbus, Function.comp_def, hdevice]

theorem State.installed_coreInv (hlegal : cfg.bus.all PeripheralParams.wf = true) (hfit : cfg.image.length ≤ size) :
    (State.installed cfg pre base size post).CoreInv where
  pc := rfl
  bus := by
    rw [List.all_eq_true] at hlegal
    have hfresh (q : PeripheralParams) (hq : q ∈ cfg.bus) : (Peripheral.ofParams q).wf = true := Peripheral.wf_ofParams (hlegal q hq)
    have hdevice : MemoryDevice.wf ⟨base, size, []⟩ = true := hfresh (.memory base size) (by simp [hbus])
    have hinstalled : (Peripheral.memory (MemoryDevice.install ⟨base, size, []⟩ cfg.image)).wf = true :=
      MemoryDevice.wf_install hdevice hfit
    simp only [State.busWf, State.installed, List.all_append, List.all_cons, List.all_map, Bool.and_eq_true, List.all_eq_true]
    exact ⟨fun q hq => hfresh q (by simp [hbus, hq]), hinstalled, fun q hq => hfresh q (by simp [hbus, hq])⟩
  regs r _ := State.construct_reg cfg r
  out _ he := by cases he
  svc _ he := by cases he

end

/-! ### The obligations -/

theorem launch_inv {cfg : Config} {s : State} (h : State.launch cfg = some s) : s.inv = true := by
  obtain ⟨hlegal, pre, base, size, post, hbus, -, hfit, rfl⟩ := launch_eq_some h
  refine State.inv_iff.mpr ⟨(State.installed_coreInv hbus hlegal hfit).presetSp _, State.statusOk_of_running ?_⟩
  rw [presetSp_frame]
  rfl

theorem launch_fixedParams {cfg : Config} {s : State} (h : State.launch cfg = some s) :
    s.fixedParams = (cfg.nregs, cfg.haltOnService, cfg.bus) := by
  obtain ⟨-, pre, base, size, post, hbus, -, -, rfl⟩ := launch_eq_some h
  rw [presetSp_frame]
  exact State.installed_fixedParams hbus

/-- Settles O52: an admitted launch is the installed machine with the stack pointer preset (`launch_eq_some`), and each clause is read off
that state. -/
theorem launchState : Obligations.LaunchState := by
  refine ⟨fun cfg hlegal base size hrom hfit => ?admitted, fun cfg s h => ?state⟩
  case admitted =>
    obtain ⟨pre, post, hbus, hpre⟩ := exists_split_of_getElem? hrom
    exact ⟨_, launch_of_fits hlegal hbus hpre hfit⟩
  case state =>
    refine ⟨launch_fixedParams h, ?_⟩
    have hinv : s.inv = true := launch_inv h
    obtain ⟨-, pre, base, size, post, hbus, hrom, hfit, rfl⟩ := launch_eq_some h
    have hframe := presetSp_frame (State.installed cfg pre base size post) cfg.initSp
    have hbytes (k x : Nat) : (presetSp (State.installed cfg pre base size post) cfg.initSp).deviceByte k x =
        (State.installed cfg pre base size post).deviceByte k x := State.deviceByte_congr (by rw [hframe]) k x
    refine ⟨by rw [hframe]; rfl, by rw [hframe]; rfl, by rw [hframe]; rfl, by rw [hframe]; rfl, fun i => ?regs,
      ⟨base, size, by simp [hbus, ← hrom], hfit, fun x => ?image⟩, fun k hk x b hb => ?others, hinv⟩
    case regs =>
      have hzero : (State.installed cfg pre base size post).reg i = 0#32 := State.construct_reg cfg i
      rw [presetSp_reg, hzero]
    case image =>
      have hat := deviceByte_at (s := State.installed cfg pre base size post) rfl x
      rw [List.length_map, hrom] at hat
      rw [hbytes, hat, MemoryDevice.read_install_empty rfl]
    case others =>
      rw [hbytes] at hb
      have hne : k ≠ (pre.map Peripheral.ofParams).length := by rwa [List.length_map, hrom]
      exact State.construct_deviceByte ((deviceByte_replace_other (State.construct_bus_of_split hbus) hne x).symm.trans hb)

/-- Settles O53, by induction on the run: the launch state has both properties, and every step keeps them. -/
theorem launchedRunsKeepTheInvariant : Obligations.LaunchedRunsKeepTheInvariant := by
  intro cfg s t hlaunch hrun
  induction hrun with
  | refl => exact ⟨launch_inv hlaunch, launch_fixedParams hlaunch⟩
  | step _ hstep ih =>
    obtain ⟨hinv, hparams⟩ := ih
    exact ⟨step_keeps_inv hinv hstep, (parametersNeverChange _ _ hstep).trans hparams⟩

end Sys2Proof.Machine
end
